-- ==== Sys2Proof/Word.lean ====
section
/-! DEFINITION. The word types of AVLC: bytes of the two buffers, 32-bit stream words, 16-bit coefficient codes. -/

namespace Sys2Proof

/-- A byte of the input buffer or of the encoder output (20_memory R60, R71). -/
abbrev Byte := BitVec 8

/-- A 32-bit stream word, also the window FRONT and a DC predictor (00_scope R7 WINDOW_W, R8 PRED_W). -/
abbrev Word := BitVec 32

/-- A 16-bit coefficient code (00_scope R7 CODE_W, 30_encoding R90). -/
abbrev Code := BitVec 16

end Sys2Proof
end

