-- ==== Sys2Proof/Config.lean ====
section
/-! DEFINITION. What an AVLC implementation fixes: the constants of 00_scope R7 and R8, and the types of the
registries, which the spec leaves OPEN (00_scope R6, R8; 92_eei_decisions D25, D35, D36). The opaque constant
`Config.board` that stands for the open parameters is declared at the end of Machine/Tables.lean, after the checks of
41_prefix_lookup R136 that it carries a proof of. -/

namespace Sys2Proof

namespace Config

/-- MB_HEIGHT, macroblocks per column, "hardcoded" (00_scope R7, 70_reset R356). -/
def mbHeight : Nat := 13

/-- BLOCKS_PER_MB (00_scope R7). -/
def blocksPerMb : Nat := 6

/-- COLUMN_BLOCKS = MB_HEIGHT × 6 = 78, the column's block quota (00_scope R7, 45_decoder R230). -/
def columnBlocks : Nat := mbHeight * blocksPerMb

/-- MAX_VLC_LEN, the longest table bitstring (00_scope R7). -/
def maxVlcLen : Nat := 14

/-- WINDOW_W, the bits visible to one peek (00_scope R7). -/
def windowWidth : Nat := 32

/-- MIN_FRAME_BYTES, the smallest buffer the first cursor load accepts (00_scope R7). -/
def minFrameBytes : Nat := 12

/-- BLOCK_BUF_CAP, the AC codes the encoder buffers per block (00_scope R8). -/
def blockBufCap : Nat := 64

/-- DC_ESC_FIELD, the bits after the DC escape (00_scope R7). -/
def dcEscField : Nat := 10

/-- ESC2_FIELD, the raw code after escape2 in every role (00_scope R7). -/
def esc2Field : Nat := 16

end Config

/-- The role of an AC table: which of the three decodes a code (00_scope R15 "Role"). -/
inductive Role where
  | one
  | two
  | three
deriving DecidableEq, Repr, Inhabited

/-- The run width of a role's escape1 (00_scope R7: 0, 3 and 4 bits). -/
def Role.runWidth : Role → Nat
  | .one => 0
  | .two => 3
  | .three => 4

/-- The level width of a role's escape1 (00_scope R7: 7, 5 and 4 bits). -/
def Role.levelWidth : Role → Nat
  | .one => 7
  | .two => 5
  | .three => 4

/-- A table entry (L, c, payload): a bitstring of `len` characters whose numeral is `code` (30_encoding R92,
41_prefix_lookup R130). -/
structure Entry (α : Type) where
  len : Nat
  code : Nat
  payload : α
deriving DecidableEq, Repr, Inhabited

/-- The payload of an instruction entry: the AC counts of the three tables (41_prefix_lookup R130). -/
structure Counts where
  c1 : Nat
  c2 : Nat
  c3 : Nat
deriving DecidableEq, Repr, Inhabited

/-- count1 + count2 + count3, the key of the encoder's reverse map (41_prefix_lookup R136(f), R139). -/
def Counts.sum (c : Counts) : Nat := c.c1 + c.c2 + c.c3

/-- An escape (e, v): a reserved bit pattern of `len` bits with value `value` (30_encoding R93, R95). -/
structure Escape where
  len : Nat
  value : Nat
deriving DecidableEq, Repr, Inhabited

/-- The prefix-code part of a table: its lookup width W and its entries in table order (41_prefix_lookup R130). -/
structure Table (α : Type) where
  width : Nat
  entries : List (Entry α)
deriving DecidableEq, Repr, Inhabited

/-- An AC table: entries whose payload is a coefficient code, with its two escapes (41_prefix_lookup R130). -/
structure AcTable where
  table : Table Nat
  esc1 : Escape
  esc2 : Escape
deriving DecidableEq, Repr, Inhabited

/-- A registry: one DC table with its escape, one instruction table, three AC tables (00_scope R6). -/
structure Registry where
  dc : Table Int
  escDc : Escape
  ins : Table Counts
  ac1 : AcTable
  ac2 : AcTable
  ac3 : AcTable
deriving DecidableEq, Repr, Inhabited

/-- The AC table of a role (44_ac_tables: "Table k is always decoded in role k"). -/
def Registry.ac (r : Registry) : Role → AcTable
  | .one => r.ac1
  | .two => r.ac2
  | .three => r.ac3

/-- What is fixed when a block is built (10_state R32): REGISTRY[0], REGISTRY[1] and OUT_MAX_BYTES. -/
structure Build where
  registry0 : Registry
  registry1 : Registry
  outMaxBytes : Nat
deriving DecidableEq, Repr, Inhabited

end Sys2Proof
end

