-- ==== Sys2Proof/Syntax.lean ====
section
/-! DEFINITION. The instructions of AVLC: one constructor per row of spec/opcode_table.json. The first twelve are the
syntax elements of the bit stream (30_encoding R94), the last eight the host commands (40_host_interface R121). -/

namespace Sys2Proof

/-- An AVLC instruction. A VLC element carries the table entry (L, c, payload) it stands for: the table gives the
payload to the pair (L, c), and a fetched element is the entry the lookup found (assumption log 7). -/
inductive Instr where
  /-- DC escape, then the absolute DC as a 10-bit field (42_dc_table R151). -/
  | dcEsc (v10 : BitVec 10)
  /-- An entry of the DC table: a delta (42_dc_table R152). -/
  | dcVlc (entry : Entry Int)
  /-- An entry of the instruction table: three AC counts (43_instruction_table R170). -/
  | insVlc (entry : Entry Counts)
  /-- Role 1 escape1: run forced 0, 7-bit signed level (44_ac_tables R186). -/
  | ac1Esc1 (level7 : BitVec 7)
  /-- Role 1 escape2: raw 16-bit code (44_ac_tables R187). -/
  | ac1Esc2 (raw16 : BitVec 16)
  /-- An entry of AC table 1 (44_ac_tables R188). -/
  | ac1Vlc (entry : Entry Nat)
  /-- Role 2 escape1: 3-bit run, 5-bit signed level (44_ac_tables R189). -/
  | ac2Esc1 (run3 : BitVec 3) (level5 : BitVec 5)
  /-- Role 2 escape2: raw 16-bit code (44_ac_tables R190). -/
  | ac2Esc2 (raw16 : BitVec 16)
  /-- An entry of AC table 2 (44_ac_tables R191). -/
  | ac2Vlc (entry : Entry Nat)
  /-- Role 3 escape1: 4-bit run, 4-bit signed level (44_ac_tables R192). -/
  | ac3Esc1 (run4 : BitVec 4) (level4 : BitVec 4)
  /-- Role 3 escape2: raw 16-bit code (44_ac_tables R193). -/
  | ac3Esc2 (raw16 : BitVec 16)
  /-- An entry of AC table 3 (44_ac_tables R194). -/
  | ac3Vlc (entry : Entry Nat)
  /-- Command 0x1 (40_host_interface R124). -/
  | reset
  /-- Command 0x2, with the input buffer's bytes as the operand BUF (45_decoder R216). -/
  | startDecode (sel : BitVec 1) (qscale : BitVec 6) (mbCount : BitVec 16) (len : BitVec 24) (buf : List Byte)
  /-- Command 0x3 (45_decoder R217). -/
  | pull
  /-- Command 0x4 (46_encoder R250). -/
  | startEncode (sel : BitVec 1) (qscale : BitVec 6) (mbCount : BitVec 16)
  /-- Command 0x5 (46_encoder R251, R252, R256). -/
  | pushCode (code : BitVec 16)
  /-- Command 0x6 (46_encoder R253, R256). -/
  | pushEob
  /-- Command 0x7 (40_host_interface R123, R126). -/
  | readReg (n : BitVec 8)
  /-- Commands 0x0 and 0x8 to 0xF (40_host_interface R125). -/
  | reservedCmd (code : BitVec 4)
deriving DecidableEq, Repr

/-- The class of a syntax element; the decoder's phase selects the class that comes next (30_encoding R94, R106). -/
inductive ElementClass where
  | dc
  | ins
  | ac (k : Role)
deriving DecidableEq, Repr

/-- The class of an element; a host command has none. -/
def Instr.elementClass : Instr → Option ElementClass
  | .dcEsc _ => some .dc
  | .dcVlc _ => some .dc
  | .insVlc _ => some .ins
  | .ac1Esc1 _ => some (.ac .one)
  | .ac1Esc2 _ => some (.ac .one)
  | .ac1Vlc _ => some (.ac .one)
  | .ac2Esc1 _ _ => some (.ac .two)
  | .ac2Esc2 _ => some (.ac .two)
  | .ac2Vlc _ => some (.ac .two)
  | .ac3Esc1 _ _ => some (.ac .three)
  | .ac3Esc2 _ => some (.ac .three)
  | .ac3Vlc _ => some (.ac .three)
  | .reset => none
  | .startDecode _ _ _ _ _ => none
  | .pull => none
  | .startEncode _ _ _ => none
  | .pushCode _ => none
  | .pushEob => none
  | .readReg _ => none
  | .reservedCmd _ => none

/-- One command as the host offers it on the command port: the 4-bit code, the operand bits, and the bytes of the
buffer that START_DECODE hands over (40_host_interface R120, R121; the packing of the operand bits is assumption log
2). -/
structure HostCommand where
  code : BitVec 4
  operands : BitVec 47
  buf : List Byte
deriving DecidableEq, Repr

end Sys2Proof
end

