-- ==== Sys2Proof/WellFormed.lean ====
section
/-! DEFINITION. Which instructions are well formed: the field ranges the spec gives (30_encoding R92,
41_prefix_lookup R136(a) and R136(g), 40_host_interface R121 and R125), and which elements a registry has. -/

namespace Sys2Proof

/-- The bitstring part of an entry: 1 ≤ L ≤ 14 and c < 2^L (30_encoding R92). -/
def Entry.shapeOk {α : Type} (e : Entry α) : Bool :=
  decide (1 ≤ e.len) && decide (e.len ≤ Config.maxVlcLen) && decide (e.code < 2 ^ e.len)

/-- A DC delta is a signed 32-bit value (41_prefix_lookup R136(g)). -/
def deltaInRange (d : Int) : Bool := decide (-(2 ^ 31) ≤ d) && decide (d ≤ 2 ^ 31 - 1)

/-- Every count is 0..255 (41_prefix_lookup R136(g)). -/
def Counts.inRange (c : Counts) : Bool := decide (c.c1 ≤ 255) && decide (c.c2 ≤ 255) && decide (c.c3 ≤ 255)

/-- An AC payload is a 16-bit code (41_prefix_lookup R136(g)). -/
def codeInRange (p : Nat) : Bool := decide (p ≤ 0xFFFF)

/-- The operand checks that need no registry. -/
def Instr.wf : Instr → Bool
  | .dcEsc _ => true
  | .dcVlc e => e.shapeOk && deltaInRange e.payload
  | .insVlc e => e.shapeOk && e.payload.inRange
  | .ac1Esc1 _ => true
  | .ac1Esc2 _ => true
  | .ac1Vlc e => e.shapeOk && codeInRange e.payload
  | .ac2Esc1 _ _ => true
  | .ac2Esc2 _ => true
  | .ac2Vlc e => e.shapeOk && codeInRange e.payload
  | .ac3Esc1 _ _ => true
  | .ac3Esc2 _ => true
  | .ac3Vlc e => e.shapeOk && codeInRange e.payload
  | .reset => true
  | .startDecode _ _ _ len buf => decide (buf.length = len.toNat)
  | .pull => true
  | .startEncode _ _ _ => true
  | .pushCode _ => true
  | .pushEob => true
  | .readReg _ => true
  | .reservedCmd c => decide (c.toNat = 0) || decide (8 ≤ c.toNat)

/-- An element is one of a registry when it is well formed and, for a table entry, the table holds that entry
(30_encoding R94). A host command is an element of no registry. -/
def Instr.wfIn (r : Registry) (i : Instr) : Bool :=
  i.wf && match i with
  | .dcEsc _ => true
  | .dcVlc e => decide (e ∈ r.dc.entries)
  | .insVlc e => decide (e ∈ r.ins.entries)
  | .ac1Esc1 _ => true
  | .ac1Esc2 _ => true
  | .ac1Vlc e => decide (e ∈ r.ac1.table.entries)
  | .ac2Esc1 _ _ => true
  | .ac2Esc2 _ => true
  | .ac2Vlc e => decide (e ∈ r.ac2.table.entries)
  | .ac3Esc1 _ _ => true
  | .ac3Esc2 _ => true
  | .ac3Vlc e => decide (e ∈ r.ac3.table.entries)
  | .reset => false
  | .startDecode _ _ _ _ _ => false
  | .pull => false
  | .startEncode _ _ _ => false
  | .pushCode _ => false
  | .pushEob => false
  | .readReg _ => false
  | .reservedCmd _ => false

end Sys2Proof
end

