-- ==== Sys2Proof/Machine/Operands.lean ====
section
/-! DEFINITION. The operand forms: bit fields of the window, their extension, the coefficient code, bitstrings, the BITS
fields of an element, and the escape1 precision check (00_scope R9 to R11; 30_encoding R90 to R92, R104, R105, R118;
44_ac_tables R197). -/

namespace Sys2Proof

/-- `F[off+w-1:off]`, the w-bit field at offset `off` of a window (00_scope R9, 30_encoding R104). -/
def field (F : Word) (off w : Nat) : BitVec w := F.extractLsb' off w

/-- A DC value from the escape's field, sext_10 (30_encoding R105(a)), as a 32-bit predictor value. -/
def dcOfField (v10 : BitVec 10) : Word := v10.signExtend 32

/-- The DC code `(QSCALE << 10) | (dc mod 2^10)` (42_dc_table R154). -/
def dcCode (qscale : BitVec 6) (dc : Word) : Code := qscale ++ dc.setWidth 10

/-- The AC code `(run << 10) | (level mod 2^10)` (30_encoding R91). -/
def acCode (run : BitVec 6) (level : BitVec 10) : Code := run ++ level

/-- The run of a code: bits 15:10 (30_encoding R90). -/
def codeRun (c : Code) : BitVec 6 := c.extractLsb' 10 6

/-- The 10-bit level field of a code: bits 9:0 (30_encoding R90). -/
def codeLevel (c : Code) : BitVec 10 := c.setWidth 10

/-- The code of a role 1 escape1: run forced 0, level sext_7 (44_ac_tables R186, 30_encoding R105(b)). -/
def ac1Esc1Code (level7 : BitVec 7) : Code := acCode 0 (level7.signExtend 10)

/-- The code of a role 2 escape1: run zext_3, level sext_5 (44_ac_tables R189, 30_encoding R105(c)). -/
def ac2Esc1Code (run3 : BitVec 3) (level5 : BitVec 5) : Code := acCode (run3.setWidth 6) (level5.signExtend 10)

/-- The code of a role 3 escape1: run zext_4, level sext_4 (44_ac_tables R192, 30_encoding R105(d)). -/
def ac3Esc1Code (run4 : BitVec 4) (level4 : BitVec 4) : Code := acCode (run4.setWidth 6) (level4.signExtend 10)

/-- The code a VLC payload stands for (44_ac_tables R188). -/
def codeOfPayload (p : Nat) : Code := BitVec.ofNat 16 p

/-- The delta a DC payload stands for, as a two's-complement word (42_dc_table R152, DELTA_W = 32). -/
def deltaOfPayload (d : Int) : Word := BitVec.ofInt 32 d

/-- A count of an instruction payload, as an 8-bit counter value (43_instruction_table R170, COUNT_W = 8). -/
def countOfPayload (c : Nat) : BitVec 8 := BitVec.ofNat 8 c

/-- The numeral of a bitstring, its first character the most significant (00_scope R11, 30_encoding R92). -/
def bitstringValue (s : List Bool) : Nat := s.foldl (fun c b => 2 * c + b.toNat) 0

/-- The table entry written as a bitstring (41_prefix_lookup R130, 30_encoding R92). -/
def Entry.ofBitstring {α : Type} (s : List Bool) (p : α) : Entry α := ⟨s.length, bitstringValue s, p⟩

/-- The escape written as a bitstring (30_encoding R92, R93). -/
def Escape.ofBitstring (s : List Bool) : Escape := ⟨s.length, bitstringValue s⟩

/-- One `BITS n, v` line of the stream notation: n raw bits of value v mod 2^n (30_encoding R118). -/
abbrev BitsField := Nat × Nat

/-- How many stream bits a list of BITS lines takes. -/
def bitsLength : List BitsField → Nat
  | [] => 0
  | f :: fs => f.1 + bitsLength fs

/-- The number whose bit i is the i-th stream bit of a list of BITS lines (30_encoding R118: least significant bit
first, earlier lines at lower positions). -/
def bitsValue : List BitsField → Nat
  | [] => 0
  | f :: fs => f.2 % 2 ^ f.1 + 2 ^ f.1 * bitsValue fs

/-- The number of bits of the binary numeral of x, 0 for 0. -/
def bitLength (x : Nat) : Nat := if x = 0 then 0 else Nat.log2 x + 1

/-- minTC(x), the least w ≥ 1 with −2^(w−1) ≤ x ≤ 2^(w−1) − 1 (44_ac_tables R197). -/
def minTC (x : Int) : Nat := if 0 ≤ x then bitLength x.toNat + 1 else bitLength (-x - 1).toNat + 1

/-- fits1(k, run, level), the escape1 precision check (44_ac_tables R197). -/
def fits1 (k : Role) (run : Nat) (level : Int) : Bool :=
  decide (run < 2 ^ k.runWidth) && decide (minTC level ≤ k.levelWidth)

end Sys2Proof
end

