-- ==== Sys2Proof/Machine/Tables.lean ====
section
/-! DEFINITION. The prefix-code tables: the build of the lookup array, the escape match and the lookup
(41_prefix_lookup R131, R134, R135), the well-formedness checks of a registry with their refusals (R136,
60_exceptions R327), the named properties COMPLETE and INS_COVERS, the encoder's reverse map, and the opaque
parameters of the built block. -/

namespace Sys2Proof

/-! ### The primitives -/

/-- escMatch((e, v), F): `(F & (2^e − 1)) == v` (41_prefix_lookup R134). -/
def escMatch (esc : Escape) (F : Word) : Bool := F.toNat % 2 ^ esc.len == esc.value

/-- Entry (L, c) covers slot x when the low L bits of x are c (41_prefix_lookup R131, 30_encoding R93). -/
def Entry.covers {α : Type} (e : Entry α) (x : Nat) : Bool := x % 2 ^ e.len == e.code

/-- The entry whose slots include x; in a table without collisions there is at most one (41_prefix_lookup R131, R140). -/
def Table.entryAt {α : Type} (t : Table α) (x : Nat) : Option (Entry α) := t.entries.find? (fun e => e.covers x)

/-- The entry the lookup finds for a window: the one of slot `F & (2^W − 1)` (41_prefix_lookup R135). -/
def Table.lookupEntry {α : Type} (t : Table α) (F : Word) : Option (Entry α) := t.entryAt (F.toNat % 2 ^ t.width)

/-- lookup(T, F): the pair (L, payload) of the slot, or empty (41_prefix_lookup R135). -/
def Table.lookup {α : Type} (t : Table α) (F : Word) : Option (Nat × α) :=
  (t.lookupEntry F).map (fun e => (e.len, e.payload))

/-! ### The build of the lookup array (PrefixLookupBuilder) -/

/-- A slot of a lookup array: empty, or (L, payload) (10_state R29). -/
abbrev Slot (α : Type) := Option (Nat × α)

/-- One write of the build: slot x takes (L, p) unless it is not empty, when the build refuses (41_prefix_lookup R131,
R132). A slot number past the array, which only a table that fails check (a) can give, is no slot and is refused too
(DESIGN CHOICE, assumption log 20). -/
def writeSlot {α : Type} (e : Entry α) (lut : List (Slot α)) (h : Nat) : Option (List (Slot α)) :=
  match lut[(h <<< e.len) ||| e.code]? with
  | some none => some (lut.set ((h <<< e.len) ||| e.code) (some (e.len, e.payload)))
  | some (some _) => none
  | none => none

/-- The inner loop of the build: every combination of the W − L unconstrained high bits (41_prefix_lookup R131). For an entry
with L > W the rule's loop bound is undefined; the natural-number W − L is 0 there and the loop has the one turn h = 0
(DESIGN CHOICE, assumption log 20; check (a) refuses such an entry). -/
def writeEntry {α : Type} (w : Nat) (lut : List (Slot α)) (e : Entry α) : Option (List (Slot α)) :=
  (List.range (2 ^ (w - e.len))).foldlM (writeSlot e) lut

/-- The build of LUT[T], or none where it writes a slot twice (41_prefix_lookup R131, R132). -/
def Table.buildLut {α : Type} (t : Table α) : Option (List (Slot α)) :=
  t.entries.foldlM (writeEntry t.width) (List.replicate (2 ^ t.width) none)

/-! ### The checks of a registry -/

/-- The build-time refusals (60_exceptions R327). -/
inductive CfgRefusal where
  | entryLen
  | prefixCollision
  | escShape
  | escOverlap
  | wRange
  | insSumDup
  | payloadRange
deriving DecidableEq, Repr

/-- The refusal's code (60_exceptions R327). -/
def CfgRefusal.code : CfgRefusal → Nat
  | .entryLen => 1
  | .prefixCollision => 2
  | .escShape => 3
  | .escOverlap => 4
  | .wRange => 5
  | .insSumDup => 6
  | .payloadRange => 7

/-- Two patterns (L, c) and (L', c') can match one window when they agree on their common low bits
(41_prefix_lookup R136(d)). -/
def patternsMeet (l c l' c' : Nat) : Bool := c % 2 ^ min l l' == c' % 2 ^ min l l'

/-- Every pair of list elements, in order, satisfies the test. -/
def allPairs {α : Type} (ok : α → α → Bool) : List α → Bool
  | [] => true
  | x :: xs => xs.all (ok x) && allPairs ok xs

/-- Check (a) ENTRY_LEN: 1 ≤ L ≤ min(W, 14) and c < 2^L (41_prefix_lookup R136(a)). -/
def Table.entryLenOk {α : Type} (t : Table α) : Bool :=
  t.entries.all (fun e => decide (1 ≤ e.len) && decide (e.len ≤ min t.width Config.maxVlcLen) && decide (e.code < 2 ^ e.len))

/-- Check (b) NO_COLLISION: no two entries cover a common slot, which is when the build of R131 writes no slot twice
(41_prefix_lookup R136(b)). It compares two entries on their common low bits; for a table that fails check (a), with an
entry of L > W or of c ≥ 2^L, the two may differ (DESIGN CHOICE, assumption log 20). -/
def Table.noCollision {α : Type} (t : Table α) : Bool :=
  allPairs (fun e e' => !patternsMeet e.len e.code e'.len e'.code) t.entries

/-- Check (c) ESC_SHAPE for one escape followed by `fieldBits` bits (41_prefix_lookup R136(c)). -/
def Escape.shapeOk (esc : Escape) (fieldBits : Nat) : Bool :=
  decide (1 ≤ esc.len) && decide (esc.value < 2 ^ esc.len) && decide (esc.len + fieldBits ≤ Config.windowWidth)

/-- Check (d) ESC_DISJOINT: no two of a table's escapes, and no escape and entry, can match one window
(41_prefix_lookup R136(d)). -/
def Table.escDisjoint {α : Type} (t : Table α) (escs : List Escape) : Bool :=
  allPairs (fun a b => !patternsMeet a.len a.value b.len b.value) escs &&
    escs.all (fun a => t.entries.all (fun e => !patternsMeet a.len a.value e.len e.code))

/-- Check (e) W_RANGE: 1 ≤ W ≤ 32 (41_prefix_lookup R136(e)). -/
def Table.widthOk {α : Type} (t : Table α) : Bool := decide (1 ≤ t.width) && decide (t.width ≤ Config.windowWidth)

/-- The bits after a role's escape1: its run field and its level field (00_scope R7). -/
def Role.esc1Field (k : Role) : Nat := k.runWidth + k.levelWidth

/-- The five tables' checks (a), over a registry (41_prefix_lookup R136). -/
def Registry.entryLenOk (r : Registry) : Bool :=
  r.dc.entryLenOk && r.ins.entryLenOk && r.ac1.table.entryLenOk && r.ac2.table.entryLenOk && r.ac3.table.entryLenOk

/-- The five tables' checks (b). -/
def Registry.noCollision (r : Registry) : Bool :=
  r.dc.noCollision && r.ins.noCollision && r.ac1.table.noCollision && r.ac2.table.noCollision && r.ac3.table.noCollision

/-- Check (c) for every escape of the registry. -/
def Registry.escShapeOk (r : Registry) : Bool :=
  r.escDc.shapeOk Config.dcEscField &&
    (r.ac1.esc1.shapeOk (Role.esc1Field .one) && r.ac1.esc2.shapeOk Config.esc2Field) &&
    (r.ac2.esc1.shapeOk (Role.esc1Field .two) && r.ac2.esc2.shapeOk Config.esc2Field) &&
    (r.ac3.esc1.shapeOk (Role.esc1Field .three) && r.ac3.esc2.shapeOk Config.esc2Field)

/-- Check (d) for every table; the instruction table has no escape. -/
def Registry.escDisjoint (r : Registry) : Bool :=
  r.dc.escDisjoint [r.escDc] && r.ac1.table.escDisjoint [r.ac1.esc1, r.ac1.esc2] &&
    r.ac2.table.escDisjoint [r.ac2.esc1, r.ac2.esc2] && r.ac3.table.escDisjoint [r.ac3.esc1, r.ac3.esc2]

/-- The five tables' checks (e). -/
def Registry.widthOk (r : Registry) : Bool :=
  r.dc.widthOk && r.ins.widthOk && r.ac1.table.widthOk && r.ac2.table.widthOk && r.ac3.table.widthOk

/-- Check (f) INS_SUM_UNIQUE: no two instruction entries have the same count sum (41_prefix_lookup R136(f)). -/
def Registry.insSumUnique (r : Registry) : Bool :=
  allPairs (fun e e' => decide (e.payload.sum ≠ e'.payload.sum)) r.ins.entries

/-- Check (g) PAYLOAD_RANGE (41_prefix_lookup R136(g)). -/
def Registry.payloadOk (r : Registry) : Bool :=
  r.dc.entries.all (fun e => deltaInRange e.payload) && r.ins.entries.all (fun e => e.payload.inRange) &&
    r.ac1.table.entries.all (fun e => codeInRange e.payload) &&
    r.ac2.table.entries.all (fun e => codeInRange e.payload) &&
    r.ac3.table.entries.all (fun e => codeInRange e.payload)

/-- Every refusal a registry meets; the build reports one of them (60_exceptions R327; which one where several hold is
not said, assumption log 17; whether PREFIX_COLLISION stands beside ENTRY_LEN, assumption log 20). -/
def Registry.refusals (r : Registry) : List CfgRefusal :=
  (if r.entryLenOk then [] else [.entryLen]) ++ (if r.noCollision then [] else [.prefixCollision]) ++
    (if r.escShapeOk then [] else [.escShape]) ++ (if r.escDisjoint then [] else [.escOverlap]) ++
    (if r.widthOk then [] else [.wRange]) ++ (if r.insSumUnique then [] else [.insSumDup]) ++
    (if r.payloadOk then [] else [.payloadRange])

/-- A registry is well formed exactly when every check passes (41_prefix_lookup R136). -/
def Registry.wf (r : Registry) : Bool :=
  r.entryLenOk && r.noCollision && r.escShapeOk && r.escDisjoint && r.widthOk && r.insSumUnique && r.payloadOk

/-- What a built block holds: two well-formed registries (41_prefix_lookup R138) and an output capacity that is a
multiple of 4 (00_scope R8). -/
def Build.wf (b : Build) : Bool := b.registry0.wf && b.registry1.wf && decide (b.outMaxBytes % 4 = 0)

/-- REGISTRY[SEL] (00_scope R6). -/
def Build.registry (b : Build) (sel : BitVec 1) : Registry := if sel = 0 then b.registry0 else b.registry1

/-! ### Named properties and the reverse map -/

/-- COMPLETE(T): every window is matched by an escape or has a non-empty slot (41_prefix_lookup R137). -/
def Table.Complete {α : Type} (t : Table α) (escs : List Escape) : Prop :=
  ∀ F : Word, (∃ e ∈ escs, escMatch e F = true) ∨ (t.lookup F).isSome = true

/-- SUMMAP[s]: the instruction entry whose counts sum to s, or none (41_prefix_lookup R139). -/
def Registry.sumMap (r : Registry) (s : Nat) : Option (Entry Counts) :=
  r.ins.entries.find? (fun e => decide (e.payload.sum = s))

/-- INS_COVERS(T, S): SUMMAP[s] exists for every count s of S (43_instruction_table R174). -/
def Registry.InsCovers (r : Registry) (counts : List Nat) : Prop := ∀ s ∈ counts, (r.sumMap s).isSome = true

/-! ### The open parameters of the built block -/

namespace Config

/-- A built block: its parameters with the proof that no check refuses them (41_prefix_lookup R136, 60_exceptions R327:
"the model takes the registry as a parameter that carries a proof of the checks"). The default values only show that
such a block exists: registries without entries. -/
structure Board where
  build : Build :=
    let t : AcTable := ⟨⟨1, []⟩, ⟨1, 0⟩, ⟨1, 1⟩⟩
    let r : Registry := ⟨⟨1, []⟩, ⟨1, 0⟩, ⟨1, []⟩, t, t, t⟩
    ⟨r, r, 0⟩
  admitted : build.wf = true := by decide
deriving Inhabited

/-- The block's registries and output capacity, OPEN in the spec (92_eei_decisions D25, D35, D36): a free value, of
which nothing but its admission can be proved (assumption log 5). -/
opaque board : Board

end Config

end Sys2Proof
end

