-- ==== Sys2Proof/Decode.lean ====
section
/-! DEFINITION. Decoding and encoding. A host command is decoded from its 4-bit code and operand bits (40_host_interface
R121); a syntax element is decoded from the window, the class that comes next and the registry (30_encoding R94, R106,
R107). The encoders follow the same tables: commands back to a port entry, elements to their BITS lines (30_encoding
R118). -/

namespace Sys2Proof

/-! ### Host commands -/

/-- Why a port entry is no command. -/
inductive DecodeError where
  /-- START_DECODE with a buffer that is not len bytes (45_decoder R216 "len bytes"; assumption log 4). -/
  | bufferIsNotLenBytes
deriving DecidableEq, Repr

/-- The operand field of w bits at offset `off` (40_host_interface R121 gives the widths; assumption log 2 the offsets). -/
def operandField (ops : BitVec 47) (off w : Nat) : BitVec w := ops.extractLsb' off w

/-- The decoder of START_DECODE: sel, qscale, mb_count, len in the listed order, and the buffer. -/
def decodeStartDecode (ops : BitVec 47) (buf : List Byte) : Except DecodeError Instr :=
  if buf.length = (operandField ops 23 24).toNat then
    .ok (.startDecode (operandField ops 0 1) (operandField ops 1 6) (operandField ops 7 16) (operandField ops 23 24) buf)
  else .error .bufferIsNotLenBytes

/-- The command decoder: every 4-bit code is a command or reserved (40_host_interface R121, R125). -/
def decodeCommand (c : HostCommand) : Except DecodeError Instr :=
  match c.code.toNat with
  | 1 => .ok .reset
  | 2 => decodeStartDecode c.operands c.buf
  | 3 => .ok .pull
  | 4 => .ok (.startEncode (operandField c.operands 0 1) (operandField c.operands 1 6) (operandField c.operands 7 16))
  | 5 => .ok (.pushCode (operandField c.operands 0 16))
  | 6 => .ok .pushEob
  | 7 => .ok (.readReg (operandField c.operands 0 8))
  | _ => .ok (.reservedCmd c.code)

/-! ### Syntax elements -/

/-- Class DC: ESC_DC first, then the table (30_encoding R107, 42_dc_table R150). -/
def decodeDc (r : Registry) (F : Word) : Option Instr :=
  if escMatch r.escDc F then some (.dcEsc (field F r.escDc.len 10)) else (r.dc.lookupEntry F).map Instr.dcVlc

/-- Class INS: the table only (30_encoding R107, 43_instruction_table R170). -/
def decodeIns (r : Registry) (F : Word) : Option Instr := (r.ins.lookupEntry F).map Instr.insVlc

/-- Class AC1: escape1, escape2, then the table (30_encoding R107, 44_ac_tables R185). -/
def decodeAc1 (r : Registry) (F : Word) : Option Instr :=
  if escMatch r.ac1.esc1 F then some (.ac1Esc1 (field F r.ac1.esc1.len 7))
  else if escMatch r.ac1.esc2 F then some (.ac1Esc2 (field F r.ac1.esc2.len 16))
  else (r.ac1.table.lookupEntry F).map Instr.ac1Vlc

/-- Class AC2: escape1 with its run below its level, escape2, then the table (30_encoding R94, R107). -/
def decodeAc2 (r : Registry) (F : Word) : Option Instr :=
  if escMatch r.ac2.esc1 F then some (.ac2Esc1 (field F r.ac2.esc1.len 3) (field F (r.ac2.esc1.len + 3) 5))
  else if escMatch r.ac2.esc2 F then some (.ac2Esc2 (field F r.ac2.esc2.len 16))
  else (r.ac2.table.lookupEntry F).map Instr.ac2Vlc

/-- Class AC3: escape1 with its run below its level, escape2, then the table (30_encoding R94, R107). -/
def decodeAc3 (r : Registry) (F : Word) : Option Instr :=
  if escMatch r.ac3.esc1 F then some (.ac3Esc1 (field F r.ac3.esc1.len 4) (field F (r.ac3.esc1.len + 4) 4))
  else if escMatch r.ac3.esc2 F then some (.ac3Esc2 (field F r.ac3.esc2.len 16))
  else (r.ac3.table.lookupEntry F).map Instr.ac3Vlc

/-- The element a window begins with, in the class that comes next; none is an illegal encoding (30_encoding R106,
R112). -/
def decodeElement (r : Registry) (cls : ElementClass) (F : Word) : Option Instr :=
  match cls with
  | .dc => decodeDc r F
  | .ins => decodeIns r F
  | .ac .one => decodeAc1 r F
  | .ac .two => decodeAc2 r F
  | .ac .three => decodeAc3 r F

/-- The element's length in stream bits (30_encoding R94, R106); a host command has none. -/
def elementLength (r : Registry) : Instr → Nat
  | .dcEsc _ => r.escDc.len + 10
  | .dcVlc e => e.len
  | .insVlc e => e.len
  | .ac1Esc1 _ => r.ac1.esc1.len + 7
  | .ac1Esc2 _ => r.ac1.esc2.len + 16
  | .ac1Vlc e => e.len
  | .ac2Esc1 _ _ => r.ac2.esc1.len + 8
  | .ac2Esc2 _ => r.ac2.esc2.len + 16
  | .ac2Vlc e => e.len
  | .ac3Esc1 _ _ => r.ac3.esc1.len + 8
  | .ac3Esc2 _ => r.ac3.esc2.len + 16
  | .ac3Vlc e => e.len
  | .reset => 0
  | .startDecode _ _ _ _ _ => 0
  | .pull => 0
  | .startEncode _ _ _ => 0
  | .pushCode _ => 0
  | .pushEob => 0
  | .readReg _ => 0
  | .reservedCmd _ => 0

/-! ### The encoders -/

/-- The operand bits of START_DECODE and START_ENCODE: fields in the listed order, the first lowest. -/
def startOperands (sel : BitVec 1) (qscale : BitVec 6) (mbCount : BitVec 16) (len : BitVec 24) : BitVec 47 :=
  len ++ mbCount ++ qscale ++ sel

/-- The port entry of a host command (40_host_interface R121); a syntax element is not offered on the port. -/
def encodeCommand : Instr → Option HostCommand
  | .dcEsc _ => none
  | .dcVlc _ => none
  | .insVlc _ => none
  | .ac1Esc1 _ => none
  | .ac1Esc2 _ => none
  | .ac1Vlc _ => none
  | .ac2Esc1 _ _ => none
  | .ac2Esc2 _ => none
  | .ac2Vlc _ => none
  | .ac3Esc1 _ _ => none
  | .ac3Esc2 _ => none
  | .ac3Vlc _ => none
  | .reset => some ⟨1, 0, []⟩
  | .startDecode sel qscale mbCount len buf => some ⟨2, startOperands sel qscale mbCount len, buf⟩
  | .pull => some ⟨3, 0, []⟩
  | .startEncode sel qscale mbCount => some ⟨4, startOperands sel qscale mbCount 0, []⟩
  | .pushCode code => some ⟨5, code.setWidth 47, []⟩
  | .pushEob => some ⟨6, 0, []⟩
  | .readReg n => some ⟨7, n.setWidth 47, []⟩
  | .reservedCmd code => some ⟨code, 0, []⟩

/-- The BITS line of a table entry: `BITS L, c` (30_encoding R118). -/
def entryBits {α : Type} (e : Entry α) : List BitsField := [(e.len, e.code)]

/-- The BITS line of an escape: `BITS e, v` (30_encoding R118). -/
def escapeBits (esc : Escape) : BitsField := (esc.len, esc.value)

/-- The BITS lines of an element in a registry (30_encoding R118); a host command has none. -/
def encodeElement (r : Registry) : Instr → List BitsField
  | .dcEsc v10 => [escapeBits r.escDc, (10, v10.toNat)]
  | .dcVlc e => entryBits e
  | .insVlc e => entryBits e
  | .ac1Esc1 level7 => [escapeBits r.ac1.esc1, (7, level7.toNat)]
  | .ac1Esc2 raw16 => [escapeBits r.ac1.esc2, (16, raw16.toNat)]
  | .ac1Vlc e => entryBits e
  | .ac2Esc1 run3 level5 => [escapeBits r.ac2.esc1, (3, run3.toNat), (5, level5.toNat)]
  | .ac2Esc2 raw16 => [escapeBits r.ac2.esc2, (16, raw16.toNat)]
  | .ac2Vlc e => entryBits e
  | .ac3Esc1 run4 level4 => [escapeBits r.ac3.esc1, (4, run4.toNat), (4, level4.toNat)]
  | .ac3Esc2 raw16 => [escapeBits r.ac3.esc2, (16, raw16.toNat)]
  | .ac3Vlc e => entryBits e
  | .reset => []
  | .startDecode _ _ _ _ _ => []
  | .pull => []
  | .startEncode _ _ _ => []
  | .pushCode _ => []
  | .pushEob => []
  | .readReg _ => []
  | .reservedCmd _ => []

/-! ### The values the elements decode to -/

/-- The coefficient code an AC element decodes to, its code component in acDecode (44_ac_tables R186 to R194). -/
def acElementCode : Instr → Option Code
  | .dcEsc _ => none
  | .dcVlc _ => none
  | .insVlc _ => none
  | .ac1Esc1 level7 => some (ac1Esc1Code level7)
  | .ac1Esc2 raw16 => some raw16
  | .ac1Vlc e => some (codeOfPayload e.payload)
  | .ac2Esc1 run3 level5 => some (ac2Esc1Code run3 level5)
  | .ac2Esc2 raw16 => some raw16
  | .ac2Vlc e => some (codeOfPayload e.payload)
  | .ac3Esc1 run4 level4 => some (ac3Esc1Code run4 level4)
  | .ac3Esc2 raw16 => some raw16
  | .ac3Vlc e => some (codeOfPayload e.payload)
  | .reset => none
  | .startDecode _ _ _ _ _ => none
  | .pull => none
  | .startEncode _ _ _ => none
  | .pushCode _ => none
  | .pushEob => none
  | .readReg _ => none
  | .reservedCmd _ => none

/-- The DC value of a DC_VLC element: wrap32(prev + delta) (42_dc_table R152). -/
def dcVlcValue (e : Entry Int) (prev : Word) : Word := prev + deltaOfPayload e.payload

/-- The DC value a DC element decodes to from a predictor value, its dc component in dcDecode (42_dc_table R151, R152). -/
def dcElementValue (prev : Word) : Instr → Option Word
  | .dcEsc v10 => some (dcOfField v10)
  | .dcVlc e => some (dcVlcValue e prev)
  | .insVlc _ => none
  | .ac1Esc1 _ => none
  | .ac1Esc2 _ => none
  | .ac1Vlc _ => none
  | .ac2Esc1 _ _ => none
  | .ac2Esc2 _ => none
  | .ac2Vlc _ => none
  | .ac3Esc1 _ _ => none
  | .ac3Esc2 _ => none
  | .ac3Vlc _ => none
  | .reset => none
  | .startDecode _ _ _ _ _ => none
  | .pull => none
  | .startEncode _ _ _ => none
  | .pushCode _ => none
  | .pushEob => none
  | .readReg _ => none
  | .reservedCmd _ => none

/-- dcDecode(F, prev): the DC value and the bits consumed, or a miss (42_dc_table R150 to R153). -/
def dcDecode (r : Registry) (F : Word) (prev : Word) : Option (Word × Nat) :=
  match decodeElement r .dc F with
  | none => none
  | some i => (dcElementValue prev i).map (fun dc => (dc, elementLength r i))

/-- acDecode(k, F): the code and the bits consumed, or a miss (44_ac_tables R185 to R195). -/
def acDecode (r : Registry) (k : Role) (F : Word) : Option (Code × Nat) :=
  match decodeElement r (.ac k) F with
  | none => none
  | some i => (acElementCode i).map (fun c => (c, elementLength r i))

/-! ### What the encoder chooses -/

/-- dcEncode's choice: the first entry whose delta is dc − prev, else the escape (42_dc_table R155). -/
def chooseDc (r : Registry) (dc prev : Word) : Instr :=
  match r.dc.entries.find? (fun e => decide (e.payload = dc.toInt - prev.toInt)) with
  | some e => .dcVlc e
  | none => .dcEsc (dc.setWidth 10)

/-- insEncode's choice: SUMMAP[total] (43_instruction_table R172). -/
def chooseIns (r : Registry) (total : Nat) : Option (Entry Counts) := r.sumMap total

/-- The VLC element of a role's table. -/
def acVlcOf (k : Role) (e : Entry Nat) : Instr :=
  match k with
  | .one => .ac1Vlc e
  | .two => .ac2Vlc e
  | .three => .ac3Vlc e

/-- The escape1 element of a code in a role: level mod 2^7; run and level mod 2^5; run and level mod 2^4
(44_ac_tables R196). -/
def acEsc1Of (k : Role) (c : Code) : Instr :=
  match k with
  | .one => .ac1Esc1 (c.setWidth 7)
  | .two => .ac2Esc1 (c.extractLsb' 10 3) (c.setWidth 5)
  | .three => .ac3Esc1 (c.extractLsb' 10 4) (c.setWidth 4)

/-- The escape2 element of a code in a role (44_ac_tables R196). -/
def acEsc2Of (k : Role) (c : Code) : Instr :=
  match k with
  | .one => .ac1Esc2 c
  | .two => .ac2Esc2 c
  | .three => .ac3Esc2 c

/-- acEncode's choice: the first entry holding the code, else escape1 where it fits, else escape2 (44_ac_tables R196). -/
def chooseAc (r : Registry) (k : Role) (c : Code) : Instr :=
  match (r.ac k).table.entries.find? (fun e => decide (e.payload = c.toNat)) with
  | some e => acVlcOf k e
  | none => if fits1 k (codeRun c).toNat (codeLevel c).toInt then acEsc1Of k c else acEsc2Of k c

/-! ### The opcode table's words -/

/-- The number of buffer bytes a port entry's operands ask for: len for START_DECODE, none for the others. -/
def wordBufferBytes (code : BitVec 4) (ops : BitVec 47) : Nat :=
  if code = 2 then (operandField ops 23 24).toNat else 0

/-- A command written as one number: the code in bits 3:0, the operand bits in 50:4, then the buffer's bytes
(assumption log 3). -/
def hostCommandOfWord (w : Nat) : HostCommand :=
  let ops := BitVec.ofNat 47 (w / 2 ^ 4)
  let code := BitVec.ofNat 4 w
  ⟨code, ops, (List.range (wordBufferBytes code ops)).map (fun i => BitVec.ofNat 8 (w / 2 ^ (51 + 8 * i)))⟩

/-- The instruction the command decoder reads from a word of `nbits` bits. A syntax element has no word of its own
here: its bits are registry parameters and its class is the decoder's phase (30_encoding R116; assumption log 3). -/
def decodeTableWord (nbits w : Nat) : Option Instr :=
  match decodeCommand (hostCommandOfWord (w % 2 ^ nbits)) with
  | .ok i => some i
  | .error _ => none

end Sys2Proof
end

