-- ==== Sys2Proof/Machine/Memory.lean ====
section
/-! DEFINITION. The two byte memories, BUF and OUT, as lists of (offset, byte) pairs in one canonical form: offsets
strictly rising, no entry equal to 0, which is what an unlisted byte reads as (20_memory R62; assumption log 14). -/

namespace Sys2Proof.Machine

/-- A byte memory. -/
abbrev Memory := List Host.Cell

/-- What an unlisted byte reads as (20_memory R62 for BUF past LEN; assumption log 14). -/
def unlistedByte : Byte := 0

/-- Every listed offset is at least `lo`, the offsets rise strictly, and no entry holds the unlisted byte. -/
def memoryFrom (lo : Nat) : Memory → Bool
  | [] => true
  | c :: cs => decide (lo ≤ c.1) && (c.2 != unlistedByte) && memoryFrom (c.1 + 1) cs

/-- The canonical form. -/
def Memory.wf (m : Memory) : Bool := memoryFrom 0 m

/-- The byte at offset a. -/
def Memory.read (m : Memory) (a : Nat) : Byte :=
  match m with
  | [] => unlistedByte
  | c :: cs => if c.1 = a then c.2 else Memory.read cs a

/-- Put a byte in front of a memory, unless it is the unlisted byte. -/
def consCell (a : Nat) (b : Byte) (m : Memory) : Memory := if b = unlistedByte then m else (a, b) :: m

/-- Store byte b at offset a, keeping the canonical form. -/
def Memory.write (m : Memory) (a : Nat) (b : Byte) : Memory :=
  match m with
  | [] => consCell a b []
  | c :: cs =>
    if a < c.1 then consCell a b (c :: cs)
    else if a = c.1 then consCell a b cs
    else c :: Memory.write cs a b

/-- The memory whose offsets lo, lo + 1, … hold the listed bytes (45_decoder R216: the host's len bytes, from offset
0). -/
def memoryOfBytes (lo : Nat) : List Byte → Memory
  | [] => []
  | b :: bs => consCell lo b (memoryOfBytes (lo + 1) bs)

/-- Byte i of a 32-bit word, `w[8i+7:8i]` (20_memory R72). -/
def wordByte (w : Word) (i : Nat) : Byte := w.extractLsb' (8 * i) 8

/-- Four bytes as a little-endian 32-bit word (20_memory R63). -/
def wordOfBytes (b0 b1 b2 b3 : Byte) : Word := b3 ++ b2 ++ b1 ++ b0

/-- Store a word little-endian at offset a (20_memory R72). -/
def Memory.writeWord (m : Memory) (a : Nat) (w : Word) : Memory :=
  (((m.write a (wordByte w 0)).write (a + 1) (wordByte w 1)).write (a + 2) (wordByte w 2)).write (a + 3) (wordByte w 3)

end Sys2Proof.Machine
end

