-- ==== Sys2Proof/Machine/State.lean ====
section
/-! DEFINITION. The state of the AVLC block (10_state R20), its responses (40_host_interface R122), the stops of the
model, and the reset state (70_reset R345). -/

namespace Sys2Proof.Machine

/-- MODE (10_state R20): 0 a decode frame, 1 an encode frame. -/
inductive Mode where
  | decode
  | encode
deriving DecidableEq, Repr

/-- PHASE (10_state R22). The reserved values 10 to 15 are never held and have no constructor. -/
inductive Phase where
  /-- 0: no frame started since reset. -/
  | idle
  /-- 1: the next item is a block's DC. -/
  | atDc
  /-- 2, decode: the next PULL decodes the instruction code. -/
  | atIns
  /-- 3, decode: consuming table 1. -/
  | ac1
  /-- 4, decode: consuming table 2. -/
  | ac2
  /-- 5, decode: consuming table 3. -/
  | ac3
  /-- 6, decode: the next PULL emits EOB. -/
  | blockEnd
  /-- 7: the frame's macroblocks are complete. -/
  | done
  /-- 8: an error aborted the frame. -/
  | error
  /-- 9, encode: the DC is written, AC codes are being buffered. -/
  | collect
deriving DecidableEq, Repr

/-- BLK (10_state R20, 00_scope R15 "Block identity"): the values 0 to 5. Values 6 and 7 are never held. -/
inductive Block where
  | cr
  | cb
  | y1
  | y2
  | y3
  | y4
deriving DecidableEq, Repr

/-- One of the four DC predictors (10_state R27). -/
inductive Pred where
  | cr
  | cb
  | y1
  | y3
deriving DecidableEq, Repr

/-- ERR_CAUSE (60_exceptions R316). The reserved values 7 to 15 are never held. -/
inductive ErrCause where
  | none
  | readCorruption
  | endOfStream
  | encNoInstruction
  | encProtocol
  | encBlockOverflow
  | encOutputOverflow
deriving DecidableEq, Repr

/-- ERR_TABLE (10_state R25). The reserved values 6 and 7 are never held. -/
inductive ErrTable where
  | none
  | dc
  | ins
  | ac1
  | ac2
  | ac3
deriving DecidableEq, Repr

/-- The response tags 0 to 7 (40_host_interface R122). -/
inductive Tag where
  | codeDc
  | codeAc
  | eob
  | frameDone
  | error
  | notStarted
  | ok
  | illegalCommand
deriving DecidableEq, Repr

/-- A response: a tag and 64 bits of data (40_host_interface R122). -/
structure Response where
  tag : Tag
  data : BitVec 64
deriving DecidableEq, Repr

/-- The state. Fields named as in 10_state R20, then the memories of R30, the built block's parameters (R29, R32) and
the two sides of the host's port, which are the model's own. -/
structure State where
  /-- MODE. -/
  mode : Mode
  /-- PHASE. -/
  phase : Phase
  /-- SEL, the registry selector. -/
  sel : BitVec 1
  /-- QSCALE, the frame's quantization scale. -/
  qscale : BitVec 6
  /-- MB_COUNT, macroblocks in the frame. -/
  mbCount : BitVec 16
  /-- LEN, the input buffer's length in bytes. -/
  len : BitVec 24
  /-- FRONT, the bit window. -/
  front : Word
  /-- MID, the unconsumed part of the word after FRONT's first word. -/
  mid : Word
  /-- BACK, the following word. -/
  back : Word
  /-- REM, valid bits left in MID, two's complement. -/
  rem : BitVec 7
  /-- P, the byte offset of the cursor; 32 bits that never overflow, held unbounded as 47_bit_cursor R291 allows
  (assumption log 8). -/
  p : Nat
  /-- PRED_CR. -/
  predCr : Word
  /-- PRED_CB. -/
  predCb : Word
  /-- PRED_Y1. -/
  predY1 : Word
  /-- PRED_Y3. -/
  predY3 : Word
  /-- CNT1, the AC countdown counter of table 1. -/
  cnt1 : BitVec 8
  /-- CNT2, of table 2. -/
  cnt2 : BitVec 8
  /-- CNT3, of table 3. -/
  cnt3 : BitVec 8
  /-- MB_IDX, the macroblock index within the frame. -/
  mbIdx : BitVec 16
  /-- BLK, the block within the macroblock. -/
  blk : Block
  /-- CODE_IDX, codes emitted or accepted in the current block. -/
  codeIdx : BitVec 10
  /-- QUOTA, blocks left in the current column. -/
  quota : BitVec 7
  /-- OVERRUN, sticky: a consumed bit lay beyond the buffer. -/
  overrun : Bool
  /-- ERR_CAUSE. -/
  errCause : ErrCause
  /-- ERR_TABLE. -/
  errTable : ErrTable
  /-- ERR_POS. -/
  errPos : BitVec 35
  /-- ACC, the encoder's bit accumulator. -/
  acc : BitVec 64
  /-- ACC_CNT, bits pending in ACC. -/
  accCnt : BitVec 6
  /-- OUT_LEN, bytes written to the encoder output. -/
  outLen : BitVec 32
  /-- EBUF, the AC codes buffered for the current block. -/
  ebuf : Vector Code 64
  /-- NBUF, the number of valid EBUF entries. -/
  nbuf : BitVec 7
  /-- BUF, the input buffer's bytes (10_state R30(a)). -/
  buf : Memory
  /-- OUT, the encoder output's bytes (10_state R30(c)). -/
  out : Memory
  /-- The registries with their lookup memories, and OUT_MAX_BYTES: read-only (10_state R29, R32; assumption log 5). -/
  build : Build
  /-- The host's commands not yet taken, oldest first (the model's own; 40_host_interface R120, assumption log 1). -/
  port : List HostCommand
  /-- The last response returned (the model's own; 40_host_interface R122, assumption log 10). -/
  resp : Option Response
deriving DecidableEq, Repr

/-- The machine's stops with a fault. The spec's own errors are no stops: they are states (60_exceptions R320). -/
inductive Fault where
  /-- Raised by PULL in a decode frame whose PHASE is COLLECT, and by PUSH_CODE and PUSH_EOB in an encode frame whose
  PHASE is AT_INS, AC1, AC2, AC3 or BLOCK_END: 10_state R22 gives these phases to the other mode and no rule covers
  them. No run from reset reaches one. Safe (assumption log 13). -/
  | phaseNotOfMode
deriving DecidableEq, Repr

/-- The machine's refusals. -/
inductive Refusal where
  /-- Raised by no meaning: an instruction without one. -/
  | notModelled (mnemonic : String)
  /-- Raised by an element's meaning outside the phase of its class (10_state R22; 30_encoding R94). PULL runs an
  element only in that phase, so no run from reset reaches it. Safe (assumption log 7). -/
  | elementOutOfPhase
  /-- Raised where a host command stands for a syntax element; no step asks for it. Safe (assumption log 7). -/
  | notAnElement
  /-- Raised by a step whose port entry is no command: a START_DECODE whose buffer is not len bytes. Safe (assumption
  log 4). -/
  | undecodableCommand
deriving DecidableEq, Repr

/-- Every register of 10_state R20 at its reset value (70_reset R345), no buffer bound, over given parameters, output
bytes and pending commands. -/
def State.resetWith (build : Build) (out : Memory) (port : List HostCommand) (resp : Option Response) : State where
  mode := .decode
  phase := .idle
  sel := 0
  qscale := 0
  mbCount := 0
  len := 0
  front := 0
  mid := 0
  back := 0
  rem := 0
  p := 0
  predCr := 0
  predCb := 0
  predY1 := 0
  predY3 := 0
  cnt1 := 0
  cnt2 := 0
  cnt3 := 0
  mbIdx := 0
  blk := .cr
  codeIdx := 0
  quota := 0
  overrun := false
  errCause := .none
  errTable := .none
  errPos := 0
  acc := 0
  accCnt := 0
  outLen := 0
  ebuf := Vector.replicate 64 0
  nbuf := 0
  buf := []
  out := out
  build := build
  port := port
  resp := resp

/-- The machine at power-on (70_reset R345, R346): every register at its reset value, no output byte, the built
block's parameters, no command offered and none answered. -/
def State.reset : State := State.resetWith Config.board.build [] [] none

end Sys2Proof.Machine
end

