-- ==== Sys2Proof/Machine/Flags.lean ====
section
/-! DEFINITION. The codes of the enumerated fields, the status flags and the register words that READ_REG returns
(10_state R22, R24, R25, R26; 40_host_interface R122; 60_exceptions R316), and the positions POS and WPOS. -/

namespace Sys2Proof.Machine

/-! ### The codes of the enumerated fields -/

/-- MODE's bit (10_state R20). -/
def Mode.code : Mode → BitVec 1
  | .decode => 0
  | .encode => 1

/-- PHASE's value (10_state R22). -/
def Phase.code : Phase → BitVec 4
  | .idle => 0
  | .atDc => 1
  | .atIns => 2
  | .ac1 => 3
  | .ac2 => 4
  | .ac3 => 5
  | .blockEnd => 6
  | .done => 7
  | .error => 8
  | .collect => 9

/-- BLK's value (45_decoder R219). -/
def Block.code : Block → BitVec 3
  | .cr => 0
  | .cb => 1
  | .y1 => 2
  | .y2 => 3
  | .y3 => 4
  | .y4 => 5

/-- ERR_CAUSE's value (60_exceptions R316). -/
def ErrCause.code : ErrCause → BitVec 4
  | .none => 0
  | .readCorruption => 1
  | .endOfStream => 2
  | .encNoInstruction => 3
  | .encProtocol => 4
  | .encBlockOverflow => 5
  | .encOutputOverflow => 6

/-- ERR_TABLE's value (10_state R25). -/
def ErrTable.code : ErrTable → BitVec 3
  | .none => 0
  | .dc => 1
  | .ins => 2
  | .ac1 => 3
  | .ac2 => 4
  | .ac3 => 5

/-- A response tag's value (40_host_interface R122). -/
def Tag.code : Tag → BitVec 3
  | .codeDc => 0
  | .codeAc => 1
  | .eob => 2
  | .frameDone => 3
  | .error => 4
  | .notStarted => 5
  | .ok => 6
  | .illegalCommand => 7

/-- A flag as a bit. -/
def flagBit (b : Bool) : BitVec 1 := BitVec.ofBool b

/-! ### Positions -/

/-- POS = 8·P + 32 − REM, as an exact integer (10_state R23, 47_bit_cursor R287). -/
def State.pos (s : State) : Int := 8 * (s.p : Int) + 32 - s.rem.toInt

/-- POS as the 35-bit value that ERR_POS records (00_scope R8 POS_W). -/
def State.posBits (s : State) : BitVec 35 := BitVec.ofInt 35 s.pos

/-- WPOS = 8·OUT_LEN + ACC_CNT, the encode-mode position (48_bit_accumulator R300, 10_state R23). -/
def State.wpos (s : State) : Nat := 8 * s.outLen.toNat + s.accCnt.toNat

/-- WPOS as the 35-bit value that ERR_POS records. -/
def State.wposBits (s : State) : BitVec 35 := BitVec.ofNat 35 s.wpos

/-! ### The flags -/

/-- OVERRUN after a consume that ends at bit position `pos` of a buffer of `len` bytes: sticky, set when POS > 8·LEN
(47_bit_cursor R288). -/
def overrunAfter (old : Bool) (pos : Int) (len : BitVec 24) : Bool := old || decide (pos > 8 * (len.toNat : Int))

/-! ### Responses -/

/-- A response with no data (40_host_interface R122). -/
def plainResponse (t : Tag) : Response := ⟨t, 0⟩

/-- A response whose data is a code in bits 15:0 (40_host_interface R122). -/
def codeResponse (t : Tag) (c : Code) : Response := ⟨t, c.setWidth 64⟩

/-- OK with a register value (40_host_interface R122, R123). -/
def okResponse (v : BitVec 64) : Response := ⟨.ok, v⟩

/-- ERROR: `[3:0]` ERR_CAUSE, `[6:4]` ERR_TABLE, `[42:8]` ERR_POS (40_host_interface R122). -/
def errorResponse (cause : ErrCause) (table : ErrTable) (pos : BitVec 35) : Response :=
  ⟨.error, cause.code.setWidth 64 ||| table.code.setWidth 64 <<< 4 ||| pos.setWidth 64 <<< 8⟩

/-! ### The register words of READ_REG -/

/-- Register 0x00 STATUS (10_state R26). -/
def statusWord (s : State) : BitVec 64 :=
  s.phase.code.setWidth 64 ||| s.mode.code.setWidth 64 <<< 4 ||| (flagBit s.overrun).setWidth 64 <<< 5 |||
    s.sel.setWidth 64 <<< 6 ||| s.errCause.code.setWidth 64 <<< 8 ||| s.errTable.code.setWidth 64 <<< 12

/-- Register 0x01 POS (10_state R26): the decode or encode position of the frame, and 0 while no frame has been started
since reset (R26's reset column and 70_reset R345; assumption log 9). -/
def posWord (s : State) : BitVec 64 :=
  match s.phase, s.mode with
  | .idle, _ => 0
  | _, .decode => s.posBits.setWidth 64
  | _, .encode => s.wposBits.setWidth 64

/-- Register 0x0C COUNTERS (10_state R26). -/
def countersWord (s : State) : BitVec 64 :=
  s.cnt1.setWidth 64 ||| s.cnt2.setWidth 64 <<< 8 ||| s.cnt3.setWidth 64 <<< 16

/-- Register 0x0D MBCUR (10_state R26). -/
def mbcurWord (s : State) : BitVec 64 :=
  s.mbIdx.setWidth 64 ||| s.blk.code.setWidth 64 <<< 16 ||| s.quota.setWidth 64 <<< 24 ||| s.codeIdx.setWidth 64 <<< 32

/-- Register 0x0E CFG (10_state R26). -/
def cfgWord (s : State) : BitVec 64 :=
  s.qscale.setWidth 64 ||| s.sel.setWidth 64 <<< 8 ||| s.mode.code.setWidth 64 <<< 9 ||| s.mbCount.setWidth 64 <<< 16 |||
    s.len.setWidth 64 <<< 32

/-- EBUF[i]; an index past 63 is asked for in no state that a run reaches and reads 0 (assumption log 16). -/
def ebufAt (s : State) (i : Nat) : Code := s.ebuf[i]?.getD 0

/-- view(n): the value of register number n, for n ≤ 0x52 (10_state R26, 40_host_interface R123). -/
def registerView (s : State) (n : Nat) : BitVec 64 :=
  match n with
  | 0x00 => statusWord s
  | 0x01 => posWord s
  | 0x02 => s.errPos.setWidth 64
  | 0x03 => BitVec.ofNat 64 (s.p % 2 ^ 32)
  | 0x04 => s.rem.setWidth 64
  | 0x05 => s.front.setWidth 64
  | 0x06 => s.mid.setWidth 64
  | 0x07 => s.back.setWidth 64
  | 0x08 => s.predCr.setWidth 64
  | 0x09 => s.predCb.setWidth 64
  | 0x0A => s.predY1.setWidth 64
  | 0x0B => s.predY3.setWidth 64
  | 0x0C => countersWord s
  | 0x0D => mbcurWord s
  | 0x0E => cfgWord s
  | 0x0F => s.acc
  | 0x10 => s.accCnt.setWidth 64
  | 0x11 => s.outLen.setWidth 64
  | 0x12 => s.nbuf.setWidth 64
  | i + 0x13 => (ebufAt s i).setWidth 64

end Sys2Proof.Machine
end

