-- ==== Sys2Proof/Machine/Ops.lean ====
section
/-! DEFINITION. The shared operations: responses, the error entry and what leaves it (60_exceptions R320, R326), the
selected registry, the predictor chain (45_decoder R219), the counters (10_state R28), the block cursor (45_decoder
R225), and the memory accesses (20_memory R62, R63, R72). -/

namespace Sys2Proof.Machine

/-- What a step of a meaning answers. -/
abbrev Result := Host.Outcome State Fault Refusal

/-- An operation that may end its command by a raise (00_scope R12 `raise`): it goes on in a state, or it has raised
and the command ends in that state. -/
inductive Op where
  | done (s : State)
  | raised (s : State)
deriving DecidableEq, Repr

/-- The operation goes on with `f` unless it has raised; a raise undoes nothing (60_exceptions R321). -/
def Op.andThen (o : Op) (f : State → Op) : Op :=
  match o with
  | .done s => f s
  | .raised s => .raised s

/-- The state a command ends in: a raise is no stop of the machine (60_exceptions R320). -/
def Op.state : Op → State
  | .done s => s
  | .raised s => s

/-! ### Responses and the error entry -/

/-- `emit R`: return response R (00_scope R12, 40_host_interface R122). -/
def emit (r : Response) (s : State) : State := { s with resp := some r }

/-- `raise E(table, pos)`, the error entry: record cause, table and position, enter the ERROR phase and return the ERROR
response (60_exceptions R320). -/
def raiseError (cause : ErrCause) (table : ErrTable) (pos : BitVec 35) (s : State) : State :=
  { s with
    errCause := cause
    errTable := table
    errPos := pos
    phase := .error
    resp := some (errorResponse cause table pos) }

/-- The ERROR response of a frame already in error: the recorded cause, table and position (45_decoder R228). -/
def recordedError (s : State) : Response := errorResponse s.errCause s.errTable s.errPos

/-- What the ways out of ERROR clear: ERR_CAUSE, ERR_TABLE, ERR_POS and OVERRUN (60_exceptions R326). -/
def clearErrors (s : State) : State :=
  { s with errCause := .none, errTable := .none, errPos := 0, overrun := false }

/-! ### Registry, predictors, counters -/

/-- REGISTRY[SEL] (00_scope R6). -/
def State.registry (s : State) : Registry := s.build.registry s.sel

/-- A predictor's value (10_state R27). -/
def State.pred (s : State) : Pred → Word
  | .cr => s.predCr
  | .cb => s.predCb
  | .y1 => s.predY1
  | .y3 => s.predY3

/-- Write one predictor. -/
def setPred (p : Pred) (v : Word) (s : State) : State :=
  match p with
  | .cr => { s with predCr := v }
  | .cb => { s with predCb := v }
  | .y1 => { s with predY1 := v }
  | .y3 => { s with predY3 := v }

/-- All four predictors to 0 (10_state R27, 45_decoder R220). -/
def zeroPreds (s : State) : State := { s with predCr := 0, predCb := 0, predY1 := 0, predY3 := 0 }

/-- The predictor a block reads: the first component of CHAIN[BLK] (45_decoder R219). -/
def chainRead : Block → Pred
  | .cr => .cr
  | .cb => .cb
  | .y1 => .y3
  | .y2 => .y1
  | .y3 => .y1
  | .y4 => .y3

/-- The predictor a block writes, or none: the second component of CHAIN[BLK] (45_decoder R219). -/
def chainWrite : Block → Option Pred
  | .cr => some .cr
  | .cb => some .cb
  | .y1 => some .y1
  | .y2 => none
  | .y3 => some .y3
  | .y4 => none

/-- `if wr != none: PRED[wr] <- dc` (45_decoder R218, 46_encoder R251). -/
def writeChain (dc : Word) (s : State) : State :=
  match chainWrite s.blk with
  | some p => setPred p dc s
  | none => s

/-- A counter's value (10_state R28). -/
def State.cnt (s : State) : Role → BitVec 8
  | .one => s.cnt1
  | .two => s.cnt2
  | .three => s.cnt3

/-- `CNTk <- CNTk − 1` (45_decoder R223). -/
def decCnt (k : Role) (s : State) : State :=
  match k with
  | .one => { s with cnt1 := s.cnt1 - 1 }
  | .two => { s with cnt2 := s.cnt2 - 1 }
  | .three => { s with cnt3 := s.cnt3 - 1 }

/-- The phase ACk of a role (10_state R22). -/
def phaseOfRole : Role → Phase
  | .one => .ac1
  | .two => .ac2
  | .three => .ac3

/-- The ERR_TABLE value of an element class (10_state R25). -/
def tableOfClass : ElementClass → ErrTable
  | .dc => .dc
  | .ins => .ins
  | .ac .one => .ac1
  | .ac .two => .ac2
  | .ac .three => .ac3

/-- normalize() from ACk on: move past spent tables (45_decoder R224). -/
def normalizedFrom (s : State) : Role → Phase
  | .one => if s.cnt1 = 0 then (if s.cnt2 = 0 then (if s.cnt3 = 0 then .blockEnd else .ac3) else .ac2) else .ac1
  | .two => if s.cnt2 = 0 then (if s.cnt3 = 0 then .blockEnd else .ac3) else .ac2
  | .three => if s.cnt3 = 0 then .blockEnd else .ac3

/-- normalize(), the eager move past spent tables (45_decoder R224); other phases stay. -/
def normalize (s : State) : State :=
  match s.phase with
  | .ac1 => { s with phase := normalizedFrom s .one }
  | .ac2 => { s with phase := normalizedFrom s .two }
  | .ac3 => { s with phase := normalizedFrom s .three }
  | .idle => s
  | .atDc => s
  | .atIns => s
  | .blockEnd => s
  | .done => s
  | .error => s
  | .collect => s

/-! ### The block cursor -/

/-- The next block identity in the cyclic order Cr, Cb, Y1, Y2, Y3, Y4 (45_decoder R219, R225). -/
def Block.next : Block → Block
  | .cr => .cb
  | .cb => .y1
  | .y1 => .y2
  | .y2 => .y3
  | .y3 => .y4
  | .y4 => .cr

/-- The block cursor's advance: `if BLK = 5: BLK <- 0; MB_IDX <- MB_IDX + 1 else BLK <- BLK + 1` (45_decoder R225,
46_encoder R253). -/
def advanceBlock (s : State) : State :=
  { s with blk := s.blk.next, mbIdx := if s.blk = .y4 then s.mbIdx + 1 else s.mbIdx }

/-- MB_HEIGHT × 6 = 78 as a QUOTA value (45_decoder R220, R230). -/
def fullQuota : BitVec 7 := BitVec.ofNat 7 Config.columnBlocks

/-- `QUOTA <- MB_HEIGHT * 6` (45_decoder R220). -/
def reloadQuota (s : State) : State := { s with quota := fullQuota }

/-- `PHASE <- ph`. -/
def setPhase (ph : Phase) (s : State) : State := { s with phase := ph }

/-- A block's DC is done: `QUOTA <- QUOTA - 1; CODE_IDX <- 1; PHASE <- ph` (45_decoder R218, 46_encoder R251). -/
def countDc (ph : Phase) (s : State) : State := { s with quota := s.quota - 1, codeIdx := 1, phase := ph }

/-- `CODE_IDX <- CODE_IDX + 1` (45_decoder R223). -/
def countCode (s : State) : State := { s with codeIdx := s.codeIdx + 1 }

/-- `NBUF <- 0` (46_encoder R251, R253). -/
def clearNbuf (s : State) : State := { s with nbuf := 0 }

/-- `CODE_IDX <- 0` (45_decoder R225, 46_encoder R253). -/
def clearCodeIdx (s : State) : State := { s with codeIdx := 0 }

/-! ### Memory accesses -/

/-- Byte(a): BUF[a] for a < LEN, else 0 (20_memory R62). -/
def inputByte (s : State) (a : Nat) : Byte := if a < s.len.toNat then s.buf.read a else 0

/-- Word(a), the little-endian word at byte offset a (20_memory R63). -/
def inputWord (s : State) (a : Nat) : Word :=
  wordOfBytes (inputByte s a) (inputByte s (a + 1)) (inputByte s (a + 2)) (inputByte s (a + 3))

/-- S(k), stream bit k: bit k mod 8 of byte k >> 3 (20_memory R64). -/
def streamBit (s : State) (k : Nat) : Bool := (inputByte s (k / 8)).getLsbD (k % 8)

/-- OUT[a] as the host may read it: only for a < OUT_LEN (20_memory R71, 70_reset R346; assumption log 12). -/
def State.readOut (s : State) (a : Nat) : Option Byte := if a < s.outLen.toNat then some (s.out.read a) else none

/-- The append of a word to OUT, little-endian (20_memory R72). -/
def putWord (w : Word) (s : State) : State :=
  { s with out := s.out.writeWord s.outLen.toNat w, outLen := s.outLen + 4 }

/-- OutWrite(w): raise ENC_OUTPUT_OVERFLOW at position `wpos` when OUT_LEN + 4 > OUT_MAX_BYTES, before anything is
stored; else append the word little-endian (20_memory R72, 48_bit_accumulator R304). `wpos` is WPOS at the command's
start. -/
def outWrite (wpos : BitVec 35) (w : Word) (s : State) : Op :=
  if s.outLen.toNat + 4 > s.build.outMaxBytes then .raised (raiseError .encOutputOverflow .none wpos s)
  else .done (putWord w s)

end Sys2Proof.Machine
end

