-- ==== Sys2Proof/Machine/Commands.lean ====
section
/-! DEFINITION. The commands that are legal in every phase and mode and touch no frame: RESET, READ_REG and the reserved
codes (40_host_interface R123 to R126). -/

namespace Sys2Proof.Machine

/-- RESET: every register at its reset value, the built block's parameters and the bytes of OUT as they were
(40_host_interface R124, 70_reset R346). -/
def execReset (s : State) : Result :=
  .next (State.resetWith s.build s.out s.port (some (plainResponse .ok)))

/-- The first register number that READ_REG refuses (10_state R26, 40_host_interface R126). -/
def registerCount : Nat := 0x53

/-- READ_REG n: OK with the register's value, or ILLEGAL_COMMAND; no register changes (40_host_interface R123, R126). -/
def execReadReg (n : BitVec 8) (s : State) : Result :=
  if n.toNat < registerCount then .next (emit (okResponse (registerView s n.toNat)) s)
  else .next (emit (plainResponse .illegalCommand) s)

/-- A reserved command code: ILLEGAL_COMMAND, no register changes (40_host_interface R125). -/
def execReservedCmd (s : State) : Result := .next (emit (plainResponse .illegalCommand) s)

end Sys2Proof.Machine
end

