-- ==== Sys2Proof/Machine/Accumulator.lean ====
section
/-! DEFINITION. The bit accumulator: write, the word flush, pad_flush (48_bit_accumulator), the writing of an element's
BITS lines, and the encoder's column boundary (46_encoder R251). Every operation takes the position `wpos` that an
ENC_OUTPUT_OVERFLOW of the running command records (60_exceptions R316). -/

namespace Sys2Proof.Machine

/-- `ACC <- ACC | ((v mod 2^n) << ACC_CNT); ACC_CNT <- ACC_CNT + n` (48_bit_accumulator R301). -/
def appendBits (n v : Nat) (s : State) : State :=
  { s with
    acc := s.acc ||| BitVec.ofNat 64 (v % 2 ^ n) <<< s.accCnt.toNat
    accCnt := s.accCnt + BitVec.ofNat 6 n }

/-- `ACC <- ACC >> 32; ACC_CNT <- ACC_CNT − 32` (48_bit_accumulator R301). -/
def dropWord (s : State) : State := { s with acc := s.acc >>> 32, accCnt := s.accCnt - 32 }

/-- `ACC <- 0; ACC_CNT <- 0` (48_bit_accumulator R303). -/
def clearAcc (s : State) : State := { s with acc := 0, accCnt := 0 }

/-- The word flush: while 32 bits or more are pending, OutWrite(ACC[31:0]) and shift them out. ACC_CNT is at most 63,
so it runs at most once (48_bit_accumulator R301, R302). -/
def flushWord (wpos : BitVec 35) (s : State) : Op :=
  if 32 ≤ s.accCnt.toNat then
    (outWrite wpos (s.acc.setWidth 32) s).andThen (fun t => .done (dropWord t))
  else .done s

/-- write(n, v), the append of n bits, 0 ≤ n ≤ 32 (48_bit_accumulator R301). -/
def writeBits (wpos : BitVec 35) (n v : Nat) (s : State) : Op := flushWord wpos (appendBits n v s)

/-- The writes of a list of BITS lines, in order (30_encoding R118). -/
def writeFields (wpos : BitVec 35) (fs : List BitsField) (s : State) : Op :=
  match fs with
  | [] => .done s
  | f :: fs => (writeBits wpos f.1 f.2 s).andThen (writeFields wpos fs)

/-- The writes of one element (42_dc_table R155, 43_instruction_table R172, 44_ac_tables R196). -/
def writeElement (wpos : BitVec 35) (i : Instr) (s : State) : Op := writeFields wpos (encodeElement s.registry i) s

/-- pad_flush(): output the pending bits, zero-padded to a word, if there are any (48_bit_accumulator R303). -/
def padFlush (wpos : BitVec 35) (s : State) : Op :=
  (if 0 < s.accCnt.toNat then outWrite wpos (s.acc.setWidth 32) s else .done s).andThen
    (fun t => .done (clearAcc t))

/-- The column boundary of the encoder: zero the predictors, pad_flush, reload the quota (46_encoder R251). -/
def columnFlush (wpos : BitVec 35) (s : State) : Op :=
  (padFlush wpos (zeroPreds s)).andThen (fun t => .done (reloadQuota t))

/-- `if QUOTA = 0` before a block's DC: the column boundary (46_encoder R251). -/
def columnFlushIfDue (wpos : BitVec 35) (s : State) : Op := if s.quota = 0 then columnFlush wpos s else .done s

end Sys2Proof.Machine
end

