-- ==== Sys2Proof/Machine/Cursor.lean ====
section
/-! DEFINITION. The bit cursor: load, consume with refill, realign (47_bit_cursor), and the column reset of the decoder
(45_decoder R220). -/

namespace Sys2Proof.Machine

/-- load(p): FRONT, MID, BACK from the words at p, p + 4, p + 8, REM ← 32 (47_bit_cursor R281). -/
def load (p : Nat) (s : State) : State :=
  { s with
    p := p
    front := inputWord s p
    mid := inputWord s (p + 4)
    back := inputWord s (p + 8)
    rem := 32 }

/-- The shift of consume(n): FRONT takes MID's low n bits above its own, MID and REM lose n bits (47_bit_cursor R283,
R285). Shifts are mathematical (00_scope R10). -/
def shiftWindow (n : Nat) (s : State) : State :=
  { s with
    front := s.front >>> n ||| s.mid <<< (32 - n)
    mid := s.mid >>> n
    rem := s.rem - BitVec.ofNat 7 n }

/-- refill(k), k = −REM: BACK's low k bits complete FRONT, the others become MID, BACK takes the word at P + 12, P
advances by 4 (47_bit_cursor R284). -/
def refill (k : Nat) (s : State) : State :=
  { s with
    front := s.front ||| s.back <<< (32 - k)
    mid := s.back >>> k
    rem := s.rem + 32
    back := inputWord s (s.p + 12)
    p := s.p + 4 }

/-- `if REM < 0: refill(−REM)` (47_bit_cursor R283). -/
def refillIfShort (s : State) : State := if s.rem.toInt < 0 then refill (-s.rem.toInt).toNat s else s

/-- `if POS > 8·LEN: OVERRUN <- 1` (47_bit_cursor R288). -/
def markOverrun (s : State) : State := { s with overrun := overrunAfter s.overrun s.pos s.len }

/-- consume(n), the advance by n bits, 0 ≤ n ≤ 32 (47_bit_cursor R283). -/
def consume (n : Nat) (s : State) : State :=
  if n = 0 then s else markOverrun (refillIfShort (shiftWindow n s))

/-- The word offset of the next column: P when REM = 32, else P + 4 (47_bit_cursor R289, 90_conflicts C6). -/
def realignTarget (s : State) : Nat := if s.rem = 32 then s.p else s.p + 4

/-- realign(): END_OF_STREAM when the next column's first word is not wholly in the buffer, else load it
(47_bit_cursor R289, R290). -/
def realign (s : State) : Op :=
  if realignTarget s + 4 > s.len.toNat then .raised (raiseError .endOfStream .none s.posBits s)
  else .done (load (realignTarget s) s)

/-- columnReset(): zero the predictors, realign, reload the quota (45_decoder R220). -/
def columnReset (s : State) : Op := (realign (zeroPreds s)).andThen (fun t => .done (reloadQuota t))

/-- `if QUOTA = 0: columnReset()` (45_decoder R218). -/
def columnResetIfDue (s : State) : Op := if s.quota = 0 then columnReset s else .done s

end Sys2Proof.Machine
end

