-- ==== Sys2Proof/Machine/DcTable.lean ====
section
/-! DEFINITION. The DC elements: DC_ESC and DC_VLC, with the part of step AT_DC that follows the decode (42_dc_table
R151, R152, R154; 45_decoder R218). -/

namespace Sys2Proof.Machine

/-- The decoder stands where an element of the class comes next: the class's phase of a decode frame, with a block left
in the column for a DC and a code left in the table for an AC (10_state R22, 45_decoder R218 and R223; assumption log
7). -/
def accepts (cls : ElementClass) (s : State) : Bool :=
  decide (s.mode = .decode) && match cls with
  | .dc => decide (s.phase = .atDc) && decide (s.quota ≠ 0)
  | .ins => decide (s.phase = .atIns)
  | .ac k => decide (s.phase = phaseOfRole k) && decide (s.cnt k ≠ 0)

/-- Step AT_DC after the decode of (dc, n): write the chain's predictor, consume n bits, count the block off the
column, move to AT_INS and return CODE_DC (45_decoder R218). -/
def dcStep (dc : Word) (n : Nat) (s : State) : State :=
  let t := consume n (writeChain dc s)
  emit (codeResponse .codeDc (dcCode t.qscale dc)) (countDc .atIns t)

/-- DC_ESC, the absolute DC: dc = sext_10(v10), n = e + 10 (42_dc_table R151). -/
def execDcEsc (v10 : BitVec 10) (s : State) : Result :=
  if accepts .dc s then .next (dcStep (dcOfField v10) (s.registry.escDc.len + 10) s) else .refused .elementOutOfPhase

/-- DC_VLC, the delta DC: dc = wrap32(prev + delta), n = L (42_dc_table R152). -/
def execDcVlc (entry : Entry Int) (s : State) : Result :=
  if accepts .dc s then .next (dcStep (dcVlcValue entry (s.pred (chainRead s.blk))) entry.len s)
  else .refused .elementOutOfPhase

end Sys2Proof.Machine
end

