-- ==== Sys2Proof/Machine/AcTables.lean ====
section
/-! DEFINITION. The AC elements: ACk_ESC1, ACk_ESC2 and ACk_VLC for the three roles, with the part of step ACk that
follows the decode (44_ac_tables R186 to R194; 45_decoder R223). -/

namespace Sys2Proof.Machine

/-- Step ACk after the decode of (code, n): consume n bits, count the code off table k and into the block, move past
spent tables and return CODE_AC (45_decoder R223). -/
def acStep (k : Role) (code : Code) (n : Nat) (s : State) : State :=
  emit (codeResponse .codeAc code) (normalize (countCode (decCnt k (consume n s))))

/-- Run an AC element of role k in the state where its class comes next. -/
def runAc (k : Role) (code : Code) (n : Nat) (s : State) : Result :=
  if accepts (.ac k) s then .next (acStep k code n s) else .refused .elementOutOfPhase

/-- AC1_ESC1: run forced 0, 7-bit signed level, n = e + 7 (44_ac_tables R186). -/
def execAc1Esc1 (level7 : BitVec 7) (s : State) : Result :=
  runAc .one (ac1Esc1Code level7) (s.registry.ac1.esc1.len + 7) s

/-- AC1_ESC2: the raw 16-bit code, n = e + 16 (44_ac_tables R187). -/
def execAc1Esc2 (raw16 : BitVec 16) (s : State) : Result := runAc .one raw16 (s.registry.ac1.esc2.len + 16) s

/-- AC1_VLC: the entry's code, n = L (44_ac_tables R188). -/
def execAc1Vlc (entry : Entry Nat) (s : State) : Result := runAc .one (codeOfPayload entry.payload) entry.len s

/-- AC2_ESC1: 3-bit run, 5-bit signed level, n = e + 8 (44_ac_tables R189). -/
def execAc2Esc1 (run3 : BitVec 3) (level5 : BitVec 5) (s : State) : Result :=
  runAc .two (ac2Esc1Code run3 level5) (s.registry.ac2.esc1.len + 8) s

/-- AC2_ESC2: the raw 16-bit code, n = e + 16 (44_ac_tables R190). -/
def execAc2Esc2 (raw16 : BitVec 16) (s : State) : Result := runAc .two raw16 (s.registry.ac2.esc2.len + 16) s

/-- AC2_VLC: the entry's code, n = L (44_ac_tables R191). -/
def execAc2Vlc (entry : Entry Nat) (s : State) : Result := runAc .two (codeOfPayload entry.payload) entry.len s

/-- AC3_ESC1: 4-bit run, 4-bit signed level, n = e + 8 (44_ac_tables R192). -/
def execAc3Esc1 (run4 : BitVec 4) (level4 : BitVec 4) (s : State) : Result :=
  runAc .three (ac3Esc1Code run4 level4) (s.registry.ac3.esc1.len + 8) s

/-- AC3_ESC2: the raw 16-bit code, n = e + 16 (44_ac_tables R193). -/
def execAc3Esc2 (raw16 : BitVec 16) (s : State) : Result := runAc .three raw16 (s.registry.ac3.esc2.len + 16) s

/-- AC3_VLC: the entry's code, n = L (44_ac_tables R194). -/
def execAc3Vlc (entry : Entry Nat) (s : State) : Result := runAc .three (codeOfPayload entry.payload) entry.len s

end Sys2Proof.Machine
end

