-- ==== Sys2Proof/Machine/InsTable.lean ====
section
/-! DEFINITION. The instruction element INS_VLC, with the part of step AT_INS that loads the counters (43_instruction_table
R170; 45_decoder R222). -/

namespace Sys2Proof.Machine

/-- `CNT1 <- c1; CNT2 <- c2; CNT3 <- c3` (43_instruction_table R170). -/
def loadCounts (c : Counts) (s : State) : State :=
  { s with cnt1 := countOfPayload c.c1, cnt2 := countOfPayload c.c2, cnt3 := countOfPayload c.c3 }

/-- Step AT_INS up to normalize(): consume L, load the counters, move to AC1 and past spent tables (45_decoder R222). -/
def insStep (c : Counts) (n : Nat) (s : State) : State :=
  normalize (setPhase .ac1 (loadCounts c (consume n s)))

/-- INS_VLC, the instruction code (43_instruction_table R170). It returns no response of its own: the PULL that runs it
goes on with the block's first AC element or its end (45_decoder R222). -/
def execInsVlc (entry : Entry Counts) (s : State) : Result :=
  if accepts .ins s then .next (insStep entry.payload entry.len s) else .refused .elementOutOfPhase

end Sys2Proof.Machine
end

