-- ==== Sys2Proof/Machine/Decoder.lean ====
section
/-! DEFINITION. The decoder's commands: START_DECODE (45_decoder R216) and PULL with the steps of its phase machine
(45_decoder R217 to R229). -/

namespace Sys2Proof.Machine

/-! ### START_DECODE -/

/-- The frame registers that both STARTs set: MODE, SEL, QSCALE, MB_COUNT, the error fields and OVERRUN cleared, the
predictors 0, the block cursor at 0, QUOTA 78 (70_reset R347). -/
def startFrame (mode : Mode) (sel : BitVec 1) (qscale : BitVec 6) (mbCount : BitVec 16) (s : State) : State :=
  { zeroPreds (clearErrors s) with
    mode := mode
    sel := sel
    qscale := qscale
    mbCount := mbCount
    mbIdx := 0
    blk := .cr
    codeIdx := 0
    quota := fullQuota }

/-- `if MB_COUNT = 0: PHASE <- DONE else PHASE <- AT_DC` (45_decoder R216, 46_encoder R250). -/
def openFrame (s : State) : State := setPhase (if s.mbCount = 0 then .done else .atDc) s

/-- The part of START_DECODE before its only check: the frame registers, LEN and BUF, the counters 0, load(0)
(45_decoder R216). -/
def bindBuffer (len : BitVec 24) (buf : List Byte) (s : State) : State :=
  load 0 { s with len := len, buf := memoryOfBytes 0 buf, cnt1 := 0, cnt2 := 0, cnt3 := 0 }

/-- START_DECODE sel, qscale, mb_count, BUF, len (45_decoder R216). -/
def execStartDecode (sel : BitVec 1) (qscale : BitVec 6) (mbCount : BitVec 16) (len : BitVec 24) (buf : List Byte)
    (s : State) : Result :=
  let t := bindBuffer len buf (startFrame .decode sel qscale mbCount s)
  if t.len.toNat < Config.minFrameBytes then .next (raiseError .endOfStream .none 0 t)
  else .next (emit (plainResponse .ok) (openFrame t))

/-! ### PULL -/

/-- The meaning of a fetched syntax element; a host command is none. -/
def execElement (i : Instr) (s : State) : Result :=
  match i with
  | .dcEsc v10 => execDcEsc v10 s
  | .dcVlc entry => execDcVlc entry s
  | .insVlc entry => execInsVlc entry s
  | .ac1Esc1 level7 => execAc1Esc1 level7 s
  | .ac1Esc2 raw16 => execAc1Esc2 raw16 s
  | .ac1Vlc entry => execAc1Vlc entry s
  | .ac2Esc1 run3 level5 => execAc2Esc1 run3 level5 s
  | .ac2Esc2 raw16 => execAc2Esc2 raw16 s
  | .ac2Vlc entry => execAc2Vlc entry s
  | .ac3Esc1 run4 level4 => execAc3Esc1 run4 level4 s
  | .ac3Esc2 raw16 => execAc3Esc2 raw16 s
  | .ac3Vlc entry => execAc3Vlc entry s
  | .reset => .refused .notAnElement
  | .startDecode _ _ _ _ _ => .refused .notAnElement
  | .pull => .refused .notAnElement
  | .startEncode _ _ _ => .refused .notAnElement
  | .pushCode _ => .refused .notAnElement
  | .pushEob => .refused .notAnElement
  | .readReg _ => .refused .notAnElement
  | .reservedCmd _ => .refused .notAnElement

/-- Fetch the element at POS in the class that comes next and run it; a window that begins with none raises
READ_CORRUPTION at POS, with nothing consumed (42_dc_table R153, 43_instruction_table R171, 44_ac_tables R195,
60_exceptions R317). -/
def runElement (cls : ElementClass) (s : State) : Result :=
  match decodeElement s.registry cls s.front with
  | none => .next (raiseError .readCorruption (tableOfClass cls) s.posBits s)
  | some i => execElement i s

/-- Step BLOCK_END: CODE_IDX ← 0, advance the block cursor, DONE after the last macroblock, return EOB (45_decoder
R225). -/
def blockEndStep (s : State) : State :=
  let t := advanceBlock (clearCodeIdx s)
  emit (plainResponse .eob) (setPhase (if t.mbIdx = t.mbCount then .done else .atDc) t)

/-- Step AT_DC: the column reset when the quota is exhausted, then the DC element (45_decoder R218). -/
def pullDc (s : State) : Result :=
  match columnResetIfDue s with
  | .raised t => .next t
  | .done t => runElement .dc t

/-- The rest of the PULL that decoded an instruction code: the block's end, or its first AC element (45_decoder R222). -/
def afterIns (s : State) : Result :=
  match s.phase with
  | .blockEnd => .next (blockEndStep s)
  | .ac1 => runElement (.ac .one) s
  | .ac2 => runElement (.ac .two) s
  | .ac3 => runElement (.ac .three) s
  | .idle => .next s
  | .atDc => .next s
  | .atIns => .next s
  | .done => .next s
  | .error => .next s
  | .collect => .next s

/-- Step AT_INS: the instruction code, then in the same PULL the first AC element or the block's end; a miss ends the
PULL (45_decoder R222). -/
def pullIns (s : State) : Result :=
  match runElement .ins s with
  | .next t => afterIns t
  | .fault r => .fault r
  | .refused r => .refused r

/-- PULL (45_decoder R217). -/
def execPull (s : State) : Result :=
  if s.mode = .encode then .next (emit (plainResponse .notStarted) s)
  else match s.phase with
  | .idle => .next (emit (plainResponse .notStarted) s)
  | .done => .next (emit (plainResponse .frameDone) s)
  | .error => .next (emit (recordedError s) s)
  | .atDc => pullDc s
  | .atIns => pullIns s
  | .ac1 => runElement (.ac .one) s
  | .ac2 => runElement (.ac .two) s
  | .ac3 => runElement (.ac .three) s
  | .blockEnd => .next (blockEndStep s)
  | .collect => .fault .phaseNotOfMode

end Sys2Proof.Machine
end

