-- ==== Sys2Proof/Machine/Encoder.lean ====
section
/-! DEFINITION. The encoder's commands: START_ENCODE, PUSH_CODE and PUSH_EOB (46_encoder R250 to R256). -/

namespace Sys2Proof.Machine

/-! ### START_ENCODE -/

/-- The encoder's own registers at a frame start: accumulator, output and block buffer empty (46_encoder R250, 20_memory
R71). -/
def emptyOutput (s : State) : State :=
  { s with acc := 0, accCnt := 0, outLen := 0, out := [], nbuf := 0, ebuf := Vector.replicate 64 0 }

/-- START_ENCODE sel, qscale, mb_count (46_encoder R250). -/
def execStartEncode (sel : BitVec 1) (qscale : BitVec 6) (mbCount : BitVec 16) (s : State) : Result :=
  .next (emit (plainResponse .ok) (openFrame (emptyOutput (startFrame .encode sel qscale mbCount s))))

/-! ### PUSH_CODE -/

/-- The DC of a pushed code: sext_10 of bits 9:0; bits 15:10 are ignored (46_encoder R251). -/
def pushedDc (code : Code) : Word := (codeLevel code).signExtend 32

/-- dcEncode(dc, PRED[rd]): write the element the encoder chooses (42_dc_table R155). -/
def writeDc (wpos : BitVec 35) (dc : Word) (s : State) : Op :=
  writeElement wpos (chooseDc s.registry dc (s.pred (chainRead s.blk))) s

/-- What PUSH_CODE of a DC does after its writes (46_encoder R251). -/
def dcPushed (dc : Word) (s : State) : State :=
  clearNbuf (countDc .collect (writeChain dc s))

/-- PUSH_CODE in AT_DC: the column boundary when the quota is exhausted, then the block's DC (46_encoder R251). -/
def pushDc (code : Code) (s : State) : Op :=
  (columnFlushIfDue s.wposBits s).andThen fun t =>
    (writeDc s.wposBits (pushedDc code) t).andThen fun u =>
      .done (emit (plainResponse .ok) (dcPushed (pushedDc code) u))

/-- PUSH_CODE in COLLECT: buffer one AC code, or ENC_BLOCK_OVERFLOW when 64 are buffered (46_encoder R252). -/
def pushAc (code : Code) (s : State) : State :=
  if h : s.nbuf.toNat < 64 then
    emit (plainResponse .ok) (countCode { s with ebuf := s.ebuf.set s.nbuf.toNat code h, nbuf := s.nbuf + 1 })
  else raiseError .encBlockOverflow .none s.wposBits s

/-- PUSH_CODE code (46_encoder R251, R252, R256). -/
def execPushCode (code : BitVec 16) (s : State) : Result :=
  if s.mode = .decode then .next (emit (plainResponse .notStarted) s)
  else match s.phase with
  | .idle => .next (emit (plainResponse .notStarted) s)
  | .done => .next (emit (plainResponse .frameDone) s)
  | .error => .next (emit (recordedError s) s)
  | .atDc => .next (pushDc code s).state
  | .collect => .next (pushAc code s)
  | .atIns => .fault .phaseNotOfMode
  | .ac1 => .fault .phaseNotOfMode
  | .ac2 => .fault .phaseNotOfMode
  | .ac3 => .fault .phaseNotOfMode
  | .blockEnd => .fault .phaseNotOfMode

/-! ### PUSH_EOB -/

/-- `repeat ck times: acEncode(k, EBUF[i]); i <- i + 1` (46_encoder R254). -/
def writeAcs (wpos : BitVec 35) (k : Role) (i : Nat) (count : Nat) (s : State) : Op :=
  match count with
  | 0 => .done s
  | n + 1 => (writeElement wpos (chooseAc s.registry k (ebufAt s i)) s).andThen (writeAcs wpos k (i + 1) n)

/-- splitEncode(c1, c2, c3): the buffered codes in push order, the first c1 in role 1, the next c2 in role 2, the last
c3 in role 3 (46_encoder R254). -/
def splitEncode (wpos : BitVec 35) (c : Counts) (s : State) : Op :=
  ((writeAcs wpos .one 0 c.c1 s).andThen (writeAcs wpos .two c.c1 c.c2)).andThen
    (writeAcs wpos .three (c.c1 + c.c2) c.c3)

/-- The end of an encoded block: the block cursor advances; after the frame's last block the accumulator is pad-flushed
and the frame is DONE (46_encoder R253, R255). -/
def endBlock (wpos : BitVec 35) (s : State) : Op :=
  let t := advanceBlock (clearCodeIdx (clearNbuf s))
  if t.mbIdx = t.mbCount then (padFlush wpos t).andThen (fun u => .done (setPhase .done u))
  else .done (setPhase .atDc t)

/-- PUSH_EOB in COLLECT: the instruction for the number of buffered codes, or ENC_NO_INSTRUCTION before anything is
written; then the codes; then the block's end (46_encoder R253, 43_instruction_table R172). -/
def pushEobCollect (s : State) : Op :=
  match chooseIns s.registry s.nbuf.toNat with
  | none => .raised (raiseError .encNoInstruction .ins s.wposBits s)
  | some e =>
    (((writeElement s.wposBits (.insVlc e) s).andThen (splitEncode s.wposBits e.payload)).andThen
      (endBlock s.wposBits)).andThen (fun t => .done (emit (plainResponse .ok) t))

/-- PUSH_EOB (46_encoder R253, R256). -/
def execPushEob (s : State) : Result :=
  if s.mode = .decode then .next (emit (plainResponse .notStarted) s)
  else match s.phase with
  | .idle => .next (emit (plainResponse .notStarted) s)
  | .done => .next (emit (plainResponse .frameDone) s)
  | .error => .next (emit (recordedError s) s)
  | .atDc => .next (raiseError .encProtocol .none s.wposBits s)
  | .collect => .next (pushEobCollect s).state
  | .atIns => .fault .phaseNotOfMode
  | .ac1 => .fault .phaseNotOfMode
  | .ac2 => .fault .phaseNotOfMode
  | .ac3 => .fault .phaseNotOfMode
  | .blockEnd => .fault .phaseNotOfMode

end Sys2Proof.Machine
end

