-- ==== Sys2Proof/Machine/Dispatch.lean ====
section
/-! DEFINITION. One meaning per instruction. -/

namespace Sys2Proof.Machine

def exec (i : Instr) (s : State) : Host.Outcome State Fault Refusal :=
  match i with
  | .dcEsc v10 => Sys2Proof.Machine.execDcEsc v10 s
  | .dcVlc entry => Sys2Proof.Machine.execDcVlc entry s
  | .insVlc entry => Sys2Proof.Machine.execInsVlc entry s
  | .ac1Esc1 level7 => Sys2Proof.Machine.execAc1Esc1 level7 s
  | .ac1Esc2 raw16 => Sys2Proof.Machine.execAc1Esc2 raw16 s
  | .ac1Vlc entry => Sys2Proof.Machine.execAc1Vlc entry s
  | .ac2Esc1 run3 level5 => Sys2Proof.Machine.execAc2Esc1 run3 level5 s
  | .ac2Esc2 raw16 => Sys2Proof.Machine.execAc2Esc2 raw16 s
  | .ac2Vlc entry => Sys2Proof.Machine.execAc2Vlc entry s
  | .ac3Esc1 run4 level4 => Sys2Proof.Machine.execAc3Esc1 run4 level4 s
  | .ac3Esc2 raw16 => Sys2Proof.Machine.execAc3Esc2 raw16 s
  | .ac3Vlc entry => Sys2Proof.Machine.execAc3Vlc entry s
  | .reset => Sys2Proof.Machine.execReset s
  | .startDecode sel qscale mbCount len buf => Sys2Proof.Machine.execStartDecode sel qscale mbCount len buf s
  | .pull => Sys2Proof.Machine.execPull s
  | .startEncode sel qscale mbCount => Sys2Proof.Machine.execStartEncode sel qscale mbCount s
  | .pushCode code => Sys2Proof.Machine.execPushCode code s
  | .pushEob => Sys2Proof.Machine.execPushEob s
  | .readReg n => Sys2Proof.Machine.execReadReg n s
  | .reservedCmd _ => Sys2Proof.Machine.execReservedCmd s

end Sys2Proof.Machine
end

