-- ==== Sys2Proof/Machine/Step.lean ====
section
/-! DEFINITION. One step of the block: the host's next command, taken whole (40_host_interface R120, 70_reset R359). -/

namespace Sys2Proof.Machine

/-- One step: take the oldest pending command, decode it and run it. With no command pending the state stays as it is
(70_reset R350). A port entry that is no command is refused (assumption log 4). -/
def step (s : State) : Host.Outcome State Fault Refusal :=
  match s.port with
  | [] => .next s
  | c :: rest =>
    match decodeCommand c with
    | .ok i => exec i { s with port := rest }
    | .error _ => .refused .undecodableCommand

/-- The same state with the command of a word of `nbits` bits offered as the next one (assumption log 3). -/
def State.withFetchWord (s : State) (nbits w : Nat) : State :=
  { s with port := hostCommandOfWord (w % 2 ^ nbits) :: s.port }

end Sys2Proof.Machine
end

