-- ==== Sys2Proof/Safety.lean ====
section
/-! DEFINITION. The terms in which claims about runs are stated: the invariant of the block, the window invariant
(47_bit_cursor R287), the column count (45_decoder R226, R230), the code count (45_decoder R233) and the written stream
of the encoder (48_bit_accumulator R300 to R302). -/

namespace Sys2Proof.Machine

/-- Which phases a mode holds (10_state R22 "used in mode"); IDLE is held with MODE 0 only, since RESET clears MODE and
every START leaves IDLE (40_host_interface R127). -/
def phaseOfMode : Mode → Phase → Bool
  | .decode, .idle => true
  | .decode, .atDc => true
  | .decode, .atIns => true
  | .decode, .ac1 => true
  | .decode, .ac2 => true
  | .decode, .ac3 => true
  | .decode, .blockEnd => true
  | .decode, .done => true
  | .decode, .error => true
  | .decode, .collect => false
  | .encode, .idle => false
  | .encode, .atDc => true
  | .encode, .atIns => false
  | .encode, .ac1 => false
  | .encode, .ac2 => false
  | .encode, .ac3 => false
  | .encode, .blockEnd => false
  | .encode, .done => true
  | .encode, .error => true
  | .encode, .collect => true

/-- A frame is in progress: its macroblocks are not complete and no error has aborted it (45_decoder R215). -/
def Phase.active : Phase → Bool
  | .idle => false
  | .atDc => true
  | .atIns => true
  | .ac1 => true
  | .ac2 => true
  | .ac3 => true
  | .blockEnd => true
  | .done => false
  | .error => false
  | .collect => true

/-- The block's invariant: the ranges of 10_state R20 and R22 that the field types do not give, the well-formed build,
and the canonical memories. -/
structure State.Inv (s : State) : Prop where
  /-- The registries are admitted (41_prefix_lookup R136). -/
  build_wf : s.build.wf = true
  /-- REM lies in 0..32 between commands (47_bit_cursor R286). -/
  rem_le : s.rem.toNat ≤ 32
  /-- P is a multiple of 4 (20_memory R66). -/
  p_aligned : s.p % 4 = 0
  /-- 0 ≤ QUOTA ≤ 78 (45_decoder R230). -/
  quota_le : s.quota.toNat ≤ 78
  /-- The phase is one of the mode's (10_state R22). -/
  phase_mode : phaseOfMode s.mode s.phase = true
  /-- PHASE = ACk implies CNTk > 0 (10_state R22). -/
  counter_pos : ∀ k : Role, s.phase = phaseOfRole k → s.cnt k ≠ 0
  /-- MB_IDX ≤ MB_COUNT (45_decoder R225). -/
  mb_le : s.mbIdx.toNat ≤ s.mbCount.toNat
  /-- A frame in progress has macroblocks left (45_decoder R225). -/
  mb_lt : s.phase.active = true → s.mbIdx.toNat < s.mbCount.toNat
  /-- ERR_CAUSE is nonzero exactly in the ERROR phase (10_state R24, 60_exceptions R320, R326). -/
  error_iff : s.errCause = .none ↔ s.phase ≠ .error
  /-- NBUF ≤ 64 (10_state R20). -/
  nbuf_le : s.nbuf.toNat ≤ 64
  /-- ACC's bits above the pending ones are 0 (48_bit_accumulator R300). -/
  acc_lt : s.acc.toNat < 2 ^ s.accCnt.toNat
  /-- Between an encode frame's commands fewer than 32 bits are pending (48_bit_accumulator R300); an output overflow
  may leave more (R304). -/
  acc_cnt : s.mode = .encode → s.phase ≠ .error → s.accCnt.toNat ≤ 31
  /-- OUT_LEN is a multiple of 4 (48_bit_accumulator R305). -/
  outLen_aligned : s.outLen.toNat % 4 = 0
  /-- OUT_LEN stays within the output capacity (20_memory R72). -/
  outLen_le : s.outLen.toNat ≤ s.build.outMaxBytes
  /-- BUF is in canonical form. -/
  buf_wf : s.buf.wf = true
  /-- OUT is in canonical form. -/
  out_wf : s.out.wf = true

/-- POS as a natural number where REM lies in 0..32 (10_state R23). -/
def State.posNat (s : State) : Nat := 8 * s.p + 32 - s.rem.toNat

/-- The window invariant: FRONT is the 32 stream bits at POS, MID's low REM bits are the next REM stream bits and its
other bits are 0, BACK is the word at P + 8 (47_bit_cursor R280, R287). -/
structure State.Window (s : State) : Prop where
  /-- REM lies in 0..32. -/
  rem_le : s.rem.toNat ≤ 32
  /-- FRONT holds stream bits POS to POS + 31. -/
  front_bits : ∀ i, i < 32 → s.front.getLsbD i = streamBit s (s.posNat + i)
  /-- MID holds the next REM stream bits. -/
  mid_bits : ∀ i, s.mid.getLsbD i = (decide (i < s.rem.toNat) && streamBit s (s.posNat + 32 + i))
  /-- BACK is the word at P + 8. -/
  back_word : s.back = inputWord s (s.p + 8)

/-- The number of the block the cursor stands at, j = 6·MB_IDX + BLK (45_decoder R226). -/
def State.blockNumber (s : State) : Nat := 6 * s.mbIdx.toNat + s.blk.code.toNat

/-- The quota before block j's DC: full at the frame's start, 0 where a column ended, else what is left of the column
(45_decoder R226, R230). -/
def quotaBefore (j : Nat) : Nat := if j = 0 then 78 else if j % 78 = 0 then 0 else 78 - j % 78

/-- QUOTA counts the blocks of the column (45_decoder R226, R230): before block j's DC it is `quotaBefore j`, after it
one less of a full column's rest; without a frame or after an error nothing is said. -/
def State.QuotaTracks (s : State) : Prop :=
  match s.phase with
  | .idle => True
  | .error => True
  | .atDc => s.quota.toNat = quotaBefore s.blockNumber
  | .done => s.quota.toNat = quotaBefore s.blockNumber
  | .atIns => s.quota.toNat = 77 - s.blockNumber % 78
  | .ac1 => s.quota.toNat = 77 - s.blockNumber % 78
  | .ac2 => s.quota.toNat = 77 - s.blockNumber % 78
  | .ac3 => s.quota.toNat = 77 - s.blockNumber % 78
  | .blockEnd => s.quota.toNat = 77 - s.blockNumber % 78
  | .collect => s.quota.toNat = 77 - s.blockNumber % 78

/-- CODE_IDX counts the codes of the block (45_decoder R233, 46_encoder R251, R252): at most 766, with the codes still to
come within the bound. -/
def State.CodeCount (s : State) : Prop :=
  match s.phase with
  | .idle => s.codeIdx.toNat = 0
  | .atDc => s.codeIdx.toNat = 0
  | .done => s.codeIdx.toNat = 0
  | .atIns => s.codeIdx.toNat = 1
  | .ac1 => s.codeIdx.toNat + s.cnt1.toNat + s.cnt2.toNat + s.cnt3.toNat ≤ 766
  | .ac2 => s.codeIdx.toNat + s.cnt2.toNat + s.cnt3.toNat ≤ 766
  | .ac3 => s.codeIdx.toNat + s.cnt3.toNat ≤ 766
  | .blockEnd => s.codeIdx.toNat ≤ 766
  | .error => s.codeIdx.toNat ≤ 766
  | .collect => s.codeIdx.toNat = s.nbuf.toNat + 1

/-- Bit k of the stream the encoder has written: the bytes of OUT, then the pending bits of ACC (48_bit_accumulator
R300, R302). -/
def State.writtenBit (s : State) (k : Nat) : Bool :=
  if k < 8 * s.outLen.toNat then (s.out.read (k / 8)).getLsbD (k % 8) else s.acc.getLsbD (k - 8 * s.outLen.toNat)

/-- A stream position rounded up to a word boundary: ceil(p / 32) words (48_bit_accumulator R303, 47_bit_cursor R289). -/
def paddedPos (p : Nat) : Nat := 32 * ((p + 31) / 32)

/-- How many bits of the BITS lines are in OUT or ACC when they are written from stream position p to an output of at
most `cap` bytes: all of them, or those up to and with the line whose word OutWrite could not append any more, which stays
in ACC (48_bit_accumulator R301, R304). -/
def appendedBits (cap p : Nat) : List BitsField → Nat
  | [] => 0
  | f :: fs => if cap < 4 * ((p + f.1) / 32) then f.1 else f.1 + appendedBits cap (p + f.1) fs

/-- The BITS lines that codes are written as in a role, in order (44_ac_tables R196). -/
def acFields (r : Registry) (k : Role) (codes : List Code) : List BitsField :=
  codes.flatMap (fun c => encodeElement r (chooseAc r k c))

/-- The BITS lines of a block after its DC: the instruction, then the codes in push order, the first c1 in role 1, the
next c2 in role 2, the rest in role 3 (46_encoder R253, R254). -/
def blockFields (r : Registry) (e : Entry Counts) (codes : List Code) : List BitsField :=
  entryBits e ++ acFields r .one (codes.take e.payload.c1) ++
    acFields r .two ((codes.drop e.payload.c1).take e.payload.c2) ++
    acFields r .three (codes.drop (e.payload.c1 + e.payload.c2))

/-- The AC codes buffered for the block, in push order: EBUF[0..NBUF-1] (46_encoder R252). -/
def State.pushed (s : State) : List Code := (List.range s.nbuf.toNat).map (ebufAt s)

/-! ### What the commands leave, register by register -/

/-- s moved past n stream bits: the cursor's registers and OVERRUN as consume(n) leaves them, all else as in s
(47_bit_cursor R283). -/
def State.advanced (s : State) (n : Nat) : State :=
  { s with
    front := (consume n s).front
    mid := (consume n s).mid
    back := (consume n s).back
    rem := (consume n s).rem
    p := (consume n s).p
    overrun := (consume n s).overrun }

/-- s after the DC of its block, decoded as dc from n bits (45_decoder R218, R219). -/
def State.afterDc (s : State) (dc : Word) (n : Nat) : State :=
  { s.advanced n with
    predCr := if s.blk = .cr then dc else s.predCr
    predCb := if s.blk = .cb then dc else s.predCb
    predY1 := if s.blk = .y1 then dc else s.predY1
    predY3 := if s.blk = .y3 then dc else s.predY3
    quota := s.quota - 1
    codeIdx := 1
    phase := .atIns
    resp := some ⟨.codeDc, (dcCode s.qscale dc).setWidth 64⟩ }

/-- s after the instruction code of its block, decoded from n bits (45_decoder R222, R224). -/
def State.afterIns (s : State) (c : Counts) (n : Nat) : State :=
  { s.advanced n with
    cnt1 := BitVec.ofNat 8 c.c1
    cnt2 := BitVec.ofNat 8 c.c2
    cnt3 := BitVec.ofNat 8 c.c3
    phase := if c.c1 ≠ 0 then .ac1 else if c.c2 ≠ 0 then .ac2 else if c.c3 ≠ 0 then .ac3 else .blockEnd }

/-- s after an AC code of role k, decoded from n bits (45_decoder R223, R224). -/
def State.afterAc (s : State) (k : Role) (code : Code) (n : Nat) : State :=
  match k with
  | .one =>
    { s.advanced n with
      cnt1 := s.cnt1 - 1
      codeIdx := s.codeIdx + 1
      phase := if s.cnt1 ≠ 1 then .ac1 else if s.cnt2 ≠ 0 then .ac2 else if s.cnt3 ≠ 0 then .ac3 else .blockEnd
      resp := some ⟨.codeAc, code.setWidth 64⟩ }
  | .two =>
    { s.advanced n with
      cnt2 := s.cnt2 - 1
      codeIdx := s.codeIdx + 1
      phase := if s.cnt2 ≠ 1 then .ac2 else if s.cnt3 ≠ 0 then .ac3 else .blockEnd
      resp := some ⟨.codeAc, code.setWidth 64⟩ }
  | .three =>
    { s.advanced n with
      cnt3 := s.cnt3 - 1
      codeIdx := s.codeIdx + 1
      phase := if s.cnt3 ≠ 1 then .ac3 else .blockEnd
      resp := some ⟨.codeAc, code.setWidth 64⟩ }

/-- The macroblock index after the block the cursor stands at (45_decoder R225). -/
def State.nextMb (s : State) : BitVec 16 := if s.blk = .y4 then s.mbIdx + 1 else s.mbIdx

/-- s after the end of its block (45_decoder R225). -/
def State.afterBlock (s : State) : State :=
  { s with
    codeIdx := 0
    blk := match s.blk with
      | .cr => .cb
      | .cb => .y1
      | .y1 => .y2
      | .y2 => .y3
      | .y3 => .y4
      | .y4 => .cr
    mbIdx := s.nextMb
    phase := if s.nextMb = s.mbCount then .done else .atDc
    resp := some ⟨.eob, 0⟩ }

/-- s with the four predictors 0 (10_state R27). -/
def State.noPreds (s : State) : State := { s with predCr := 0, predCb := 0, predY1 := 0, predY3 := 0 }

/-- The byte offset of the next column: POS rounded up to a word (47_bit_cursor R289). -/
def State.columnOffset (s : State) : Nat := paddedPos s.posNat / 8

/-- s at the start of the next column (45_decoder R220). -/
def State.atColumn (s : State) : State :=
  { s.noPreds with
    p := s.columnOffset
    front := inputWord s s.columnOffset
    mid := inputWord s (s.columnOffset + 4)
    back := inputWord s (s.columnOffset + 8)
    rem := 32
    quota := 78 }

/-- The state the DC of a pushed block is written from: s, or s with the column boundary's registers (46_encoder
R251). -/
def columnStart (s : State) : State := if s.quota = 0 then reloadQuota (zeroPreds s) else s

/-- The position the DC of a pushed block is written at (46_encoder R251). -/
def columnPos (s : State) : Nat := if s.quota = 0 then paddedPos s.wpos else s.wpos

/-- The BITS lines of a pushed DC (42_dc_table R155, 46_encoder R251). -/
def dcFields (s : State) (code : Code) : List BitsField :=
  encodeElement s.registry
    (chooseDc s.registry (pushedDc code) ((columnStart s).pred (chainRead s.blk)))

/-- The accumulator between an encode frame's commands (48_bit_accumulator R300). -/
structure State.AccOk (s : State) : Prop where
  /-- Fewer than 32 bits are pending. -/
  cnt_le : s.accCnt.toNat ≤ 31
  /-- ACC's other bits are 0. -/
  acc_lt : s.acc.toNat < 2 ^ s.accCnt.toNat

end Sys2Proof.Machine
end

