-- ==== Sys2Proof/Certificates/Slice0/Obligations.lean ====
section
/-! DEFINITION. The statements about the AVLC model, from the numbered rules of spec/. "Changes no state" is said of the
spec's registers: `port` (assumption log 1) and `resp` (assumption log 10) are the model's own fields, and every command
writes its response into `resp`. -/

open Sys2Proof Sys2Proof.Machine

/-! ### The port, the encodings -/

/-- A step takes the oldest pending command whole and runs its decoded instruction; with no command pending nothing
changes (40_host_interface R120, 70_reset R350; the queue is the model's, assumption log 1, and so is the refusal of an
entry that is no command, log 4). -/
def Obligations.StepRunsOfferedCommand : Prop :=
  ∀ s : State,
    (s.port = [] → step s = .next s) ∧
    (∀ c rest i, s.port = c :: rest → decodeCommand c = .ok i → step s = exec i { s with port := rest }) ∧
    (∀ c rest e, s.port = c :: rest → decodeCommand c = .error e → step s = .refused .undecodableCommand)

/-- A PULL in the phase of an element class runs the element the window begins with; in AT_INS it goes on with the first
AC element or the block's end in the same PULL (45_decoder R217, R218, R222, R223; 30_encoding R94; that an element is an
instruction of its own is the model's form, assumption log 7). -/
def Obligations.PullRunsDecodedElement : Prop :=
  ∀ (s : State) (i : Instr), s.mode = .decode →
    (s.phase = .atDc → s.quota ≠ 0 → decodeElement s.registry .dc s.front = some i → exec .pull s = exec i s) ∧
    (∀ k, s.phase = phaseOfRole k → decodeElement s.registry (.ac k) s.front = some i → exec .pull s = exec i s) ∧
    (s.phase = .atIns → decodeElement s.registry .ins s.front = some i →
      ∃ t, exec i s = .next t ∧ exec .pull s = exec .pull t)

/-- Words written out from the tables decode to the instructions they stand for: the command codes of
40_host_interface R121 (packed as assumption log 2 says; that a START_DECODE whose buffer is not len bytes is rejected by
name is the model's choice, assumption log 4), and the windows of the examples of 42_dc_table R151, R152 and
44_ac_tables R186 to R193, in any registry with those escapes. -/
def Obligations.WrittenWordsDecode : Prop :=
  decodeCommand ⟨0x1, 0, []⟩ = .ok .reset ∧
  decodeCommand ⟨0x2, 0x80000C8, [1]⟩ = .error .bufferIsNotLenBytes ∧
  decodeCommand ⟨0x2, 0x180008A, [7, 8, 9]⟩ = .ok (.startDecode 0 5 1 3 [7, 8, 9]) ∧
  decodeCommand ⟨0x3, 0, []⟩ = .ok .pull ∧
  decodeCommand ⟨0x4, 0x8B, []⟩ = .ok (.startEncode 1 5 1) ∧
  decodeCommand ⟨0x5, 0x1401, []⟩ = .ok (.pushCode 0x1401) ∧
  decodeCommand ⟨0x6, 0, []⟩ = .ok .pushEob ∧
  decodeCommand ⟨0x7, 0x0D, []⟩ = .ok (.readReg 0x0D) ∧
  decodeCommand ⟨0x0, 0, []⟩ = .ok (.reservedCmd 0) ∧
  decodeCommand ⟨0xF, 0, []⟩ = .ok (.reservedCmd 0xF) ∧
  (∀ r : Registry, r.escDc = ⟨6, 63⟩ → decodeElement r .dc 0x17F = some (.dcEsc 5)) ∧
  (∀ (r : Registry) (es : List (Entry Int)), r.escDc = ⟨6, 63⟩ → r.dc = ⟨6, ⟨1, 0, 1⟩ :: es⟩ →
    decodeElement r .dc 0 = some (.dcVlc ⟨1, 0, 1⟩)) ∧
  (∀ r : Registry, r.ac1.esc1 = ⟨4, 7⟩ → decodeElement r (.ac .one) 0x7B7 = some (.ac1Esc1 0x7B)) ∧
  (∀ r : Registry, r.ac1.esc1 = ⟨4, 7⟩ → r.ac1.esc2 = ⟨4, 15⟩ →
    decodeElement r (.ac .one) 0x8C05F = some (.ac1Esc2 0x8C05)) ∧
  (∀ r : Registry, r.ac2.esc1 = ⟨4, 7⟩ → decodeElement r (.ac .two) 0xDB7 = some (.ac2Esc1 3 0x1B)) ∧
  (∀ r : Registry, r.ac3.esc1 = ⟨4, 7⟩ → decodeElement r (.ac .three) 0x897 = some (.ac3Esc1 9 8))

/-- Every well-formed host command is read back from its port entry, and every port entry that decodes gives a
well-formed command (40_host_interface R121, R125; the packing of the operands is assumption log 2). -/
def Obligations.CommandDecodeEncode : Prop :=
  (∀ (i : Instr) (c : HostCommand), i.wf = true → encodeCommand i = some c → decodeCommand c = .ok i) ∧
  (∀ (c : HostCommand) (i : Instr), decodeCommand c = .ok i →
    i.wf = true ∧ ∃ c', encodeCommand i = some c' ∧ c'.code = c.code)

/-- In a well-formed registry, a window that begins with the BITS lines of an element of the registry decodes to that
element, whatever follows, and its length is the number of those bits (30_encoding R94, R104, R106, R107, R118). -/
def Obligations.ElementDecodeEncode : Prop :=
  ∀ (r : Registry) (i : Instr) (cls : ElementClass) (F : Word), r.wf = true → i.wfIn r = true →
    i.elementClass = some cls →
    F.toNat % 2 ^ bitsLength (encodeElement r i) = bitsValue (encodeElement r i) →
    decodeElement r cls F = some i ∧ elementLength r i = bitsLength (encodeElement r i)

/-- The other direction: what a window decodes to is an element of the registry and of the class, and the window begins
with its BITS lines: every bit of the element is read (30_encoding R93, R94, R104, R118). -/
def Obligations.DecodedElementIsWritten : Prop :=
  ∀ (r : Registry) (i : Instr) (cls : ElementClass) (F : Word), r.wf = true → decodeElement r cls F = some i →
    i.wfIn r = true ∧ i.elementClass = some cls ∧
      F.toNat % 2 ^ elementLength r i = bitsValue (encodeElement r i)

/-! ### Reset, READ_REG, the error entry, the refused and the terminal commands -/

/-- RESET answers OK and leaves the power-on state, but for the built block and the bytes of OUT, which it keeps
(40_host_interface R124, 70_reset R346; that they become unreadable is assumption log 12), and the pending commands, which
are the model's (assumption log 1). -/
def Obligations.ResetCommand : Prop :=
  ∀ s : State, exec .reset s = .next
    { State.reset with build := s.build, out := s.out, port := s.port, resp := some ⟨.ok, 0⟩ }

/-- At power-on and after RESET every register holds the reset value of 70_reset R345; READ_REG gives 0 for every register
number (the POS view too: assumption log 9), no buffer is bound and no byte of OUT is readable. -/
def Obligations.ResetValues : Prop :=
  ∀ t : State, (t = State.reset ∨ ∃ s, exec .reset s = .next t) →
    (t.mode = .decode ∧ t.phase = .idle ∧ t.sel = 0 ∧ t.qscale = 0 ∧ t.mbCount = 0 ∧ t.len = 0) ∧
    (t.front = 0 ∧ t.mid = 0 ∧ t.back = 0 ∧ t.rem = 0 ∧ t.p = 0) ∧
    (t.predCr = 0 ∧ t.predCb = 0 ∧ t.predY1 = 0 ∧ t.predY3 = 0 ∧ t.cnt1 = 0 ∧ t.cnt2 = 0 ∧ t.cnt3 = 0) ∧
    (t.mbIdx = 0 ∧ t.blk = .cr ∧ t.codeIdx = 0 ∧ t.quota = 0) ∧
    (t.overrun = false ∧ t.errCause = .none ∧ t.errTable = .none ∧ t.errPos = 0) ∧
    (t.acc = 0 ∧ t.accCnt = 0 ∧ t.outLen = 0 ∧ t.nbuf = 0 ∧ ∀ i, ebufAt t i = 0) ∧
    (t.buf = [] ∧ ∀ a, t.readOut a = none) ∧
    ∀ n : BitVec 8, n.toNat ≤ 0x52 → exec (.readReg n) t = .next { t with resp := some ⟨.ok, 0⟩ }

/-- READ_REG changes no register: it answers OK with the register's view for the numbers 0x00 to 0x52, and
ILLEGAL_COMMAND from 0x53 on (40_host_interface R123, R126). -/
def Obligations.ReadRegAnswers : Prop :=
  ∀ (n : BitVec 8) (s : State),
    (n.toNat ≤ 0x52 → exec (.readReg n) s = .next { s with resp := some ⟨.ok, registerView s n.toNat⟩ }) ∧
    (0x53 ≤ n.toNat → exec (.readReg n) s = .next { s with resp := some ⟨.illegalCommand, 0⟩ })

/-- The fields of the READ_REG views (10_state R26), the codes of the enumerated fields (10_state R22, R25; 45_decoder R219;
60_exceptions R316) and the numbers of the response tags (40_host_interface R122). The POS view is said of a
started frame: with none it reads 0 (assumption log 9). -/
def Obligations.RegisterViews : Prop :=
  ([Phase.idle, .atDc, .atIns, .ac1, .ac2, .ac3, .blockEnd, .done, .error, .collect].map (fun p => p.code.toNat) =
      [0, 1, 2, 3, 4, 5, 6, 7, 8, 9] ∧
    [Block.cr, .cb, .y1, .y2, .y3, .y4].map (fun b => b.code.toNat) = [0, 1, 2, 3, 4, 5] ∧
    [ErrCause.none, .readCorruption, .endOfStream, .encNoInstruction, .encProtocol, .encBlockOverflow,
      .encOutputOverflow].map (fun c => c.code.toNat) = [0, 1, 2, 3, 4, 5, 6] ∧
    [ErrTable.none, .dc, .ins, .ac1, .ac2, .ac3].map (fun t => t.code.toNat) = [0, 1, 2, 3, 4, 5] ∧
    Mode.decode.code.toNat = 0 ∧ Mode.encode.code.toNat = 1 ∧
    [Tag.codeDc, .codeAc, .eob, .frameDone, .error, .notStarted, .ok, .illegalCommand].map (fun g => g.code.toNat) =
      [0, 1, 2, 3, 4, 5, 6, 7]) ∧
  ∀ s : State,
    (registerView s 0x00).toNat = s.phase.code.toNat + 2 ^ 4 * s.mode.code.toNat + 2 ^ 5 * s.overrun.toNat +
      2 ^ 6 * s.sel.toNat + 2 ^ 8 * s.errCause.code.toNat + 2 ^ 12 * s.errTable.code.toNat ∧
    (s.phase ≠ .idle → s.mode = .decode → s.rem.toNat ≤ 32 →
      (registerView s 0x01).toNat = (8 * s.p + 32 - s.rem.toNat) % 2 ^ 35) ∧
    (s.phase ≠ .idle → s.mode = .encode →
      (registerView s 0x01).toNat = (8 * s.outLen.toNat + s.accCnt.toNat) % 2 ^ 35) ∧
    ((registerView s 0x02).toNat = s.errPos.toNat ∧ (registerView s 0x03).toNat = s.p % 2 ^ 32 ∧
      (registerView s 0x04).toNat = s.rem.toNat ∧ (registerView s 0x05).toNat = s.front.toNat ∧
      (registerView s 0x06).toNat = s.mid.toNat ∧ (registerView s 0x07).toNat = s.back.toNat) ∧
    ((registerView s 0x08).toNat = s.predCr.toNat ∧ (registerView s 0x09).toNat = s.predCb.toNat ∧
      (registerView s 0x0A).toNat = s.predY1.toNat ∧ (registerView s 0x0B).toNat = s.predY3.toNat) ∧
    (registerView s 0x0C).toNat = s.cnt1.toNat + 2 ^ 8 * s.cnt2.toNat + 2 ^ 16 * s.cnt3.toNat ∧
    (registerView s 0x0D).toNat =
      s.mbIdx.toNat + 2 ^ 16 * s.blk.code.toNat + 2 ^ 24 * s.quota.toNat + 2 ^ 32 * s.codeIdx.toNat ∧
    (registerView s 0x0E).toNat = s.qscale.toNat + 2 ^ 8 * s.sel.toNat + 2 ^ 9 * s.mode.code.toNat +
      2 ^ 16 * s.mbCount.toNat + 2 ^ 32 * s.len.toNat ∧
    ((registerView s 0x0F).toNat = s.acc.toNat ∧ (registerView s 0x10).toNat = s.accCnt.toNat ∧
      (registerView s 0x11).toNat = s.outLen.toNat ∧ (registerView s 0x12).toNat = s.nbuf.toNat) ∧
    ∀ i (h : i < 64), (registerView s (0x13 + i)).toNat = (s.ebuf[i]'h).toNat

/-- The reserved command codes return ILLEGAL_COMMAND and change no state, in every phase (40_host_interface R125). -/
def Obligations.ReservedCommands : Prop :=
  (∀ (s : State) (c : HostCommand) (rest : List HostCommand), s.port = c :: rest →
    (c.code.toNat = 0 ∨ 8 ≤ c.code.toNat) →
    step s = .next { s with port := rest, resp := some ⟨.illegalCommand, 0⟩ }) ∧
  ∀ (code : BitVec 4) (s : State), exec (.reservedCmd code) s = .next { s with resp := some ⟨.illegalCommand, 0⟩ }

/-- A command of the wrong mode, or before any frame, returns NOT_STARTED and changes no state; RESET leaves MODE 0 and
PHASE IDLE (40_host_interface R127). -/
def Obligations.ModeMismatch : Prop :=
  (∀ s : State, s.mode = .encode ∨ s.phase = .idle →
    exec .pull s = .next { s with resp := some ⟨.notStarted, 0⟩ }) ∧
  (∀ s : State, s.mode = .decode ∨ s.phase = .idle →
    (∀ code, exec (.pushCode code) s = .next { s with resp := some ⟨.notStarted, 0⟩ }) ∧
    exec .pushEob s = .next { s with resp := some ⟨.notStarted, 0⟩ }) ∧
  ∀ s t : State, exec .reset s = .next t → t.mode = .decode ∧ t.phase = .idle

/-- The pushes outside the phases that take them (46_encoder R256). -/
def Obligations.PushOutOfPhase : Prop :=
  ∀ (s : State) (i : Instr), (i = .pushEob ∨ ∃ code, i = .pushCode code) →
    (s.mode = .decode ∨ s.phase = .idle → exec i s = .next { s with resp := some ⟨.notStarted, 0⟩ }) ∧
    (s.mode = .encode → s.phase = .done → exec i s = .next { s with resp := some ⟨.frameDone, 0⟩ }) ∧
    (s.mode = .encode → s.phase = .error →
      exec i s = .next { s with resp := some (errorResponse s.errCause s.errTable s.errPos) }) ∧
    (s.mode = .encode → s.phase = .atDc → i = .pushEob →
      exec i s = .next (raiseError .encProtocol .none s.wposBits s))

/-- A PULL of a finished decode frame returns FRAME_DONE and changes no state (45_decoder R227). -/
def Obligations.PullAfterDone : Prop :=
  ∀ s : State, s.mode = .decode → s.phase = .done → exec .pull s = .next { s with resp := some ⟨.frameDone, 0⟩ }

/-- A decode frame in error answers every PULL with the recorded error and changes no state, and only the two STARTs and
RESET leave the ERROR phase (45_decoder R228). -/
def Obligations.ErrorIsSticky : Prop :=
  (∀ s : State, s.mode = .decode → s.phase = .error →
    exec .pull s = .next { s with resp := some (errorResponse s.errCause s.errTable s.errPos) }) ∧
  ∀ (i : Instr) (s t : State), s.phase = .error → exec i s = .next t → t.phase ≠ .error →
    i = .reset ∨ (∃ sel q m l b, i = .startDecode sel q m l b) ∨ ∃ sel q m, i = .startEncode sel q m

/-- The error entry: the three error registers, the ERROR phase and the ERROR response, nothing else (60_exceptions R320,
40_host_interface R122). -/
def Obligations.ErrorEntry : Prop :=
  ∀ (cause : ErrCause) (table : ErrTable) (pos : BitVec 35) (s : State),
    ∃ data : BitVec 64, data.toNat = cause.code.toNat + 2 ^ 4 * table.code.toNat + 2 ^ 8 * pos.toNat ∧
      raiseError cause table pos s =
        { s with errCause := cause, errTable := table, errPos := pos, phase := .error, resp := some ⟨.error, data⟩ }

/-! ### The two STARTs -/

/-- START_DECODE, register by register: the frame's configuration and buffer, everything at its frame-start value, the
cursor loaded at 0, END_OF_STREAM when the buffer is shorter than 12 bytes; the encoder's registers stay (45_decoder
R216). -/
def Obligations.StartDecodeResult : Prop :=
  ∀ (sel : BitVec 1) (qscale : BitVec 6) (mbCount : BitVec 16) (len : BitVec 24) (buf : List Byte) (s : State),
    ∃ t, exec (.startDecode sel qscale mbCount len buf) s = .next t ∧
      (∀ a, t.buf.read a = buf.getD a 0) ∧
      t = { s with
        mode := .decode, sel := sel, qscale := qscale, mbCount := mbCount, len := len, buf := t.buf,
        overrun := false, errCause := if len.toNat < 12 then .endOfStream else .none, errTable := .none, errPos := 0,
        predCr := 0, predCb := 0, predY1 := 0, predY3 := 0, cnt1 := 0, cnt2 := 0, cnt3 := 0,
        mbIdx := 0, blk := .cr, codeIdx := 0, quota := 78,
        p := 0, front := inputWord t 0, mid := inputWord t 4, back := inputWord t 8, rem := 32,
        phase := if len.toNat < 12 then .error else if mbCount = 0 then .done else .atDc,
        resp := some (if len.toNat < 12 then ⟨.error, 2⟩ else ⟨.ok, 0⟩) }

/-- START_ENCODE, register by register: the frame's configuration, everything at its frame-start value, the accumulator,
the output and the block buffer empty; the decoder's registers stay (46_encoder R250). -/
def Obligations.StartEncodeResult : Prop :=
  ∀ (sel : BitVec 1) (qscale : BitVec 6) (mbCount : BitVec 16) (s : State),
    exec (.startEncode sel qscale mbCount) s = .next { s with
      mode := .encode, sel := sel, qscale := qscale, mbCount := mbCount,
      overrun := false, errCause := .none, errTable := .none, errPos := 0,
      predCr := 0, predCb := 0, predY1 := 0, predY3 := 0, mbIdx := 0, blk := .cr, codeIdx := 0, quota := 78,
      acc := 0, accCnt := 0, outLen := 0, out := [], nbuf := 0, ebuf := Vector.replicate 64 0,
      phase := if mbCount = 0 then .done else .atDc, resp := some ⟨.ok, 0⟩ }

/-! ### The syntax elements

Each result says what the rule computes from the window (its selection, value and length); the last clause says what
running the element as an instruction does, in the form the model gives elements (assumption log 7). -/

/-- DC_ESC: where the escape matches, the DC is the sign-extended 10-bit field, whatever the predictor, and e + 10 bits
are consumed; run in AT_DC it does what step AT_DC does with that DC (42_dc_table R151, 45_decoder R218;
that it runs as an instruction is the model's form, assumption log 7). -/
def Obligations.DcEscResult : Prop :=
  (∀ (r : Registry) (F prev : Word), escMatch r.escDc F = true →
    decodeElement r .dc F = some (.dcEsc (field F r.escDc.len 10)) ∧
    dcDecode r F prev = some (dcOfField (field F r.escDc.len 10), r.escDc.len + 10)) ∧
  (∀ v10 : BitVec 10, (dcOfField v10).toInt = v10.toInt) ∧
  ∀ (v10 : BitVec 10) (s : State), s.mode = .decode → s.phase = .atDc → s.quota ≠ 0 →
    exec (.dcEsc v10) s = .next (s.afterDc (dcOfField v10) (s.registry.escDc.len + 10))

/-- DC_VLC: where the escape does not match and the lookup gives (L, delta), the DC is the 32-bit wrap of the predictor
plus delta, and L bits are consumed; run in AT_DC it does what step AT_DC does with that DC (42_dc_table R152;
45_decoder R218, R219; that it runs as an instruction is the model's form, assumption log 7). -/
def Obligations.DcVlcResult : Prop :=
  (∀ (r : Registry) (F prev : Word) (e : Entry Int), escMatch r.escDc F = false → r.dc.lookupEntry F = some e →
    r.dc.lookup F = some (e.len, e.payload) ∧ decodeElement r .dc F = some (.dcVlc e) ∧
    dcDecode r F prev = some (dcVlcValue e prev, e.len)) ∧
  (∀ (e : Entry Int) (prev : Word), (dcVlcValue e prev).toInt = (prev.toInt + e.payload).bmod (2 ^ 32)) ∧
  ∀ (e : Entry Int) (s : State), s.mode = .decode → s.phase = .atDc → s.quota ≠ 0 →
    exec (.dcVlc e) s = .next (s.afterDc (dcVlcValue e (s.pred (chainRead s.blk))) e.len)

/-- INS_VLC: the lookup gives the counts; run in AT_INS it consumes L bits, loads the three counters and moves to the
first table with codes, or to the block's end (43_instruction_table R170; 45_decoder R222, R224; that it runs
as an instruction is the model's form, assumption log 7). -/
def Obligations.InsVlcResult : Prop :=
  (∀ (r : Registry) (F : Word) (e : Entry Counts), r.ins.lookupEntry F = some e →
    r.ins.lookup F = some (e.len, e.payload) ∧ decodeElement r .ins F = some (.insVlc e)) ∧
  ∀ (e : Entry Counts) (s : State), s.mode = .decode → s.phase = .atIns → e.payload.inRange = true →
    ∃ t, exec (.insVlc e) s = .next t ∧ t = s.afterIns e.payload e.len ∧
      t.cnt1.toNat = e.payload.c1 ∧ t.cnt2.toNat = e.payload.c2 ∧ t.cnt3.toNat = e.payload.c3

/-- AC1_ESC1: run 0, a 7-bit signed level, e + 7 bits (44_ac_tables R186; 45_decoder R223, R224;
that it runs as an instruction is the model's form, assumption log 7). -/
def Obligations.Ac1Esc1Result : Prop :=
  (∀ (r : Registry) (F : Word), escMatch r.ac1.esc1 F = true →
    decodeElement r (.ac .one) F = some (.ac1Esc1 (field F r.ac1.esc1.len 7)) ∧
    acDecode r .one F = some (ac1Esc1Code (field F r.ac1.esc1.len 7), r.ac1.esc1.len + 7)) ∧
  (∀ level7 : BitVec 7, ((ac1Esc1Code level7).toNat : Int) = level7.toInt % 2 ^ 10) ∧
  ∀ (level7 : BitVec 7) (s : State), s.mode = .decode → s.phase = .ac1 → s.cnt1 ≠ 0 →
    exec (.ac1Esc1 level7) s = .next (s.afterAc .one (ac1Esc1Code level7) (s.registry.ac1.esc1.len + 7))

/-- AC1_ESC2: the raw 16-bit code, e + 16 bits (44_ac_tables R187; 45_decoder R223, R224;
that it runs as an instruction is the model's form, assumption log 7). -/
def Obligations.Ac1Esc2Result : Prop :=
  (∀ (r : Registry) (F : Word), escMatch r.ac1.esc1 F = false → escMatch r.ac1.esc2 F = true →
    decodeElement r (.ac .one) F = some (.ac1Esc2 (field F r.ac1.esc2.len 16)) ∧
    acDecode r .one F = some (field F r.ac1.esc2.len 16, r.ac1.esc2.len + 16)) ∧
  ∀ (raw16 : BitVec 16) (s : State), s.mode = .decode → s.phase = .ac1 → s.cnt1 ≠ 0 →
    exec (.ac1Esc2 raw16) s = .next (s.afterAc .one raw16 (s.registry.ac1.esc2.len + 16))

/-- AC1_VLC: the entry's code, L bits (44_ac_tables R188; 45_decoder R223, R224;
that it runs as an instruction is the model's form, assumption log 7). -/
def Obligations.Ac1VlcResult : Prop :=
  (∀ (r : Registry) (F : Word) (e : Entry Nat), escMatch r.ac1.esc1 F = false → escMatch r.ac1.esc2 F = false →
    r.ac1.table.lookupEntry F = some e →
    r.ac1.table.lookup F = some (e.len, e.payload) ∧ decodeElement r (.ac .one) F = some (.ac1Vlc e) ∧
    acDecode r .one F = some (BitVec.ofNat 16 e.payload, e.len)) ∧
  ∀ (e : Entry Nat) (s : State), s.mode = .decode → s.phase = .ac1 → s.cnt1 ≠ 0 →
    exec (.ac1Vlc e) s = .next (s.afterAc .one (BitVec.ofNat 16 e.payload) e.len)

/-- AC2_ESC1: a 3-bit run, a 5-bit signed level, e + 8 bits (44_ac_tables R189; 45_decoder R223, R224;
that it runs as an instruction is the model's form, assumption log 7). -/
def Obligations.Ac2Esc1Result : Prop :=
  (∀ (r : Registry) (F : Word), escMatch r.ac2.esc1 F = true →
    decodeElement r (.ac .two) F =
      some (.ac2Esc1 (field F r.ac2.esc1.len 3) (field F (r.ac2.esc1.len + 3) 5)) ∧
    acDecode r .two F =
      some (ac2Esc1Code (field F r.ac2.esc1.len 3) (field F (r.ac2.esc1.len + 3) 5), r.ac2.esc1.len + 8)) ∧
  (∀ (run3 : BitVec 3) (level5 : BitVec 5),
    ((ac2Esc1Code run3 level5).toNat : Int) = 2 ^ 10 * run3.toNat + level5.toInt % 2 ^ 10) ∧
  ∀ (run3 : BitVec 3) (level5 : BitVec 5) (s : State), s.mode = .decode → s.phase = .ac2 → s.cnt2 ≠ 0 →
    exec (.ac2Esc1 run3 level5) s =
      .next (s.afterAc .two (ac2Esc1Code run3 level5) (s.registry.ac2.esc1.len + 8))

/-- AC2_ESC2: the raw 16-bit code, e + 16 bits (44_ac_tables R190; 45_decoder R223, R224;
that it runs as an instruction is the model's form, assumption log 7). -/
def Obligations.Ac2Esc2Result : Prop :=
  (∀ (r : Registry) (F : Word), escMatch r.ac2.esc1 F = false → escMatch r.ac2.esc2 F = true →
    decodeElement r (.ac .two) F = some (.ac2Esc2 (field F r.ac2.esc2.len 16)) ∧
    acDecode r .two F = some (field F r.ac2.esc2.len 16, r.ac2.esc2.len + 16)) ∧
  ∀ (raw16 : BitVec 16) (s : State), s.mode = .decode → s.phase = .ac2 → s.cnt2 ≠ 0 →
    exec (.ac2Esc2 raw16) s = .next (s.afterAc .two raw16 (s.registry.ac2.esc2.len + 16))

/-- AC2_VLC: the entry's code, L bits (44_ac_tables R191; 45_decoder R223, R224;
that it runs as an instruction is the model's form, assumption log 7). -/
def Obligations.Ac2VlcResult : Prop :=
  (∀ (r : Registry) (F : Word) (e : Entry Nat), escMatch r.ac2.esc1 F = false → escMatch r.ac2.esc2 F = false →
    r.ac2.table.lookupEntry F = some e →
    r.ac2.table.lookup F = some (e.len, e.payload) ∧ decodeElement r (.ac .two) F = some (.ac2Vlc e) ∧
    acDecode r .two F = some (BitVec.ofNat 16 e.payload, e.len)) ∧
  ∀ (e : Entry Nat) (s : State), s.mode = .decode → s.phase = .ac2 → s.cnt2 ≠ 0 →
    exec (.ac2Vlc e) s = .next (s.afterAc .two (BitVec.ofNat 16 e.payload) e.len)

/-- AC3_ESC1: a 4-bit run, a 4-bit signed level, e + 8 bits (44_ac_tables R192; 45_decoder R223, R224;
that it runs as an instruction is the model's form, assumption log 7). -/
def Obligations.Ac3Esc1Result : Prop :=
  (∀ (r : Registry) (F : Word), escMatch r.ac3.esc1 F = true →
    decodeElement r (.ac .three) F =
      some (.ac3Esc1 (field F r.ac3.esc1.len 4) (field F (r.ac3.esc1.len + 4) 4)) ∧
    acDecode r .three F =
      some (ac3Esc1Code (field F r.ac3.esc1.len 4) (field F (r.ac3.esc1.len + 4) 4), r.ac3.esc1.len + 8)) ∧
  (∀ (run4 level4 : BitVec 4),
    ((ac3Esc1Code run4 level4).toNat : Int) = 2 ^ 10 * run4.toNat + level4.toInt % 2 ^ 10) ∧
  ∀ (run4 level4 : BitVec 4) (s : State), s.mode = .decode → s.phase = .ac3 → s.cnt3 ≠ 0 →
    exec (.ac3Esc1 run4 level4) s =
      .next (s.afterAc .three (ac3Esc1Code run4 level4) (s.registry.ac3.esc1.len + 8))

/-- AC3_ESC2: the raw 16-bit code, e + 16 bits (44_ac_tables R193; 45_decoder R223, R224;
that it runs as an instruction is the model's form, assumption log 7). -/
def Obligations.Ac3Esc2Result : Prop :=
  (∀ (r : Registry) (F : Word), escMatch r.ac3.esc1 F = false → escMatch r.ac3.esc2 F = true →
    decodeElement r (.ac .three) F = some (.ac3Esc2 (field F r.ac3.esc2.len 16)) ∧
    acDecode r .three F = some (field F r.ac3.esc2.len 16, r.ac3.esc2.len + 16)) ∧
  ∀ (raw16 : BitVec 16) (s : State), s.mode = .decode → s.phase = .ac3 → s.cnt3 ≠ 0 →
    exec (.ac3Esc2 raw16) s = .next (s.afterAc .three raw16 (s.registry.ac3.esc2.len + 16))

/-- AC3_VLC: the entry's code, L bits (44_ac_tables R194; 45_decoder R223, R224;
that it runs as an instruction is the model's form, assumption log 7). -/
def Obligations.Ac3VlcResult : Prop :=
  (∀ (r : Registry) (F : Word) (e : Entry Nat), escMatch r.ac3.esc1 F = false → escMatch r.ac3.esc2 F = false →
    r.ac3.table.lookupEntry F = some e →
    r.ac3.table.lookup F = some (e.len, e.payload) ∧ decodeElement r (.ac .three) F = some (.ac3Vlc e) ∧
    acDecode r .three F = some (BitVec.ofNat 16 e.payload, e.len)) ∧
  ∀ (e : Entry Nat) (s : State), s.mode = .decode → s.phase = .ac3 → s.cnt3 ≠ 0 →
    exec (.ac3Vlc e) s = .next (s.afterAc .three (BitVec.ofNat 16 e.payload) e.len)

/-- Every element of the registry moves POS by exactly its length and keeps the window: FRONT, MID and BACK hold the
stream bits that follow, and OVERRUN is set exactly when the element reaches past the buffer (47_bit_cursor R283, R287,
R288; 10_state R23; that an element is an instruction of its own is the model's form, assumption log 7). -/
def Obligations.ElementAdvances : Prop :=
  ∀ (i : Instr) (s t : State), s.build.wf = true → s.Window → i.wfIn s.registry = true → exec i s = .next t →
    t.posNat = s.posNat + elementLength s.registry i ∧ t.Window ∧
      t.overrun = (s.overrun || decide (8 * s.len.toNat < s.posNat + elementLength s.registry i))

/-! ### PULL, phase by phase -/

/-- The DC predictor chain: what each block reads and writes (45_decoder R219, where the own predictors of Cr and Cb are
the spec's reading of its source), with the DC code (42_dc_table R154). -/
def Obligations.PredictorChain : Prop :=
  [Block.cr, .cb, .y1, .y2, .y3, .y4].map (fun b => (chainRead b, chainWrite b)) =
    [(.cr, some .cr), (.cb, some .cb), (.y3, some .y1), (.y1, none), (.y1, some .y3), (.y3, none)] ∧
  (∀ (s : State), s.pred .cr = s.predCr ∧ s.pred .cb = s.predCb ∧ s.pred .y1 = s.predY1 ∧ s.pred .y3 = s.predY3) ∧
  (∀ (dc : Word) (s : State), writeChain dc s = { s with
    predCr := if s.blk = .cr then dc else s.predCr
    predCb := if s.blk = .cb then dc else s.predCb
    predY1 := if s.blk = .y1 then dc else s.predY1
    predY3 := if s.blk = .y3 then dc else s.predY3 }) ∧
  ∀ (q : BitVec 6) (dc : Word), (dcCode q dc).toNat = 2 ^ 10 * q.toNat + dc.toNat % 2 ^ 10

/-- PULL in AT_DC (45_decoder R218, R220; 42_dc_table R153): with the quota exhausted the next column is loaded first,
or END_OF_STREAM is raised with the predictors already 0; then the DC element, or READ_CORRUPTION with nothing more
changed. The premises on REM and P hold in every state between commands (47_bit_cursor R286, 20_memory R66). -/
def Obligations.PullAtDc : Prop :=
  ∀ s : State, s.mode = .decode → s.phase = .atDc → s.rem.toNat ≤ 32 → s.p % 4 = 0 →
    (s.quota = 0 → s.len.toNat < s.columnOffset + 4 →
      exec .pull s = .next (raiseError .endOfStream .none (BitVec.ofNat 35 s.posNat) s.noPreds)) ∧
    ∀ u : State, (s.quota ≠ 0 ∧ u = s) ∨ (s.quota = 0 ∧ s.columnOffset + 4 ≤ s.len.toNat ∧ u = s.atColumn) →
      (dcDecode s.registry u.front (u.pred (chainRead s.blk)) = none →
        exec .pull s = .next (raiseError .readCorruption .dc (BitVec.ofNat 35 u.posNat) u)) ∧
      ∀ dc n, dcDecode s.registry u.front (u.pred (chainRead s.blk)) = some (dc, n) →
        exec .pull s = .next (u.afterDc dc n)

/-- PULL in AT_INS (45_decoder R222; 43_instruction_table R171): the instruction code, or READ_CORRUPTION with nothing
changed; then, in the same PULL, the block's end or the first AC element, whose miss keeps what the instruction did. -/
def Obligations.PullAtIns : Prop :=
  ∀ s : State, s.mode = .decode → s.phase = .atIns → s.build.wf = true → s.rem.toNat ≤ 32 →
    (s.registry.ins.lookupEntry s.front = none →
      exec .pull s = .next (raiseError .readCorruption .ins (BitVec.ofNat 35 s.posNat) s)) ∧
    ∀ e, s.registry.ins.lookupEntry s.front = some e →
      let u := s.afterIns e.payload e.len
      (e.payload.sum = 0 → exec .pull s = .next u.afterBlock) ∧
      ∀ k, u.phase = phaseOfRole k →
        (acDecode s.registry k u.front = none →
          exec .pull s = .next (raiseError .readCorruption (tableOfClass (.ac k)) (BitVec.ofNat 35 u.posNat) u)) ∧
        ∀ code n, acDecode s.registry k u.front = some (code, n) → exec .pull s = .next (u.afterAc k code n)

/-- PULL in ACk (45_decoder R223; 44_ac_tables R195): the AC element of table k, or READ_CORRUPTION with nothing
changed. -/
def Obligations.PullAtAc : Prop :=
  ∀ (s : State) (k : Role), s.mode = .decode → s.phase = phaseOfRole k → s.cnt k ≠ 0 → s.rem.toNat ≤ 32 →
    (acDecode s.registry k s.front = none →
      exec .pull s = .next (raiseError .readCorruption (tableOfClass (.ac k)) (BitVec.ofNat 35 s.posNat) s)) ∧
    ∀ code n, acDecode s.registry k s.front = some (code, n) → exec .pull s = .next (s.afterAc k code n)

/-- PULL in BLOCK_END: CODE_IDX 0, the block cursor moved, DONE after the last macroblock, EOB (45_decoder R225). -/
def Obligations.PullAtBlockEnd : Prop :=
  ∀ s : State, s.mode = .decode → s.phase = .blockEnd → exec .pull s = .next s.afterBlock

/-- A column reset happens exactly before the DC of the blocks j ≥ 78 with j mod 78 = 0, and such a block's DC is decoded
with all four predictors 0 at a bit position that is a multiple of 32, the old one rounded up (45_decoder R226, R232). -/
def Obligations.ColumnResetExactly : Prop :=
  ∀ s : State, s.Inv → s.QuotaTracks → s.mode = .decode → s.phase = .atDc →
    (s.quota = 0 ↔ 78 ≤ s.blockNumber ∧ s.blockNumber % 78 = 0) ∧
    (s.quota = 0 → s.columnOffset + 4 ≤ s.len.toNat →
      exec .pull s = exec .pull s.atColumn ∧ s.blk = .cr ∧
      (∀ q, s.atColumn.pred q = 0) ∧ s.atColumn.posNat = paddedPos s.posNat ∧ s.atColumn.posNat % 32 = 0 ∧
      s.atColumn.Window)

/-! ### The encoder -/

/-- PUSH_CODE of a block's DC (46_encoder R251, 42_dc_table R155, 48_bit_accumulator R301, R303, R304). Where the words
fit: the old output and stream bits stay, a column boundary pads with zero bits, the bits of the chosen DC element
follow, and the registers are as listed. Where the column's pad does not fit: ENC_OUTPUT_OVERFLOW at the command's WPOS
with the predictors 0 and nothing else changed, ACC and ACC_CNT among it. Where the pad fits and the DC element does not:
the same error with the column boundary's registers; OUT is full, and OUT and the pending bits of ACC together hold the
old stream bits, the pad's zeros and the element's bits up to and with the BITS line whose word did not fit, so ACC and
ACC_CNT are as at that OutWrite; every other byte of OUT stays. -/
def Obligations.PushDcResult : Prop :=
  ∀ (code : Code) (s : State), s.Inv → s.mode = .encode → s.phase = .atDc → s.build.outMaxBytes < 2 ^ 32 →
    let fs := dcFields s code
    let total := columnPos s + bitsLength fs
    let dc := pushedDc code
    (4 * (total / 32) ≤ s.build.outMaxBytes →
      ∃ t, exec (.pushCode code) s = .next t ∧
        t = { s with
          predCr := if s.blk = .cr then dc else (columnStart s).predCr
          predCb := if s.blk = .cb then dc else (columnStart s).predCb
          predY1 := if s.blk = .y1 then dc else (columnStart s).predY1
          predY3 := if s.blk = .y3 then dc else (columnStart s).predY3
          quota := (columnStart s).quota - 1
          codeIdx := 1
          nbuf := 0
          phase := .collect
          acc := t.acc
          accCnt := t.accCnt
          out := t.out
          outLen := t.outLen
          resp := some ⟨.ok, 0⟩ } ∧
        dc.toInt = (codeLevel code).toInt ∧ t.wpos = total ∧ t.outLen.toNat = 4 * (total / 32) ∧
        (∀ k, k < s.wpos → t.writtenBit k = s.writtenBit k) ∧
        (∀ k, s.wpos ≤ k → k < columnPos s → t.writtenBit k = false) ∧
        (∀ i, i < bitsLength fs → t.writtenBit (columnPos s + i) = (bitsValue fs).testBit i) ∧
        (∀ a, a < s.outLen.toNat ∨ t.outLen.toNat ≤ a → t.out.read a = s.out.read a)) ∧
    (s.build.outMaxBytes < 4 * (columnPos s / 32) →
      exec (.pushCode code) s = .next (raiseError .encOutputOverflow .none s.wposBits s.noPreds)) ∧
    (4 * (columnPos s / 32) ≤ s.build.outMaxBytes → s.build.outMaxBytes < 4 * (total / 32) →
      let written := appendedBits s.build.outMaxBytes (columnPos s) fs
      ∃ t, exec (.pushCode code) s = .next t ∧
        t = raiseError .encOutputOverflow .none s.wposBits
          { columnStart s with acc := t.acc, accCnt := t.accCnt, out := t.out, outLen := t.outLen } ∧
        t.outLen.toNat = s.build.outMaxBytes ∧ t.wpos = columnPos s + written ∧ t.acc.toNat < 2 ^ t.accCnt.toNat ∧
        (∀ k, k < s.wpos → t.writtenBit k = s.writtenBit k) ∧
        (∀ k, s.wpos ≤ k → k < columnPos s → t.writtenBit k = false) ∧
        (∀ i, i < written → t.writtenBit (columnPos s + i) = (bitsValue fs).testBit i) ∧
        (∀ a, a < s.outLen.toNat ∨ t.outLen.toNat ≤ a → t.out.read a = s.out.read a))

/-- PUSH_CODE of an AC code: buffered at EBUF[NBUF], or ENC_BLOCK_OVERFLOW with nothing changed when 64 are buffered
(46_encoder R252). -/
def Obligations.PushAcResult : Prop :=
  ∀ (code : Code) (s : State), s.mode = .encode → s.phase = .collect →
    (∀ h : s.nbuf.toNat < 64, exec (.pushCode code) s = .next { s with
      ebuf := s.ebuf.set s.nbuf.toNat code h
      nbuf := s.nbuf + 1
      codeIdx := s.codeIdx + 1
      resp := some ⟨.ok, 0⟩ }) ∧
    (s.nbuf = 64 → exec (.pushCode code) s = .next (raiseError .encBlockOverflow .none s.wposBits s))

/-- PUSH_EOB with an instruction for the buffered codes (46_encoder R253, R254, R255; 48_bit_accumulator R301, R303, R304).
Where the words fit: the bits of the instruction and of the codes in push order follow the old stream, then zero bits up
to a word after the frame's last block, and the registers are as listed. Where they do not: ENC_OUTPUT_OVERFLOW at the
command's WPOS, with the block cursor moved when only the final pad did not fit; OUT is full, and OUT and the pending bits
of ACC together hold the old stream bits and the block's bits up to and with the BITS line whose word did not fit (all of
them when only the final pad did not fit), so ACC and ACC_CNT are as at that OutWrite; every other byte of OUT stays. -/
def Obligations.PushEobResult : Prop :=
  ∀ (s : State) (e : Entry Counts), s.Inv → s.mode = .encode → s.phase = .collect → s.build.outMaxBytes < 2 ^ 32 →
    s.registry.sumMap s.nbuf.toNat = some e →
    let fs := blockFields s.registry e s.pushed
    let bits := s.wpos + bitsLength fs
    let total := if s.nextMb = s.mbCount then paddedPos bits else bits
    (4 * (total / 32) ≤ s.build.outMaxBytes →
      ∃ t, exec .pushEob s = .next t ∧
        t = { s.afterBlock with
          nbuf := 0
          acc := t.acc
          accCnt := t.accCnt
          out := t.out
          outLen := t.outLen
          resp := some ⟨.ok, 0⟩ } ∧
        t.wpos = total ∧ t.outLen.toNat = 4 * (total / 32) ∧
        (∀ k, k < s.wpos → t.writtenBit k = s.writtenBit k) ∧
        (∀ i, i < bitsLength fs → t.writtenBit (s.wpos + i) = (bitsValue fs).testBit i) ∧
        (∀ k, bits ≤ k → k < total → t.writtenBit k = false) ∧
        (∀ a, a < s.outLen.toNat ∨ t.outLen.toNat ≤ a → t.out.read a = s.out.read a)) ∧
    (s.build.outMaxBytes < 4 * (total / 32) →
      let written := appendedBits s.build.outMaxBytes s.wpos fs
      ∃ t, exec .pushEob s = .next t ∧
        t = raiseError .encOutputOverflow .none s.wposBits
          { (if 4 * (bits / 32) ≤ s.build.outMaxBytes then
              { s with nbuf := 0, codeIdx := 0, blk := s.afterBlock.blk, mbIdx := s.nextMb } else s) with
            acc := t.acc
            accCnt := t.accCnt
            out := t.out
            outLen := t.outLen } ∧
        t.outLen.toNat = s.build.outMaxBytes ∧ t.wpos = s.wpos + written ∧ t.acc.toNat < 2 ^ t.accCnt.toNat ∧
        (∀ k, k < s.wpos → t.writtenBit k = s.writtenBit k) ∧
        (∀ i, i < written → t.writtenBit (s.wpos + i) = (bitsValue fs).testBit i) ∧
        (∀ a, a < s.outLen.toNat ∨ t.outLen.toNat ≤ a → t.out.read a = s.out.read a))

/-- The encoder's four errors, where each is raised and that nothing was changed before (60_exceptions R319, R316). -/
def Obligations.EncoderErrors : Prop :=
  (∀ s : State, s.mode = .encode → s.phase = .collect → s.registry.sumMap s.nbuf.toNat = none →
    exec .pushEob s = .next (raiseError .encNoInstruction .ins s.wposBits s)) ∧
  (∀ s : State, s.mode = .encode → s.phase = .atDc →
    exec .pushEob s = .next (raiseError .encProtocol .none s.wposBits s)) ∧
  (∀ (code : Code) (s : State), s.mode = .encode → s.phase = .collect → s.nbuf = 64 →
    exec (.pushCode code) s = .next (raiseError .encBlockOverflow .none s.wposBits s)) ∧
  (∀ (wpos : BitVec 35) (w : Word) (s : State),
    outWrite wpos w s = if s.outLen.toNat + 4 > s.build.outMaxBytes
      then .raised (raiseError .encOutputOverflow .none wpos s) else .done (putWord w s))

/-! ### What commands leave alone -/

/-- No command changes the registries or the output capacity, and MB_HEIGHT is 13 (10_state R32). -/
def Obligations.ConfigurationFixed : Prop :=
  Config.mbHeight = 13 ∧ ∀ (i : Instr) (s t : State), exec i s = .next t → t.build = s.build

/-- The input buffer and its length change only by START_DECODE and RESET (20_memory R60, R75; for RESET, which unbinds
the buffer, assumption log 11). -/
def Obligations.BufferFixed : Prop :=
  ∀ (i : Instr) (s t : State), exec i s = .next t → i ≠ .reset → (∀ sel q m l b, i ≠ .startDecode sel q m l b) →
    t.buf = s.buf ∧ t.len = s.len

/-- A register that a mode does not use keeps its value through that mode's commands: START_DECODE, PULL and the elements
leave the accumulator, the output and the block buffer; START_ENCODE and the pushes leave the cursor, the buffer and the
counters (10_state R20). -/
def Obligations.OtherModeKept : Prop :=
  ∀ (i : Instr) (s t : State), exec i s = .next t →
    ((i = .pull ∨ (∃ sel q m l b, i = .startDecode sel q m l b) ∨ i.elementClass ≠ none) →
      t.acc = s.acc ∧ t.accCnt = s.accCnt ∧ t.outLen = s.outLen ∧ t.out = s.out ∧ t.ebuf = s.ebuf ∧ t.nbuf = s.nbuf) ∧
    (((∃ sel q m, i = .startEncode sel q m) ∨ (∃ code, i = .pushCode code) ∨ i = .pushEob) →
      t.front = s.front ∧ t.mid = s.mid ∧ t.back = s.back ∧ t.rem = s.rem ∧ t.p = s.p ∧ t.len = s.len ∧
      t.buf = s.buf ∧ t.cnt1 = s.cnt1 ∧ t.cnt2 = s.cnt2 ∧ t.cnt3 = s.cnt3)

/-- OVERRUN and a nonzero ERR_CAUSE stay until START_DECODE, START_ENCODE or RESET (10_state R24). -/
def Obligations.FlagsSticky : Prop :=
  ∀ (i : Instr) (s t : State), exec i s = .next t → i ≠ .reset → (∀ sel q m l b, i ≠ .startDecode sel q m l b) →
    (∀ sel q m, i ≠ .startEncode sel q m) →
    (s.overrun = true → t.overrun = true) ∧ (s.Inv → s.errCause ≠ .none → t.errCause = s.errCause)

/-- Bytes of OUT once written stay until the next START_ENCODE, and OUT_LEN shrinks only by it or RESET (20_memory R71,
R72; 70_reset R346). -/
def Obligations.OutputKept : Prop :=
  ∀ (i : Instr) (s t : State), s.Inv → s.build.outMaxBytes < 2 ^ 32 → exec i s = .next t →
    (∀ sel q m, i ≠ .startEncode sel q m) →
    (∀ a, a < s.outLen.toNat → t.out.read a = s.out.read a) ∧ (i ≠ .reset → s.outLen.toNat ≤ t.outLen.toNat)

/-! ### Invariants of every step -/

/-- The power-on state meets the block's invariant, the window invariant and both counts. -/
def Obligations.ResetMeetsInvariants : Prop :=
  State.reset.Inv ∧ State.reset.Window ∧ State.reset.QuotaTracks ∧ State.reset.CodeCount

/-- Every step keeps the block's invariant: the registers' ranges, the phases of the mode, the counters positive in their
phases, the canonical memories, whole output words, ERR_CAUSE nonzero exactly in ERROR (10_state R20, R22, R24;
47_bit_cursor R286; 48_bit_accumulator R300, R305). -/
def Obligations.StepKeepsInvariant : Prop :=
  ∀ s t : State, s.Inv → step s = .next t → t.Inv

/-- Every step keeps the window invariant: FRONT is the 32 stream bits at POS (47_bit_cursor R287). -/
def Obligations.StepKeepsWindow : Prop :=
  ∀ s t : State, s.Inv → s.Window → step s = .next t → t.Window

/-- Every step keeps QUOTA the count of blocks left in the column (45_decoder R226, R230). -/
def Obligations.StepKeepsQuota : Prop :=
  ∀ s t : State, s.Inv → s.QuotaTracks → step s = .next t → t.QuotaTracks

/-- Every step keeps CODE_IDX the count of the block's codes, at most 766 (45_decoder R233). -/
def Obligations.StepKeepsCodeCount : Prop :=
  ∀ s t : State, s.Inv → s.CodeCount → step s = .next t → t.CodeCount

/-- Every command of a state that meets the invariant ends in one response and leaves the later commands pending: the
block never stops (40_host_interface R120, 70_reset R360). -/
def Obligations.EveryCommandAnswers : Prop :=
  ∀ (s : State) (c : HostCommand) (rest : List HostCommand) (i : Instr), s.Inv → s.port = c :: rest →
    decodeCommand c = .ok i → ∃ t r, step s = .next t ∧ t.resp = some r ∧ t.port = rest

/-- Two states at one position of one buffer see one window: a decode depends only on the buffer and POS, never on how POS
was reached (47_bit_cursor R287). -/
def Obligations.WindowDetermined : Prop :=
  ∀ s t : State, s.Window → t.Window → s.posNat = t.posNat → s.len = t.len →
    (∀ a, a < s.len.toNat → s.buf.read a = t.buf.read a) →
    s.front = t.front ∧ ∀ r cls, decodeElement r cls s.front = decodeElement r cls t.front

/-! ### The tables -/

/-- The build of the lookup array refuses exactly the tables with a collision, and otherwise its slot x holds what the
lookup of the model answers (41_prefix_lookup R131, R132, R135). -/
def Obligations.LutBuild : Prop :=
  ∀ (α : Type) (t : Table α), t.entryLenOk = true →
    (t.noCollision = false → t.buildLut = none) ∧
    (t.noCollision = true → ∃ lut, t.buildLut = some lut ∧ lut.length = 2 ^ t.width ∧
      ∀ F : Word, lut[F.toNat % 2 ^ t.width]? = some (t.lookup F))

/-- In a well-formed registry at most one candidate of a class matches a window: an escape or the lookup slot, and one
entry covers the slot (41_prefix_lookup R140). -/
def Obligations.AtMostOneMatch : Prop :=
  ∀ (r : Registry) (F : Word), r.wf = true →
    (escMatch r.escDc F = true → r.dc.lookup F = none) ∧
    (∀ k, (escMatch (r.ac k).esc1 F = true → escMatch (r.ac k).esc2 F = false ∧ (r.ac k).table.lookup F = none) ∧
      (escMatch (r.ac k).esc2 F = true → (r.ac k).table.lookup F = none)) ∧
    (∀ x, (∀ e ∈ r.dc.entries, ∀ e' ∈ r.dc.entries, e.covers x = true → e'.covers x = true → e = e') ∧
      (∀ e ∈ r.ins.entries, ∀ e' ∈ r.ins.entries, e.covers x = true → e'.covers x = true → e = e') ∧
      ∀ k, ∀ e ∈ (r.ac k).table.entries, ∀ e' ∈ (r.ac k).table.entries,
        e.covers x = true → e'.covers x = true → e = e')

/-- A decode of a complete table never misses, and a PULL over complete tables never raises READ_CORRUPTION
(41_prefix_lookup R137). -/
def Obligations.CompleteNeverMisses : Prop :=
  (∀ r : Registry, r.dc.Complete [r.escDc] → ∀ F prev, dcDecode r F prev ≠ none) ∧
  (∀ r : Registry, r.ins.Complete [] → ∀ F, r.ins.lookupEntry F ≠ none) ∧
  (∀ (r : Registry) (k : Role), (r.ac k).table.Complete [(r.ac k).esc1, (r.ac k).esc2] → ∀ F, acDecode r k F ≠ none) ∧
  ∀ s t : State, s.Inv → s.registry.dc.Complete [s.registry.escDc] → s.registry.ins.Complete [] →
    (∀ k, (s.registry.ac k).table.Complete [(s.registry.ac k).esc1, (s.registry.ac k).esc2]) →
    exec .pull s = .next t → t.errCause = .readCorruption → s.errCause = .readCorruption

/-- SUMMAP[s] is the instruction entry whose counts sum to s, or none where there is none (41_prefix_lookup R139). -/
def Obligations.SumMapWellDefined : Prop :=
  ∀ (r : Registry) (n : Nat), r.wf = true →
    (∀ e, r.sumMap n = some e ↔ e ∈ r.ins.entries ∧ e.payload.c1 + e.payload.c2 + e.payload.c3 = n) ∧
    (r.sumMap n = none ↔ ∀ e ∈ r.ins.entries, e.payload.c1 + e.payload.c2 + e.payload.c3 ≠ n)

/-- minTC(x) is the least width w ≥ 1 whose two's-complement range holds x, and fits1 is the escape1 precision check of
the three roles (44_ac_tables R197). -/
def Obligations.PrecisionCheck : Prop :=
  (∀ x : Int, 1 ≤ minTC x ∧ -(2 : Int) ^ (minTC x - 1) ≤ x ∧ x ≤ (2 : Int) ^ (minTC x - 1) - 1 ∧
    ∀ w, 1 ≤ w → -(2 : Int) ^ (w - 1) ≤ x → x ≤ (2 : Int) ^ (w - 1) - 1 → minTC x ≤ w) ∧
  ∀ (run : Nat) (level : Int),
    (fits1 .one run level = true ↔ run = 0 ∧ -64 ≤ level ∧ level ≤ 63) ∧
    (fits1 .two run level = true ↔ run ≤ 7 ∧ -16 ≤ level ∧ level ≤ 15) ∧
    (fits1 .three run level = true ↔ run ≤ 15 ∧ -8 ≤ level ∧ level ≤ 7)

/-- Escape precision guard: for every code and every role, a window that begins with what acEncode writes decodes to the
code, with as many bits as were written (44_ac_tables R198). -/
def Obligations.EscapePrecision : Prop :=
  ∀ (r : Registry) (k : Role) (c : Code) (F : Word), r.wf = true →
    F.toNat % 2 ^ bitsLength (encodeElement r (chooseAc r k c)) = bitsValue (encodeElement r (chooseAc r k c)) →
    acDecode r k F = some (c, bitsLength (encodeElement r (chooseAc r k c)))

/-- DC round trip: a window that begins with what dcEncode writes for a DC in −512..511 decodes, with the same predictor,
to that DC, with as many bits as were written (42_dc_table R157). -/
def Obligations.DcRoundTrip : Prop :=
  ∀ (r : Registry) (dc prev F : Word), r.wf = true → -512 ≤ dc.toInt → dc.toInt ≤ 511 →
    F.toNat % 2 ^ bitsLength (encodeElement r (chooseDc r dc prev)) = bitsValue (encodeElement r (chooseDc r dc prev)) →
    dcDecode r F prev = some (dc, bitsLength (encodeElement r (chooseDc r dc prev)))
end

