-- ==== Sys2Proof/Laws/Memory.lean ====
section
/-! SUPPORT. The laws of the byte memories: every operation keeps the canonical form, a read after a write. -/

namespace Sys2Proof.Machine

theorem memoryFrom_mono {lo lo' : Nat} (h : lo' ≤ lo) : ∀ {m : Memory}, memoryFrom lo m = true → memoryFrom lo' m = true
  | [], _ => rfl
  | c :: cs, hm => by
    simp only [memoryFrom, Bool.and_eq_true, decide_eq_true_eq] at hm ⊢
    exact ⟨⟨by omega, hm.1.2⟩, hm.2⟩

theorem memoryFrom_consCell {lo a : Nat} {b : Byte} {m : Memory} (h : lo ≤ a) (hm : memoryFrom (a + 1) m = true) :
    memoryFrom lo (consCell a b m) = true := by
  unfold consCell
  split
  · exact memoryFrom_mono (by omega) hm
  · simp_all [memoryFrom]

theorem memoryFrom_write {a : Nat} {b : Byte} :
    ∀ {m : Memory} {lo : Nat}, lo ≤ a → memoryFrom lo m = true → memoryFrom lo (Memory.write m a b) = true
  | [], lo, h, _ => by simpa [Memory.write] using memoryFrom_consCell h (m := []) rfl
  | c :: cs, lo, h, hm => by
    simp only [memoryFrom, Bool.and_eq_true, decide_eq_true_eq] at hm
    obtain ⟨⟨h1, h2⟩, h3⟩ := hm
    unfold Memory.write
    split
    · exact memoryFrom_consCell h (by simp [memoryFrom, h2, h3]; omega)
    · split
      · subst_vars; exact memoryFrom_consCell h h3
      · simp only [memoryFrom, Bool.and_eq_true, decide_eq_true_eq]
        exact ⟨⟨h1, h2⟩, memoryFrom_write (by omega) h3⟩

theorem write_wf {m : Memory} (a : Nat) (b : Byte) (h : m.wf = true) : (m.write a b).wf = true :=
  memoryFrom_write (Nat.zero_le a) h

theorem writeWord_wf {m : Memory} (a : Nat) (w : Word) (h : m.wf = true) : (m.writeWord a w).wf = true :=
  write_wf _ _ (write_wf _ _ (write_wf _ _ (write_wf _ _ h)))

theorem memoryOfBytes_from (bs : List Byte) : ∀ lo, memoryFrom lo (memoryOfBytes lo bs) = true := by
  induction bs with
  | nil => intro lo; rfl
  | cons b bs ih => intro lo; exact memoryFrom_consCell (Nat.le_refl lo) (ih (lo + 1))

theorem memoryOfBytes_wf (bs : List Byte) : (memoryOfBytes 0 bs).wf = true := memoryOfBytes_from bs 0

theorem read_below : ∀ {m : Memory} {lo a : Nat}, memoryFrom lo m = true → a < lo → Memory.read m a = unlistedByte
  | [], _, _, _, _ => rfl
  | c :: cs, lo, a, hm, h => by
    simp only [memoryFrom, Bool.and_eq_true, decide_eq_true_eq] at hm
    unfold Memory.read
    rw [if_neg (by omega)]
    exact read_below hm.2 (by omega)

theorem read_consCell {a x : Nat} {b : Byte} {m : Memory} (hm : memoryFrom (a + 1) m = true) :
    Memory.read (consCell a b m) x = if x = a then b else Memory.read m x := by
  unfold consCell
  by_cases hb : b = unlistedByte
  · rw [if_pos hb]
    split
    · subst_vars; exact read_below hm (by omega)
    · rfl
  · rw [if_neg hb, Memory.read]
    by_cases h : a = x
    · simp [h]
    · rw [if_neg h, if_neg (Ne.symm h)]

theorem read_write_from {a x : Nat} {b : Byte} :
    ∀ {m : Memory} {lo : Nat}, memoryFrom lo m = true →
      Memory.read (Memory.write m a b) x = if x = a then b else Memory.read m x
  | [], _, _ => by simpa [Memory.write] using read_consCell (a := a) (x := x) (b := b) (m := []) rfl
  | c :: cs, lo, hm => by
    simp only [memoryFrom, Bool.and_eq_true, decide_eq_true_eq] at hm
    obtain ⟨⟨h1, h2⟩, h3⟩ := hm
    unfold Memory.write
    split
    · exact read_consCell (by simp [memoryFrom, h2, h3]; omega)
    · split
      · subst_vars
        rw [read_consCell h3]
        by_cases h : x = c.1
        · simp [h]
        · simp [h, Memory.read, Ne.symm h]
      · rw [Memory.read, read_write_from h3]
        by_cases hx : c.1 = x
        · subst hx; simp [Memory.read, Ne.symm ‹¬ a = c.1›]
        · simp [Memory.read, hx]

/-- A read after a write of a canonical memory. -/
theorem read_write {m : Memory} (h : m.wf = true) (a x : Nat) (b : Byte) :
    (m.write a b).read x = if x = a then b else m.read x := read_write_from h

/-- A read after a word write of a canonical memory. -/
theorem read_writeWord {m : Memory} (h : m.wf = true) (a x : Nat) (w : Word) :
    (m.writeWord a w).read x = if a ≤ x ∧ x < a + 4 then wordByte w (x - a) else m.read x := by
  unfold Memory.writeWord
  rw [read_write (write_wf _ _ (write_wf _ _ (write_wf _ _ h))), read_write (write_wf _ _ (write_wf _ _ h)),
    read_write (write_wf _ _ h), read_write h]
  by_cases h3 : x = a + 3
  · simp [h3]
  by_cases h2 : x = a + 2
  · simp [h2]
  by_cases h1 : x = a + 1
  · simp [h1]
  by_cases h0 : x = a
  · simp [h0]
  rw [if_neg h3, if_neg h2, if_neg h1, if_neg h0, if_neg (by omega)]

/-- The memory of a list of bytes reads back the bytes, and 0 past them. -/
theorem read_memoryOfBytes (bs : List Byte) :
    ∀ lo x, Memory.read (memoryOfBytes lo bs) x = if lo ≤ x then bs.getD (x - lo) 0 else 0 := by
  induction bs with
  | nil => intro lo x; simp [memoryOfBytes, Memory.read, unlistedByte]
  | cons b bs ih =>
    intro lo x
    rw [memoryOfBytes, read_consCell (memoryOfBytes_from bs (lo + 1)), ih]
    by_cases h : x = lo
    · simp [h]
    · by_cases h2 : lo ≤ x
      · have h3 : x - lo = (x - (lo + 1)) + 1 := by omega
        rw [if_neg h, if_pos (by omega), if_pos h2, h3, List.getD_cons_succ]
      · rw [if_neg h, if_neg (by omega), if_neg h2]

/-- Equal canonical memories are equal data: they read the same everywhere only if they are the same list. -/
theorem memory_ext : ∀ {m m' : Memory} {lo : Nat}, memoryFrom lo m = true → memoryFrom lo m' = true →
    (∀ a, m.read a = m'.read a) → m = m'
  | [], [], _, _, _, _ => rfl
  | [], c :: cs, lo, _, h', h => by
    simp only [memoryFrom, Bool.and_eq_true, decide_eq_true_eq, bne_iff_ne] at h'
    have := h c.1
    simp [Memory.read] at this
    exact absurd this.symm h'.1.2
  | c :: cs, [], lo, h', _, h => by
    simp only [memoryFrom, Bool.and_eq_true, decide_eq_true_eq, bne_iff_ne] at h'
    have := h c.1
    simp [Memory.read] at this
    exact absurd this h'.1.2
  | c :: cs, d :: ds, lo, h1, h2, h => by
    simp only [memoryFrom, Bool.and_eq_true, decide_eq_true_eq, bne_iff_ne] at h1 h2
    obtain ⟨⟨_, hc⟩, hcs⟩ := h1
    obtain ⟨⟨_, hd⟩, hds⟩ := h2
    have key : c.1 = d.1 := by
      rcases Nat.lt_trichotomy c.1 d.1 with hlt | heq | hgt
      · have := h c.1
        rw [Memory.read, if_pos rfl, Memory.read, if_neg (by omega), read_below hds (by omega)] at this
        exact absurd this hc
      · exact heq
      · have := h d.1
        rw [Memory.read, if_neg (by omega), read_below hcs (by omega), Memory.read, if_pos rfl] at this
        exact absurd this.symm hd
    have hval : c.2 = d.2 := by
      have := h c.1
      rwa [Memory.read, if_pos rfl, Memory.read, if_pos key.symm] at this
    have htail : cs = ds := by
      rw [← key] at hds
      refine memory_ext hcs hds fun a => ?_
      have := h a
      by_cases ha : c.1 = a
      · rw [read_below hcs (by omega), read_below hds (by omega)]
      · rwa [Memory.read, if_neg ha, Memory.read, if_neg (by omega)] at this
    rw [htail, Prod.ext key hval]

end Sys2Proof.Machine
end

