-- ==== Sys2Proof/Laws/State.lean ====
section
/-! SUPPORT. One lemma per field per state update, so that no later proof unfolds a record update. -/

namespace Sys2Proof.Machine

@[simp] theorem emit_mode (r : Response) (s : State) : (emit r s).mode = s.mode := rfl
@[simp] theorem emit_phase (r : Response) (s : State) : (emit r s).phase = s.phase := rfl
@[simp] theorem emit_sel (r : Response) (s : State) : (emit r s).sel = s.sel := rfl
@[simp] theorem emit_qscale (r : Response) (s : State) : (emit r s).qscale = s.qscale := rfl
@[simp] theorem emit_mbCount (r : Response) (s : State) : (emit r s).mbCount = s.mbCount := rfl
@[simp] theorem emit_len (r : Response) (s : State) : (emit r s).len = s.len := rfl
@[simp] theorem emit_front (r : Response) (s : State) : (emit r s).front = s.front := rfl
@[simp] theorem emit_mid (r : Response) (s : State) : (emit r s).mid = s.mid := rfl
@[simp] theorem emit_back (r : Response) (s : State) : (emit r s).back = s.back := rfl
@[simp] theorem emit_rem (r : Response) (s : State) : (emit r s).rem = s.rem := rfl
@[simp] theorem emit_p (r : Response) (s : State) : (emit r s).p = s.p := rfl
@[simp] theorem emit_predCr (r : Response) (s : State) : (emit r s).predCr = s.predCr := rfl
@[simp] theorem emit_predCb (r : Response) (s : State) : (emit r s).predCb = s.predCb := rfl
@[simp] theorem emit_predY1 (r : Response) (s : State) : (emit r s).predY1 = s.predY1 := rfl
@[simp] theorem emit_predY3 (r : Response) (s : State) : (emit r s).predY3 = s.predY3 := rfl
@[simp] theorem emit_cnt1 (r : Response) (s : State) : (emit r s).cnt1 = s.cnt1 := rfl
@[simp] theorem emit_cnt2 (r : Response) (s : State) : (emit r s).cnt2 = s.cnt2 := rfl
@[simp] theorem emit_cnt3 (r : Response) (s : State) : (emit r s).cnt3 = s.cnt3 := rfl
@[simp] theorem emit_mbIdx (r : Response) (s : State) : (emit r s).mbIdx = s.mbIdx := rfl
@[simp] theorem emit_blk (r : Response) (s : State) : (emit r s).blk = s.blk := rfl
@[simp] theorem emit_codeIdx (r : Response) (s : State) : (emit r s).codeIdx = s.codeIdx := rfl
@[simp] theorem emit_quota (r : Response) (s : State) : (emit r s).quota = s.quota := rfl
@[simp] theorem emit_overrun (r : Response) (s : State) : (emit r s).overrun = s.overrun := rfl
@[simp] theorem emit_errCause (r : Response) (s : State) : (emit r s).errCause = s.errCause := rfl
@[simp] theorem emit_errTable (r : Response) (s : State) : (emit r s).errTable = s.errTable := rfl
@[simp] theorem emit_errPos (r : Response) (s : State) : (emit r s).errPos = s.errPos := rfl
@[simp] theorem emit_acc (r : Response) (s : State) : (emit r s).acc = s.acc := rfl
@[simp] theorem emit_accCnt (r : Response) (s : State) : (emit r s).accCnt = s.accCnt := rfl
@[simp] theorem emit_outLen (r : Response) (s : State) : (emit r s).outLen = s.outLen := rfl
@[simp] theorem emit_ebuf (r : Response) (s : State) : (emit r s).ebuf = s.ebuf := rfl
@[simp] theorem emit_nbuf (r : Response) (s : State) : (emit r s).nbuf = s.nbuf := rfl
@[simp] theorem emit_buf (r : Response) (s : State) : (emit r s).buf = s.buf := rfl
@[simp] theorem emit_out (r : Response) (s : State) : (emit r s).out = s.out := rfl
@[simp] theorem emit_build (r : Response) (s : State) : (emit r s).build = s.build := rfl
@[simp] theorem emit_port (r : Response) (s : State) : (emit r s).port = s.port := rfl
@[simp] theorem emit_resp (r : Response) (s : State) : (emit r s).resp = some r := rfl

@[simp] theorem raiseError_mode (c : ErrCause) (tb : ErrTable) (ps : BitVec 35) (s : State) : (raiseError c tb ps s).mode = s.mode := rfl
@[simp] theorem raiseError_phase (c : ErrCause) (tb : ErrTable) (ps : BitVec 35) (s : State) : (raiseError c tb ps s).phase = .error := rfl
@[simp] theorem raiseError_sel (c : ErrCause) (tb : ErrTable) (ps : BitVec 35) (s : State) : (raiseError c tb ps s).sel = s.sel := rfl
@[simp] theorem raiseError_qscale (c : ErrCause) (tb : ErrTable) (ps : BitVec 35) (s : State) : (raiseError c tb ps s).qscale = s.qscale := rfl
@[simp] theorem raiseError_mbCount (c : ErrCause) (tb : ErrTable) (ps : BitVec 35) (s : State) : (raiseError c tb ps s).mbCount = s.mbCount := rfl
@[simp] theorem raiseError_len (c : ErrCause) (tb : ErrTable) (ps : BitVec 35) (s : State) : (raiseError c tb ps s).len = s.len := rfl
@[simp] theorem raiseError_front (c : ErrCause) (tb : ErrTable) (ps : BitVec 35) (s : State) : (raiseError c tb ps s).front = s.front := rfl
@[simp] theorem raiseError_mid (c : ErrCause) (tb : ErrTable) (ps : BitVec 35) (s : State) : (raiseError c tb ps s).mid = s.mid := rfl
@[simp] theorem raiseError_back (c : ErrCause) (tb : ErrTable) (ps : BitVec 35) (s : State) : (raiseError c tb ps s).back = s.back := rfl
@[simp] theorem raiseError_rem (c : ErrCause) (tb : ErrTable) (ps : BitVec 35) (s : State) : (raiseError c tb ps s).rem = s.rem := rfl
@[simp] theorem raiseError_p (c : ErrCause) (tb : ErrTable) (ps : BitVec 35) (s : State) : (raiseError c tb ps s).p = s.p := rfl
@[simp] theorem raiseError_predCr (c : ErrCause) (tb : ErrTable) (ps : BitVec 35) (s : State) : (raiseError c tb ps s).predCr = s.predCr := rfl
@[simp] theorem raiseError_predCb (c : ErrCause) (tb : ErrTable) (ps : BitVec 35) (s : State) : (raiseError c tb ps s).predCb = s.predCb := rfl
@[simp] theorem raiseError_predY1 (c : ErrCause) (tb : ErrTable) (ps : BitVec 35) (s : State) : (raiseError c tb ps s).predY1 = s.predY1 := rfl
@[simp] theorem raiseError_predY3 (c : ErrCause) (tb : ErrTable) (ps : BitVec 35) (s : State) : (raiseError c tb ps s).predY3 = s.predY3 := rfl
@[simp] theorem raiseError_cnt1 (c : ErrCause) (tb : ErrTable) (ps : BitVec 35) (s : State) : (raiseError c tb ps s).cnt1 = s.cnt1 := rfl
@[simp] theorem raiseError_cnt2 (c : ErrCause) (tb : ErrTable) (ps : BitVec 35) (s : State) : (raiseError c tb ps s).cnt2 = s.cnt2 := rfl
@[simp] theorem raiseError_cnt3 (c : ErrCause) (tb : ErrTable) (ps : BitVec 35) (s : State) : (raiseError c tb ps s).cnt3 = s.cnt3 := rfl
@[simp] theorem raiseError_mbIdx (c : ErrCause) (tb : ErrTable) (ps : BitVec 35) (s : State) : (raiseError c tb ps s).mbIdx = s.mbIdx := rfl
@[simp] theorem raiseError_blk (c : ErrCause) (tb : ErrTable) (ps : BitVec 35) (s : State) : (raiseError c tb ps s).blk = s.blk := rfl
@[simp] theorem raiseError_codeIdx (c : ErrCause) (tb : ErrTable) (ps : BitVec 35) (s : State) : (raiseError c tb ps s).codeIdx = s.codeIdx := rfl
@[simp] theorem raiseError_quota (c : ErrCause) (tb : ErrTable) (ps : BitVec 35) (s : State) : (raiseError c tb ps s).quota = s.quota := rfl
@[simp] theorem raiseError_overrun (c : ErrCause) (tb : ErrTable) (ps : BitVec 35) (s : State) : (raiseError c tb ps s).overrun = s.overrun := rfl
@[simp] theorem raiseError_errCause (c : ErrCause) (tb : ErrTable) (ps : BitVec 35) (s : State) : (raiseError c tb ps s).errCause = c := rfl
@[simp] theorem raiseError_errTable (c : ErrCause) (tb : ErrTable) (ps : BitVec 35) (s : State) : (raiseError c tb ps s).errTable = tb := rfl
@[simp] theorem raiseError_errPos (c : ErrCause) (tb : ErrTable) (ps : BitVec 35) (s : State) : (raiseError c tb ps s).errPos = ps := rfl
@[simp] theorem raiseError_acc (c : ErrCause) (tb : ErrTable) (ps : BitVec 35) (s : State) : (raiseError c tb ps s).acc = s.acc := rfl
@[simp] theorem raiseError_accCnt (c : ErrCause) (tb : ErrTable) (ps : BitVec 35) (s : State) : (raiseError c tb ps s).accCnt = s.accCnt := rfl
@[simp] theorem raiseError_outLen (c : ErrCause) (tb : ErrTable) (ps : BitVec 35) (s : State) : (raiseError c tb ps s).outLen = s.outLen := rfl
@[simp] theorem raiseError_ebuf (c : ErrCause) (tb : ErrTable) (ps : BitVec 35) (s : State) : (raiseError c tb ps s).ebuf = s.ebuf := rfl
@[simp] theorem raiseError_nbuf (c : ErrCause) (tb : ErrTable) (ps : BitVec 35) (s : State) : (raiseError c tb ps s).nbuf = s.nbuf := rfl
@[simp] theorem raiseError_buf (c : ErrCause) (tb : ErrTable) (ps : BitVec 35) (s : State) : (raiseError c tb ps s).buf = s.buf := rfl
@[simp] theorem raiseError_out (c : ErrCause) (tb : ErrTable) (ps : BitVec 35) (s : State) : (raiseError c tb ps s).out = s.out := rfl
@[simp] theorem raiseError_build (c : ErrCause) (tb : ErrTable) (ps : BitVec 35) (s : State) : (raiseError c tb ps s).build = s.build := rfl
@[simp] theorem raiseError_port (c : ErrCause) (tb : ErrTable) (ps : BitVec 35) (s : State) : (raiseError c tb ps s).port = s.port := rfl
@[simp] theorem raiseError_resp (c : ErrCause) (tb : ErrTable) (ps : BitVec 35) (s : State) : (raiseError c tb ps s).resp = some (errorResponse c tb ps) := rfl

@[simp] theorem clearErrors_mode (s : State) : (clearErrors s).mode = s.mode := rfl
@[simp] theorem clearErrors_phase (s : State) : (clearErrors s).phase = s.phase := rfl
@[simp] theorem clearErrors_sel (s : State) : (clearErrors s).sel = s.sel := rfl
@[simp] theorem clearErrors_qscale (s : State) : (clearErrors s).qscale = s.qscale := rfl
@[simp] theorem clearErrors_mbCount (s : State) : (clearErrors s).mbCount = s.mbCount := rfl
@[simp] theorem clearErrors_len (s : State) : (clearErrors s).len = s.len := rfl
@[simp] theorem clearErrors_front (s : State) : (clearErrors s).front = s.front := rfl
@[simp] theorem clearErrors_mid (s : State) : (clearErrors s).mid = s.mid := rfl
@[simp] theorem clearErrors_back (s : State) : (clearErrors s).back = s.back := rfl
@[simp] theorem clearErrors_rem (s : State) : (clearErrors s).rem = s.rem := rfl
@[simp] theorem clearErrors_p (s : State) : (clearErrors s).p = s.p := rfl
@[simp] theorem clearErrors_predCr (s : State) : (clearErrors s).predCr = s.predCr := rfl
@[simp] theorem clearErrors_predCb (s : State) : (clearErrors s).predCb = s.predCb := rfl
@[simp] theorem clearErrors_predY1 (s : State) : (clearErrors s).predY1 = s.predY1 := rfl
@[simp] theorem clearErrors_predY3 (s : State) : (clearErrors s).predY3 = s.predY3 := rfl
@[simp] theorem clearErrors_cnt1 (s : State) : (clearErrors s).cnt1 = s.cnt1 := rfl
@[simp] theorem clearErrors_cnt2 (s : State) : (clearErrors s).cnt2 = s.cnt2 := rfl
@[simp] theorem clearErrors_cnt3 (s : State) : (clearErrors s).cnt3 = s.cnt3 := rfl
@[simp] theorem clearErrors_mbIdx (s : State) : (clearErrors s).mbIdx = s.mbIdx := rfl
@[simp] theorem clearErrors_blk (s : State) : (clearErrors s).blk = s.blk := rfl
@[simp] theorem clearErrors_codeIdx (s : State) : (clearErrors s).codeIdx = s.codeIdx := rfl
@[simp] theorem clearErrors_quota (s : State) : (clearErrors s).quota = s.quota := rfl
@[simp] theorem clearErrors_overrun (s : State) : (clearErrors s).overrun = false := rfl
@[simp] theorem clearErrors_errCause (s : State) : (clearErrors s).errCause = .none := rfl
@[simp] theorem clearErrors_errTable (s : State) : (clearErrors s).errTable = .none := rfl
@[simp] theorem clearErrors_errPos (s : State) : (clearErrors s).errPos = 0 := rfl
@[simp] theorem clearErrors_acc (s : State) : (clearErrors s).acc = s.acc := rfl
@[simp] theorem clearErrors_accCnt (s : State) : (clearErrors s).accCnt = s.accCnt := rfl
@[simp] theorem clearErrors_outLen (s : State) : (clearErrors s).outLen = s.outLen := rfl
@[simp] theorem clearErrors_ebuf (s : State) : (clearErrors s).ebuf = s.ebuf := rfl
@[simp] theorem clearErrors_nbuf (s : State) : (clearErrors s).nbuf = s.nbuf := rfl
@[simp] theorem clearErrors_buf (s : State) : (clearErrors s).buf = s.buf := rfl
@[simp] theorem clearErrors_out (s : State) : (clearErrors s).out = s.out := rfl
@[simp] theorem clearErrors_build (s : State) : (clearErrors s).build = s.build := rfl
@[simp] theorem clearErrors_port (s : State) : (clearErrors s).port = s.port := rfl
@[simp] theorem clearErrors_resp (s : State) : (clearErrors s).resp = s.resp := rfl

@[simp] theorem zeroPreds_mode (s : State) : (zeroPreds s).mode = s.mode := rfl
@[simp] theorem zeroPreds_phase (s : State) : (zeroPreds s).phase = s.phase := rfl
@[simp] theorem zeroPreds_sel (s : State) : (zeroPreds s).sel = s.sel := rfl
@[simp] theorem zeroPreds_qscale (s : State) : (zeroPreds s).qscale = s.qscale := rfl
@[simp] theorem zeroPreds_mbCount (s : State) : (zeroPreds s).mbCount = s.mbCount := rfl
@[simp] theorem zeroPreds_len (s : State) : (zeroPreds s).len = s.len := rfl
@[simp] theorem zeroPreds_front (s : State) : (zeroPreds s).front = s.front := rfl
@[simp] theorem zeroPreds_mid (s : State) : (zeroPreds s).mid = s.mid := rfl
@[simp] theorem zeroPreds_back (s : State) : (zeroPreds s).back = s.back := rfl
@[simp] theorem zeroPreds_rem (s : State) : (zeroPreds s).rem = s.rem := rfl
@[simp] theorem zeroPreds_p (s : State) : (zeroPreds s).p = s.p := rfl
@[simp] theorem zeroPreds_predCr (s : State) : (zeroPreds s).predCr = 0 := rfl
@[simp] theorem zeroPreds_predCb (s : State) : (zeroPreds s).predCb = 0 := rfl
@[simp] theorem zeroPreds_predY1 (s : State) : (zeroPreds s).predY1 = 0 := rfl
@[simp] theorem zeroPreds_predY3 (s : State) : (zeroPreds s).predY3 = 0 := rfl
@[simp] theorem zeroPreds_cnt1 (s : State) : (zeroPreds s).cnt1 = s.cnt1 := rfl
@[simp] theorem zeroPreds_cnt2 (s : State) : (zeroPreds s).cnt2 = s.cnt2 := rfl
@[simp] theorem zeroPreds_cnt3 (s : State) : (zeroPreds s).cnt3 = s.cnt3 := rfl
@[simp] theorem zeroPreds_mbIdx (s : State) : (zeroPreds s).mbIdx = s.mbIdx := rfl
@[simp] theorem zeroPreds_blk (s : State) : (zeroPreds s).blk = s.blk := rfl
@[simp] theorem zeroPreds_codeIdx (s : State) : (zeroPreds s).codeIdx = s.codeIdx := rfl
@[simp] theorem zeroPreds_quota (s : State) : (zeroPreds s).quota = s.quota := rfl
@[simp] theorem zeroPreds_overrun (s : State) : (zeroPreds s).overrun = s.overrun := rfl
@[simp] theorem zeroPreds_errCause (s : State) : (zeroPreds s).errCause = s.errCause := rfl
@[simp] theorem zeroPreds_errTable (s : State) : (zeroPreds s).errTable = s.errTable := rfl
@[simp] theorem zeroPreds_errPos (s : State) : (zeroPreds s).errPos = s.errPos := rfl
@[simp] theorem zeroPreds_acc (s : State) : (zeroPreds s).acc = s.acc := rfl
@[simp] theorem zeroPreds_accCnt (s : State) : (zeroPreds s).accCnt = s.accCnt := rfl
@[simp] theorem zeroPreds_outLen (s : State) : (zeroPreds s).outLen = s.outLen := rfl
@[simp] theorem zeroPreds_ebuf (s : State) : (zeroPreds s).ebuf = s.ebuf := rfl
@[simp] theorem zeroPreds_nbuf (s : State) : (zeroPreds s).nbuf = s.nbuf := rfl
@[simp] theorem zeroPreds_buf (s : State) : (zeroPreds s).buf = s.buf := rfl
@[simp] theorem zeroPreds_out (s : State) : (zeroPreds s).out = s.out := rfl
@[simp] theorem zeroPreds_build (s : State) : (zeroPreds s).build = s.build := rfl
@[simp] theorem zeroPreds_port (s : State) : (zeroPreds s).port = s.port := rfl
@[simp] theorem zeroPreds_resp (s : State) : (zeroPreds s).resp = s.resp := rfl

@[simp] theorem setPred_mode (q : Pred) (v : Word) (s : State) : (setPred q v s).mode = s.mode := by cases q <;> rfl
@[simp] theorem setPred_phase (q : Pred) (v : Word) (s : State) : (setPred q v s).phase = s.phase := by cases q <;> rfl
@[simp] theorem setPred_sel (q : Pred) (v : Word) (s : State) : (setPred q v s).sel = s.sel := by cases q <;> rfl
@[simp] theorem setPred_qscale (q : Pred) (v : Word) (s : State) : (setPred q v s).qscale = s.qscale := by cases q <;> rfl
@[simp] theorem setPred_mbCount (q : Pred) (v : Word) (s : State) : (setPred q v s).mbCount = s.mbCount := by cases q <;> rfl
@[simp] theorem setPred_len (q : Pred) (v : Word) (s : State) : (setPred q v s).len = s.len := by cases q <;> rfl
@[simp] theorem setPred_front (q : Pred) (v : Word) (s : State) : (setPred q v s).front = s.front := by cases q <;> rfl
@[simp] theorem setPred_mid (q : Pred) (v : Word) (s : State) : (setPred q v s).mid = s.mid := by cases q <;> rfl
@[simp] theorem setPred_back (q : Pred) (v : Word) (s : State) : (setPred q v s).back = s.back := by cases q <;> rfl
@[simp] theorem setPred_rem (q : Pred) (v : Word) (s : State) : (setPred q v s).rem = s.rem := by cases q <;> rfl
@[simp] theorem setPred_p (q : Pred) (v : Word) (s : State) : (setPred q v s).p = s.p := by cases q <;> rfl
@[simp] theorem setPred_cnt1 (q : Pred) (v : Word) (s : State) : (setPred q v s).cnt1 = s.cnt1 := by cases q <;> rfl
@[simp] theorem setPred_cnt2 (q : Pred) (v : Word) (s : State) : (setPred q v s).cnt2 = s.cnt2 := by cases q <;> rfl
@[simp] theorem setPred_cnt3 (q : Pred) (v : Word) (s : State) : (setPred q v s).cnt3 = s.cnt3 := by cases q <;> rfl
@[simp] theorem setPred_mbIdx (q : Pred) (v : Word) (s : State) : (setPred q v s).mbIdx = s.mbIdx := by cases q <;> rfl
@[simp] theorem setPred_blk (q : Pred) (v : Word) (s : State) : (setPred q v s).blk = s.blk := by cases q <;> rfl
@[simp] theorem setPred_codeIdx (q : Pred) (v : Word) (s : State) : (setPred q v s).codeIdx = s.codeIdx := by cases q <;> rfl
@[simp] theorem setPred_quota (q : Pred) (v : Word) (s : State) : (setPred q v s).quota = s.quota := by cases q <;> rfl
@[simp] theorem setPred_overrun (q : Pred) (v : Word) (s : State) : (setPred q v s).overrun = s.overrun := by cases q <;> rfl
@[simp] theorem setPred_errCause (q : Pred) (v : Word) (s : State) : (setPred q v s).errCause = s.errCause := by cases q <;> rfl
@[simp] theorem setPred_errTable (q : Pred) (v : Word) (s : State) : (setPred q v s).errTable = s.errTable := by cases q <;> rfl
@[simp] theorem setPred_errPos (q : Pred) (v : Word) (s : State) : (setPred q v s).errPos = s.errPos := by cases q <;> rfl
@[simp] theorem setPred_acc (q : Pred) (v : Word) (s : State) : (setPred q v s).acc = s.acc := by cases q <;> rfl
@[simp] theorem setPred_accCnt (q : Pred) (v : Word) (s : State) : (setPred q v s).accCnt = s.accCnt := by cases q <;> rfl
@[simp] theorem setPred_outLen (q : Pred) (v : Word) (s : State) : (setPred q v s).outLen = s.outLen := by cases q <;> rfl
@[simp] theorem setPred_ebuf (q : Pred) (v : Word) (s : State) : (setPred q v s).ebuf = s.ebuf := by cases q <;> rfl
@[simp] theorem setPred_nbuf (q : Pred) (v : Word) (s : State) : (setPred q v s).nbuf = s.nbuf := by cases q <;> rfl
@[simp] theorem setPred_buf (q : Pred) (v : Word) (s : State) : (setPred q v s).buf = s.buf := by cases q <;> rfl
@[simp] theorem setPred_out (q : Pred) (v : Word) (s : State) : (setPred q v s).out = s.out := by cases q <;> rfl
@[simp] theorem setPred_build (q : Pred) (v : Word) (s : State) : (setPred q v s).build = s.build := by cases q <;> rfl
@[simp] theorem setPred_port (q : Pred) (v : Word) (s : State) : (setPred q v s).port = s.port := by cases q <;> rfl
@[simp] theorem setPred_resp (q : Pred) (v : Word) (s : State) : (setPred q v s).resp = s.resp := by cases q <;> rfl

@[simp] theorem writeChain_mode (dc : Word) (s : State) : (writeChain dc s).mode = s.mode := by unfold writeChain; split <;> simp
@[simp] theorem writeChain_phase (dc : Word) (s : State) : (writeChain dc s).phase = s.phase := by unfold writeChain; split <;> simp
@[simp] theorem writeChain_sel (dc : Word) (s : State) : (writeChain dc s).sel = s.sel := by unfold writeChain; split <;> simp
@[simp] theorem writeChain_qscale (dc : Word) (s : State) : (writeChain dc s).qscale = s.qscale := by unfold writeChain; split <;> simp
@[simp] theorem writeChain_mbCount (dc : Word) (s : State) : (writeChain dc s).mbCount = s.mbCount := by unfold writeChain; split <;> simp
@[simp] theorem writeChain_len (dc : Word) (s : State) : (writeChain dc s).len = s.len := by unfold writeChain; split <;> simp
@[simp] theorem writeChain_front (dc : Word) (s : State) : (writeChain dc s).front = s.front := by unfold writeChain; split <;> simp
@[simp] theorem writeChain_mid (dc : Word) (s : State) : (writeChain dc s).mid = s.mid := by unfold writeChain; split <;> simp
@[simp] theorem writeChain_back (dc : Word) (s : State) : (writeChain dc s).back = s.back := by unfold writeChain; split <;> simp
@[simp] theorem writeChain_rem (dc : Word) (s : State) : (writeChain dc s).rem = s.rem := by unfold writeChain; split <;> simp
@[simp] theorem writeChain_p (dc : Word) (s : State) : (writeChain dc s).p = s.p := by unfold writeChain; split <;> simp
@[simp] theorem writeChain_cnt1 (dc : Word) (s : State) : (writeChain dc s).cnt1 = s.cnt1 := by unfold writeChain; split <;> simp
@[simp] theorem writeChain_cnt2 (dc : Word) (s : State) : (writeChain dc s).cnt2 = s.cnt2 := by unfold writeChain; split <;> simp
@[simp] theorem writeChain_cnt3 (dc : Word) (s : State) : (writeChain dc s).cnt3 = s.cnt3 := by unfold writeChain; split <;> simp
@[simp] theorem writeChain_mbIdx (dc : Word) (s : State) : (writeChain dc s).mbIdx = s.mbIdx := by unfold writeChain; split <;> simp
@[simp] theorem writeChain_blk (dc : Word) (s : State) : (writeChain dc s).blk = s.blk := by unfold writeChain; split <;> simp
@[simp] theorem writeChain_codeIdx (dc : Word) (s : State) : (writeChain dc s).codeIdx = s.codeIdx := by unfold writeChain; split <;> simp
@[simp] theorem writeChain_quota (dc : Word) (s : State) : (writeChain dc s).quota = s.quota := by unfold writeChain; split <;> simp
@[simp] theorem writeChain_overrun (dc : Word) (s : State) : (writeChain dc s).overrun = s.overrun := by unfold writeChain; split <;> simp
@[simp] theorem writeChain_errCause (dc : Word) (s : State) : (writeChain dc s).errCause = s.errCause := by unfold writeChain; split <;> simp
@[simp] theorem writeChain_errTable (dc : Word) (s : State) : (writeChain dc s).errTable = s.errTable := by unfold writeChain; split <;> simp
@[simp] theorem writeChain_errPos (dc : Word) (s : State) : (writeChain dc s).errPos = s.errPos := by unfold writeChain; split <;> simp
@[simp] theorem writeChain_acc (dc : Word) (s : State) : (writeChain dc s).acc = s.acc := by unfold writeChain; split <;> simp
@[simp] theorem writeChain_accCnt (dc : Word) (s : State) : (writeChain dc s).accCnt = s.accCnt := by unfold writeChain; split <;> simp
@[simp] theorem writeChain_outLen (dc : Word) (s : State) : (writeChain dc s).outLen = s.outLen := by unfold writeChain; split <;> simp
@[simp] theorem writeChain_ebuf (dc : Word) (s : State) : (writeChain dc s).ebuf = s.ebuf := by unfold writeChain; split <;> simp
@[simp] theorem writeChain_nbuf (dc : Word) (s : State) : (writeChain dc s).nbuf = s.nbuf := by unfold writeChain; split <;> simp
@[simp] theorem writeChain_buf (dc : Word) (s : State) : (writeChain dc s).buf = s.buf := by unfold writeChain; split <;> simp
@[simp] theorem writeChain_out (dc : Word) (s : State) : (writeChain dc s).out = s.out := by unfold writeChain; split <;> simp
@[simp] theorem writeChain_build (dc : Word) (s : State) : (writeChain dc s).build = s.build := by unfold writeChain; split <;> simp
@[simp] theorem writeChain_port (dc : Word) (s : State) : (writeChain dc s).port = s.port := by unfold writeChain; split <;> simp
@[simp] theorem writeChain_resp (dc : Word) (s : State) : (writeChain dc s).resp = s.resp := by unfold writeChain; split <;> simp

@[simp] theorem decCnt_mode (k : Role) (s : State) : (decCnt k s).mode = s.mode := by cases k <;> rfl
@[simp] theorem decCnt_phase (k : Role) (s : State) : (decCnt k s).phase = s.phase := by cases k <;> rfl
@[simp] theorem decCnt_sel (k : Role) (s : State) : (decCnt k s).sel = s.sel := by cases k <;> rfl
@[simp] theorem decCnt_qscale (k : Role) (s : State) : (decCnt k s).qscale = s.qscale := by cases k <;> rfl
@[simp] theorem decCnt_mbCount (k : Role) (s : State) : (decCnt k s).mbCount = s.mbCount := by cases k <;> rfl
@[simp] theorem decCnt_len (k : Role) (s : State) : (decCnt k s).len = s.len := by cases k <;> rfl
@[simp] theorem decCnt_front (k : Role) (s : State) : (decCnt k s).front = s.front := by cases k <;> rfl
@[simp] theorem decCnt_mid (k : Role) (s : State) : (decCnt k s).mid = s.mid := by cases k <;> rfl
@[simp] theorem decCnt_back (k : Role) (s : State) : (decCnt k s).back = s.back := by cases k <;> rfl
@[simp] theorem decCnt_rem (k : Role) (s : State) : (decCnt k s).rem = s.rem := by cases k <;> rfl
@[simp] theorem decCnt_p (k : Role) (s : State) : (decCnt k s).p = s.p := by cases k <;> rfl
@[simp] theorem decCnt_predCr (k : Role) (s : State) : (decCnt k s).predCr = s.predCr := by cases k <;> rfl
@[simp] theorem decCnt_predCb (k : Role) (s : State) : (decCnt k s).predCb = s.predCb := by cases k <;> rfl
@[simp] theorem decCnt_predY1 (k : Role) (s : State) : (decCnt k s).predY1 = s.predY1 := by cases k <;> rfl
@[simp] theorem decCnt_predY3 (k : Role) (s : State) : (decCnt k s).predY3 = s.predY3 := by cases k <;> rfl
@[simp] theorem decCnt_mbIdx (k : Role) (s : State) : (decCnt k s).mbIdx = s.mbIdx := by cases k <;> rfl
@[simp] theorem decCnt_blk (k : Role) (s : State) : (decCnt k s).blk = s.blk := by cases k <;> rfl
@[simp] theorem decCnt_codeIdx (k : Role) (s : State) : (decCnt k s).codeIdx = s.codeIdx := by cases k <;> rfl
@[simp] theorem decCnt_quota (k : Role) (s : State) : (decCnt k s).quota = s.quota := by cases k <;> rfl
@[simp] theorem decCnt_overrun (k : Role) (s : State) : (decCnt k s).overrun = s.overrun := by cases k <;> rfl
@[simp] theorem decCnt_errCause (k : Role) (s : State) : (decCnt k s).errCause = s.errCause := by cases k <;> rfl
@[simp] theorem decCnt_errTable (k : Role) (s : State) : (decCnt k s).errTable = s.errTable := by cases k <;> rfl
@[simp] theorem decCnt_errPos (k : Role) (s : State) : (decCnt k s).errPos = s.errPos := by cases k <;> rfl
@[simp] theorem decCnt_acc (k : Role) (s : State) : (decCnt k s).acc = s.acc := by cases k <;> rfl
@[simp] theorem decCnt_accCnt (k : Role) (s : State) : (decCnt k s).accCnt = s.accCnt := by cases k <;> rfl
@[simp] theorem decCnt_outLen (k : Role) (s : State) : (decCnt k s).outLen = s.outLen := by cases k <;> rfl
@[simp] theorem decCnt_ebuf (k : Role) (s : State) : (decCnt k s).ebuf = s.ebuf := by cases k <;> rfl
@[simp] theorem decCnt_nbuf (k : Role) (s : State) : (decCnt k s).nbuf = s.nbuf := by cases k <;> rfl
@[simp] theorem decCnt_buf (k : Role) (s : State) : (decCnt k s).buf = s.buf := by cases k <;> rfl
@[simp] theorem decCnt_out (k : Role) (s : State) : (decCnt k s).out = s.out := by cases k <;> rfl
@[simp] theorem decCnt_build (k : Role) (s : State) : (decCnt k s).build = s.build := by cases k <;> rfl
@[simp] theorem decCnt_port (k : Role) (s : State) : (decCnt k s).port = s.port := by cases k <;> rfl
@[simp] theorem decCnt_resp (k : Role) (s : State) : (decCnt k s).resp = s.resp := by cases k <;> rfl

@[simp] theorem loadCounts_mode (c : Counts) (s : State) : (loadCounts c s).mode = s.mode := rfl
@[simp] theorem loadCounts_phase (c : Counts) (s : State) : (loadCounts c s).phase = s.phase := rfl
@[simp] theorem loadCounts_sel (c : Counts) (s : State) : (loadCounts c s).sel = s.sel := rfl
@[simp] theorem loadCounts_qscale (c : Counts) (s : State) : (loadCounts c s).qscale = s.qscale := rfl
@[simp] theorem loadCounts_mbCount (c : Counts) (s : State) : (loadCounts c s).mbCount = s.mbCount := rfl
@[simp] theorem loadCounts_len (c : Counts) (s : State) : (loadCounts c s).len = s.len := rfl
@[simp] theorem loadCounts_front (c : Counts) (s : State) : (loadCounts c s).front = s.front := rfl
@[simp] theorem loadCounts_mid (c : Counts) (s : State) : (loadCounts c s).mid = s.mid := rfl
@[simp] theorem loadCounts_back (c : Counts) (s : State) : (loadCounts c s).back = s.back := rfl
@[simp] theorem loadCounts_rem (c : Counts) (s : State) : (loadCounts c s).rem = s.rem := rfl
@[simp] theorem loadCounts_p (c : Counts) (s : State) : (loadCounts c s).p = s.p := rfl
@[simp] theorem loadCounts_predCr (c : Counts) (s : State) : (loadCounts c s).predCr = s.predCr := rfl
@[simp] theorem loadCounts_predCb (c : Counts) (s : State) : (loadCounts c s).predCb = s.predCb := rfl
@[simp] theorem loadCounts_predY1 (c : Counts) (s : State) : (loadCounts c s).predY1 = s.predY1 := rfl
@[simp] theorem loadCounts_predY3 (c : Counts) (s : State) : (loadCounts c s).predY3 = s.predY3 := rfl
@[simp] theorem loadCounts_cnt1 (c : Counts) (s : State) : (loadCounts c s).cnt1 = countOfPayload c.c1 := rfl
@[simp] theorem loadCounts_cnt2 (c : Counts) (s : State) : (loadCounts c s).cnt2 = countOfPayload c.c2 := rfl
@[simp] theorem loadCounts_cnt3 (c : Counts) (s : State) : (loadCounts c s).cnt3 = countOfPayload c.c3 := rfl
@[simp] theorem loadCounts_mbIdx (c : Counts) (s : State) : (loadCounts c s).mbIdx = s.mbIdx := rfl
@[simp] theorem loadCounts_blk (c : Counts) (s : State) : (loadCounts c s).blk = s.blk := rfl
@[simp] theorem loadCounts_codeIdx (c : Counts) (s : State) : (loadCounts c s).codeIdx = s.codeIdx := rfl
@[simp] theorem loadCounts_quota (c : Counts) (s : State) : (loadCounts c s).quota = s.quota := rfl
@[simp] theorem loadCounts_overrun (c : Counts) (s : State) : (loadCounts c s).overrun = s.overrun := rfl
@[simp] theorem loadCounts_errCause (c : Counts) (s : State) : (loadCounts c s).errCause = s.errCause := rfl
@[simp] theorem loadCounts_errTable (c : Counts) (s : State) : (loadCounts c s).errTable = s.errTable := rfl
@[simp] theorem loadCounts_errPos (c : Counts) (s : State) : (loadCounts c s).errPos = s.errPos := rfl
@[simp] theorem loadCounts_acc (c : Counts) (s : State) : (loadCounts c s).acc = s.acc := rfl
@[simp] theorem loadCounts_accCnt (c : Counts) (s : State) : (loadCounts c s).accCnt = s.accCnt := rfl
@[simp] theorem loadCounts_outLen (c : Counts) (s : State) : (loadCounts c s).outLen = s.outLen := rfl
@[simp] theorem loadCounts_ebuf (c : Counts) (s : State) : (loadCounts c s).ebuf = s.ebuf := rfl
@[simp] theorem loadCounts_nbuf (c : Counts) (s : State) : (loadCounts c s).nbuf = s.nbuf := rfl
@[simp] theorem loadCounts_buf (c : Counts) (s : State) : (loadCounts c s).buf = s.buf := rfl
@[simp] theorem loadCounts_out (c : Counts) (s : State) : (loadCounts c s).out = s.out := rfl
@[simp] theorem loadCounts_build (c : Counts) (s : State) : (loadCounts c s).build = s.build := rfl
@[simp] theorem loadCounts_port (c : Counts) (s : State) : (loadCounts c s).port = s.port := rfl
@[simp] theorem loadCounts_resp (c : Counts) (s : State) : (loadCounts c s).resp = s.resp := rfl

@[simp] theorem normalize_mode (s : State) : (normalize s).mode = s.mode := by unfold normalize; split <;> rfl
@[simp] theorem normalize_sel (s : State) : (normalize s).sel = s.sel := by unfold normalize; split <;> rfl
@[simp] theorem normalize_qscale (s : State) : (normalize s).qscale = s.qscale := by unfold normalize; split <;> rfl
@[simp] theorem normalize_mbCount (s : State) : (normalize s).mbCount = s.mbCount := by unfold normalize; split <;> rfl
@[simp] theorem normalize_len (s : State) : (normalize s).len = s.len := by unfold normalize; split <;> rfl
@[simp] theorem normalize_front (s : State) : (normalize s).front = s.front := by unfold normalize; split <;> rfl
@[simp] theorem normalize_mid (s : State) : (normalize s).mid = s.mid := by unfold normalize; split <;> rfl
@[simp] theorem normalize_back (s : State) : (normalize s).back = s.back := by unfold normalize; split <;> rfl
@[simp] theorem normalize_rem (s : State) : (normalize s).rem = s.rem := by unfold normalize; split <;> rfl
@[simp] theorem normalize_p (s : State) : (normalize s).p = s.p := by unfold normalize; split <;> rfl
@[simp] theorem normalize_predCr (s : State) : (normalize s).predCr = s.predCr := by unfold normalize; split <;> rfl
@[simp] theorem normalize_predCb (s : State) : (normalize s).predCb = s.predCb := by unfold normalize; split <;> rfl
@[simp] theorem normalize_predY1 (s : State) : (normalize s).predY1 = s.predY1 := by unfold normalize; split <;> rfl
@[simp] theorem normalize_predY3 (s : State) : (normalize s).predY3 = s.predY3 := by unfold normalize; split <;> rfl
@[simp] theorem normalize_cnt1 (s : State) : (normalize s).cnt1 = s.cnt1 := by unfold normalize; split <;> rfl
@[simp] theorem normalize_cnt2 (s : State) : (normalize s).cnt2 = s.cnt2 := by unfold normalize; split <;> rfl
@[simp] theorem normalize_cnt3 (s : State) : (normalize s).cnt3 = s.cnt3 := by unfold normalize; split <;> rfl
@[simp] theorem normalize_mbIdx (s : State) : (normalize s).mbIdx = s.mbIdx := by unfold normalize; split <;> rfl
@[simp] theorem normalize_blk (s : State) : (normalize s).blk = s.blk := by unfold normalize; split <;> rfl
@[simp] theorem normalize_codeIdx (s : State) : (normalize s).codeIdx = s.codeIdx := by unfold normalize; split <;> rfl
@[simp] theorem normalize_quota (s : State) : (normalize s).quota = s.quota := by unfold normalize; split <;> rfl
@[simp] theorem normalize_overrun (s : State) : (normalize s).overrun = s.overrun := by unfold normalize; split <;> rfl
@[simp] theorem normalize_errCause (s : State) : (normalize s).errCause = s.errCause := by unfold normalize; split <;> rfl
@[simp] theorem normalize_errTable (s : State) : (normalize s).errTable = s.errTable := by unfold normalize; split <;> rfl
@[simp] theorem normalize_errPos (s : State) : (normalize s).errPos = s.errPos := by unfold normalize; split <;> rfl
@[simp] theorem normalize_acc (s : State) : (normalize s).acc = s.acc := by unfold normalize; split <;> rfl
@[simp] theorem normalize_accCnt (s : State) : (normalize s).accCnt = s.accCnt := by unfold normalize; split <;> rfl
@[simp] theorem normalize_outLen (s : State) : (normalize s).outLen = s.outLen := by unfold normalize; split <;> rfl
@[simp] theorem normalize_ebuf (s : State) : (normalize s).ebuf = s.ebuf := by unfold normalize; split <;> rfl
@[simp] theorem normalize_nbuf (s : State) : (normalize s).nbuf = s.nbuf := by unfold normalize; split <;> rfl
@[simp] theorem normalize_buf (s : State) : (normalize s).buf = s.buf := by unfold normalize; split <;> rfl
@[simp] theorem normalize_out (s : State) : (normalize s).out = s.out := by unfold normalize; split <;> rfl
@[simp] theorem normalize_build (s : State) : (normalize s).build = s.build := by unfold normalize; split <;> rfl
@[simp] theorem normalize_port (s : State) : (normalize s).port = s.port := by unfold normalize; split <;> rfl
@[simp] theorem normalize_resp (s : State) : (normalize s).resp = s.resp := by unfold normalize; split <;> rfl

@[simp] theorem advanceBlock_mode (s : State) : (advanceBlock s).mode = s.mode := rfl
@[simp] theorem advanceBlock_phase (s : State) : (advanceBlock s).phase = s.phase := rfl
@[simp] theorem advanceBlock_sel (s : State) : (advanceBlock s).sel = s.sel := rfl
@[simp] theorem advanceBlock_qscale (s : State) : (advanceBlock s).qscale = s.qscale := rfl
@[simp] theorem advanceBlock_mbCount (s : State) : (advanceBlock s).mbCount = s.mbCount := rfl
@[simp] theorem advanceBlock_len (s : State) : (advanceBlock s).len = s.len := rfl
@[simp] theorem advanceBlock_front (s : State) : (advanceBlock s).front = s.front := rfl
@[simp] theorem advanceBlock_mid (s : State) : (advanceBlock s).mid = s.mid := rfl
@[simp] theorem advanceBlock_back (s : State) : (advanceBlock s).back = s.back := rfl
@[simp] theorem advanceBlock_rem (s : State) : (advanceBlock s).rem = s.rem := rfl
@[simp] theorem advanceBlock_p (s : State) : (advanceBlock s).p = s.p := rfl
@[simp] theorem advanceBlock_predCr (s : State) : (advanceBlock s).predCr = s.predCr := rfl
@[simp] theorem advanceBlock_predCb (s : State) : (advanceBlock s).predCb = s.predCb := rfl
@[simp] theorem advanceBlock_predY1 (s : State) : (advanceBlock s).predY1 = s.predY1 := rfl
@[simp] theorem advanceBlock_predY3 (s : State) : (advanceBlock s).predY3 = s.predY3 := rfl
@[simp] theorem advanceBlock_cnt1 (s : State) : (advanceBlock s).cnt1 = s.cnt1 := rfl
@[simp] theorem advanceBlock_cnt2 (s : State) : (advanceBlock s).cnt2 = s.cnt2 := rfl
@[simp] theorem advanceBlock_cnt3 (s : State) : (advanceBlock s).cnt3 = s.cnt3 := rfl
@[simp] theorem advanceBlock_mbIdx (s : State) : (advanceBlock s).mbIdx = if s.blk = .y4 then s.mbIdx + 1 else s.mbIdx := rfl
@[simp] theorem advanceBlock_blk (s : State) : (advanceBlock s).blk = s.blk.next := rfl
@[simp] theorem advanceBlock_codeIdx (s : State) : (advanceBlock s).codeIdx = s.codeIdx := rfl
@[simp] theorem advanceBlock_quota (s : State) : (advanceBlock s).quota = s.quota := rfl
@[simp] theorem advanceBlock_overrun (s : State) : (advanceBlock s).overrun = s.overrun := rfl
@[simp] theorem advanceBlock_errCause (s : State) : (advanceBlock s).errCause = s.errCause := rfl
@[simp] theorem advanceBlock_errTable (s : State) : (advanceBlock s).errTable = s.errTable := rfl
@[simp] theorem advanceBlock_errPos (s : State) : (advanceBlock s).errPos = s.errPos := rfl
@[simp] theorem advanceBlock_acc (s : State) : (advanceBlock s).acc = s.acc := rfl
@[simp] theorem advanceBlock_accCnt (s : State) : (advanceBlock s).accCnt = s.accCnt := rfl
@[simp] theorem advanceBlock_outLen (s : State) : (advanceBlock s).outLen = s.outLen := rfl
@[simp] theorem advanceBlock_ebuf (s : State) : (advanceBlock s).ebuf = s.ebuf := rfl
@[simp] theorem advanceBlock_nbuf (s : State) : (advanceBlock s).nbuf = s.nbuf := rfl
@[simp] theorem advanceBlock_buf (s : State) : (advanceBlock s).buf = s.buf := rfl
@[simp] theorem advanceBlock_out (s : State) : (advanceBlock s).out = s.out := rfl
@[simp] theorem advanceBlock_build (s : State) : (advanceBlock s).build = s.build := rfl
@[simp] theorem advanceBlock_port (s : State) : (advanceBlock s).port = s.port := rfl
@[simp] theorem advanceBlock_resp (s : State) : (advanceBlock s).resp = s.resp := rfl

@[simp] theorem load_mode (q : Nat) (s : State) : (load q s).mode = s.mode := rfl
@[simp] theorem load_phase (q : Nat) (s : State) : (load q s).phase = s.phase := rfl
@[simp] theorem load_sel (q : Nat) (s : State) : (load q s).sel = s.sel := rfl
@[simp] theorem load_qscale (q : Nat) (s : State) : (load q s).qscale = s.qscale := rfl
@[simp] theorem load_mbCount (q : Nat) (s : State) : (load q s).mbCount = s.mbCount := rfl
@[simp] theorem load_len (q : Nat) (s : State) : (load q s).len = s.len := rfl
@[simp] theorem load_front (q : Nat) (s : State) : (load q s).front = inputWord s q := rfl
@[simp] theorem load_mid (q : Nat) (s : State) : (load q s).mid = inputWord s (q + 4) := rfl
@[simp] theorem load_back (q : Nat) (s : State) : (load q s).back = inputWord s (q + 8) := rfl
@[simp] theorem load_rem (q : Nat) (s : State) : (load q s).rem = 32 := rfl
@[simp] theorem load_p (q : Nat) (s : State) : (load q s).p = q := rfl
@[simp] theorem load_predCr (q : Nat) (s : State) : (load q s).predCr = s.predCr := rfl
@[simp] theorem load_predCb (q : Nat) (s : State) : (load q s).predCb = s.predCb := rfl
@[simp] theorem load_predY1 (q : Nat) (s : State) : (load q s).predY1 = s.predY1 := rfl
@[simp] theorem load_predY3 (q : Nat) (s : State) : (load q s).predY3 = s.predY3 := rfl
@[simp] theorem load_cnt1 (q : Nat) (s : State) : (load q s).cnt1 = s.cnt1 := rfl
@[simp] theorem load_cnt2 (q : Nat) (s : State) : (load q s).cnt2 = s.cnt2 := rfl
@[simp] theorem load_cnt3 (q : Nat) (s : State) : (load q s).cnt3 = s.cnt3 := rfl
@[simp] theorem load_mbIdx (q : Nat) (s : State) : (load q s).mbIdx = s.mbIdx := rfl
@[simp] theorem load_blk (q : Nat) (s : State) : (load q s).blk = s.blk := rfl
@[simp] theorem load_codeIdx (q : Nat) (s : State) : (load q s).codeIdx = s.codeIdx := rfl
@[simp] theorem load_quota (q : Nat) (s : State) : (load q s).quota = s.quota := rfl
@[simp] theorem load_overrun (q : Nat) (s : State) : (load q s).overrun = s.overrun := rfl
@[simp] theorem load_errCause (q : Nat) (s : State) : (load q s).errCause = s.errCause := rfl
@[simp] theorem load_errTable (q : Nat) (s : State) : (load q s).errTable = s.errTable := rfl
@[simp] theorem load_errPos (q : Nat) (s : State) : (load q s).errPos = s.errPos := rfl
@[simp] theorem load_acc (q : Nat) (s : State) : (load q s).acc = s.acc := rfl
@[simp] theorem load_accCnt (q : Nat) (s : State) : (load q s).accCnt = s.accCnt := rfl
@[simp] theorem load_outLen (q : Nat) (s : State) : (load q s).outLen = s.outLen := rfl
@[simp] theorem load_ebuf (q : Nat) (s : State) : (load q s).ebuf = s.ebuf := rfl
@[simp] theorem load_nbuf (q : Nat) (s : State) : (load q s).nbuf = s.nbuf := rfl
@[simp] theorem load_buf (q : Nat) (s : State) : (load q s).buf = s.buf := rfl
@[simp] theorem load_out (q : Nat) (s : State) : (load q s).out = s.out := rfl
@[simp] theorem load_build (q : Nat) (s : State) : (load q s).build = s.build := rfl
@[simp] theorem load_port (q : Nat) (s : State) : (load q s).port = s.port := rfl
@[simp] theorem load_resp (q : Nat) (s : State) : (load q s).resp = s.resp := rfl

@[simp] theorem shiftWindow_mode (n : Nat) (s : State) : (shiftWindow n s).mode = s.mode := rfl
@[simp] theorem shiftWindow_phase (n : Nat) (s : State) : (shiftWindow n s).phase = s.phase := rfl
@[simp] theorem shiftWindow_sel (n : Nat) (s : State) : (shiftWindow n s).sel = s.sel := rfl
@[simp] theorem shiftWindow_qscale (n : Nat) (s : State) : (shiftWindow n s).qscale = s.qscale := rfl
@[simp] theorem shiftWindow_mbCount (n : Nat) (s : State) : (shiftWindow n s).mbCount = s.mbCount := rfl
@[simp] theorem shiftWindow_len (n : Nat) (s : State) : (shiftWindow n s).len = s.len := rfl
@[simp] theorem shiftWindow_front (n : Nat) (s : State) : (shiftWindow n s).front = s.front >>> n ||| s.mid <<< (32 - n) := rfl
@[simp] theorem shiftWindow_mid (n : Nat) (s : State) : (shiftWindow n s).mid = s.mid >>> n := rfl
@[simp] theorem shiftWindow_back (n : Nat) (s : State) : (shiftWindow n s).back = s.back := rfl
@[simp] theorem shiftWindow_rem (n : Nat) (s : State) : (shiftWindow n s).rem = s.rem - BitVec.ofNat 7 n := rfl
@[simp] theorem shiftWindow_p (n : Nat) (s : State) : (shiftWindow n s).p = s.p := rfl
@[simp] theorem shiftWindow_predCr (n : Nat) (s : State) : (shiftWindow n s).predCr = s.predCr := rfl
@[simp] theorem shiftWindow_predCb (n : Nat) (s : State) : (shiftWindow n s).predCb = s.predCb := rfl
@[simp] theorem shiftWindow_predY1 (n : Nat) (s : State) : (shiftWindow n s).predY1 = s.predY1 := rfl
@[simp] theorem shiftWindow_predY3 (n : Nat) (s : State) : (shiftWindow n s).predY3 = s.predY3 := rfl
@[simp] theorem shiftWindow_cnt1 (n : Nat) (s : State) : (shiftWindow n s).cnt1 = s.cnt1 := rfl
@[simp] theorem shiftWindow_cnt2 (n : Nat) (s : State) : (shiftWindow n s).cnt2 = s.cnt2 := rfl
@[simp] theorem shiftWindow_cnt3 (n : Nat) (s : State) : (shiftWindow n s).cnt3 = s.cnt3 := rfl
@[simp] theorem shiftWindow_mbIdx (n : Nat) (s : State) : (shiftWindow n s).mbIdx = s.mbIdx := rfl
@[simp] theorem shiftWindow_blk (n : Nat) (s : State) : (shiftWindow n s).blk = s.blk := rfl
@[simp] theorem shiftWindow_codeIdx (n : Nat) (s : State) : (shiftWindow n s).codeIdx = s.codeIdx := rfl
@[simp] theorem shiftWindow_quota (n : Nat) (s : State) : (shiftWindow n s).quota = s.quota := rfl
@[simp] theorem shiftWindow_overrun (n : Nat) (s : State) : (shiftWindow n s).overrun = s.overrun := rfl
@[simp] theorem shiftWindow_errCause (n : Nat) (s : State) : (shiftWindow n s).errCause = s.errCause := rfl
@[simp] theorem shiftWindow_errTable (n : Nat) (s : State) : (shiftWindow n s).errTable = s.errTable := rfl
@[simp] theorem shiftWindow_errPos (n : Nat) (s : State) : (shiftWindow n s).errPos = s.errPos := rfl
@[simp] theorem shiftWindow_acc (n : Nat) (s : State) : (shiftWindow n s).acc = s.acc := rfl
@[simp] theorem shiftWindow_accCnt (n : Nat) (s : State) : (shiftWindow n s).accCnt = s.accCnt := rfl
@[simp] theorem shiftWindow_outLen (n : Nat) (s : State) : (shiftWindow n s).outLen = s.outLen := rfl
@[simp] theorem shiftWindow_ebuf (n : Nat) (s : State) : (shiftWindow n s).ebuf = s.ebuf := rfl
@[simp] theorem shiftWindow_nbuf (n : Nat) (s : State) : (shiftWindow n s).nbuf = s.nbuf := rfl
@[simp] theorem shiftWindow_buf (n : Nat) (s : State) : (shiftWindow n s).buf = s.buf := rfl
@[simp] theorem shiftWindow_out (n : Nat) (s : State) : (shiftWindow n s).out = s.out := rfl
@[simp] theorem shiftWindow_build (n : Nat) (s : State) : (shiftWindow n s).build = s.build := rfl
@[simp] theorem shiftWindow_port (n : Nat) (s : State) : (shiftWindow n s).port = s.port := rfl
@[simp] theorem shiftWindow_resp (n : Nat) (s : State) : (shiftWindow n s).resp = s.resp := rfl

@[simp] theorem refill_mode (k : Nat) (s : State) : (refill k s).mode = s.mode := rfl
@[simp] theorem refill_phase (k : Nat) (s : State) : (refill k s).phase = s.phase := rfl
@[simp] theorem refill_sel (k : Nat) (s : State) : (refill k s).sel = s.sel := rfl
@[simp] theorem refill_qscale (k : Nat) (s : State) : (refill k s).qscale = s.qscale := rfl
@[simp] theorem refill_mbCount (k : Nat) (s : State) : (refill k s).mbCount = s.mbCount := rfl
@[simp] theorem refill_len (k : Nat) (s : State) : (refill k s).len = s.len := rfl
@[simp] theorem refill_front (k : Nat) (s : State) : (refill k s).front = s.front ||| s.back <<< (32 - k) := rfl
@[simp] theorem refill_mid (k : Nat) (s : State) : (refill k s).mid = s.back >>> k := rfl
@[simp] theorem refill_back (k : Nat) (s : State) : (refill k s).back = inputWord s (s.p + 12) := rfl
@[simp] theorem refill_rem (k : Nat) (s : State) : (refill k s).rem = s.rem + 32 := rfl
@[simp] theorem refill_p (k : Nat) (s : State) : (refill k s).p = s.p + 4 := rfl
@[simp] theorem refill_predCr (k : Nat) (s : State) : (refill k s).predCr = s.predCr := rfl
@[simp] theorem refill_predCb (k : Nat) (s : State) : (refill k s).predCb = s.predCb := rfl
@[simp] theorem refill_predY1 (k : Nat) (s : State) : (refill k s).predY1 = s.predY1 := rfl
@[simp] theorem refill_predY3 (k : Nat) (s : State) : (refill k s).predY3 = s.predY3 := rfl
@[simp] theorem refill_cnt1 (k : Nat) (s : State) : (refill k s).cnt1 = s.cnt1 := rfl
@[simp] theorem refill_cnt2 (k : Nat) (s : State) : (refill k s).cnt2 = s.cnt2 := rfl
@[simp] theorem refill_cnt3 (k : Nat) (s : State) : (refill k s).cnt3 = s.cnt3 := rfl
@[simp] theorem refill_mbIdx (k : Nat) (s : State) : (refill k s).mbIdx = s.mbIdx := rfl
@[simp] theorem refill_blk (k : Nat) (s : State) : (refill k s).blk = s.blk := rfl
@[simp] theorem refill_codeIdx (k : Nat) (s : State) : (refill k s).codeIdx = s.codeIdx := rfl
@[simp] theorem refill_quota (k : Nat) (s : State) : (refill k s).quota = s.quota := rfl
@[simp] theorem refill_overrun (k : Nat) (s : State) : (refill k s).overrun = s.overrun := rfl
@[simp] theorem refill_errCause (k : Nat) (s : State) : (refill k s).errCause = s.errCause := rfl
@[simp] theorem refill_errTable (k : Nat) (s : State) : (refill k s).errTable = s.errTable := rfl
@[simp] theorem refill_errPos (k : Nat) (s : State) : (refill k s).errPos = s.errPos := rfl
@[simp] theorem refill_acc (k : Nat) (s : State) : (refill k s).acc = s.acc := rfl
@[simp] theorem refill_accCnt (k : Nat) (s : State) : (refill k s).accCnt = s.accCnt := rfl
@[simp] theorem refill_outLen (k : Nat) (s : State) : (refill k s).outLen = s.outLen := rfl
@[simp] theorem refill_ebuf (k : Nat) (s : State) : (refill k s).ebuf = s.ebuf := rfl
@[simp] theorem refill_nbuf (k : Nat) (s : State) : (refill k s).nbuf = s.nbuf := rfl
@[simp] theorem refill_buf (k : Nat) (s : State) : (refill k s).buf = s.buf := rfl
@[simp] theorem refill_out (k : Nat) (s : State) : (refill k s).out = s.out := rfl
@[simp] theorem refill_build (k : Nat) (s : State) : (refill k s).build = s.build := rfl
@[simp] theorem refill_port (k : Nat) (s : State) : (refill k s).port = s.port := rfl
@[simp] theorem refill_resp (k : Nat) (s : State) : (refill k s).resp = s.resp := rfl

@[simp] theorem refillIfShort_mode (s : State) : (refillIfShort s).mode = s.mode := by unfold refillIfShort; split <;> rfl
@[simp] theorem refillIfShort_phase (s : State) : (refillIfShort s).phase = s.phase := by unfold refillIfShort; split <;> rfl
@[simp] theorem refillIfShort_sel (s : State) : (refillIfShort s).sel = s.sel := by unfold refillIfShort; split <;> rfl
@[simp] theorem refillIfShort_qscale (s : State) : (refillIfShort s).qscale = s.qscale := by unfold refillIfShort; split <;> rfl
@[simp] theorem refillIfShort_mbCount (s : State) : (refillIfShort s).mbCount = s.mbCount := by unfold refillIfShort; split <;> rfl
@[simp] theorem refillIfShort_len (s : State) : (refillIfShort s).len = s.len := by unfold refillIfShort; split <;> rfl
@[simp] theorem refillIfShort_predCr (s : State) : (refillIfShort s).predCr = s.predCr := by unfold refillIfShort; split <;> rfl
@[simp] theorem refillIfShort_predCb (s : State) : (refillIfShort s).predCb = s.predCb := by unfold refillIfShort; split <;> rfl
@[simp] theorem refillIfShort_predY1 (s : State) : (refillIfShort s).predY1 = s.predY1 := by unfold refillIfShort; split <;> rfl
@[simp] theorem refillIfShort_predY3 (s : State) : (refillIfShort s).predY3 = s.predY3 := by unfold refillIfShort; split <;> rfl
@[simp] theorem refillIfShort_cnt1 (s : State) : (refillIfShort s).cnt1 = s.cnt1 := by unfold refillIfShort; split <;> rfl
@[simp] theorem refillIfShort_cnt2 (s : State) : (refillIfShort s).cnt2 = s.cnt2 := by unfold refillIfShort; split <;> rfl
@[simp] theorem refillIfShort_cnt3 (s : State) : (refillIfShort s).cnt3 = s.cnt3 := by unfold refillIfShort; split <;> rfl
@[simp] theorem refillIfShort_mbIdx (s : State) : (refillIfShort s).mbIdx = s.mbIdx := by unfold refillIfShort; split <;> rfl
@[simp] theorem refillIfShort_blk (s : State) : (refillIfShort s).blk = s.blk := by unfold refillIfShort; split <;> rfl
@[simp] theorem refillIfShort_codeIdx (s : State) : (refillIfShort s).codeIdx = s.codeIdx := by unfold refillIfShort; split <;> rfl
@[simp] theorem refillIfShort_quota (s : State) : (refillIfShort s).quota = s.quota := by unfold refillIfShort; split <;> rfl
@[simp] theorem refillIfShort_overrun (s : State) : (refillIfShort s).overrun = s.overrun := by unfold refillIfShort; split <;> rfl
@[simp] theorem refillIfShort_errCause (s : State) : (refillIfShort s).errCause = s.errCause := by unfold refillIfShort; split <;> rfl
@[simp] theorem refillIfShort_errTable (s : State) : (refillIfShort s).errTable = s.errTable := by unfold refillIfShort; split <;> rfl
@[simp] theorem refillIfShort_errPos (s : State) : (refillIfShort s).errPos = s.errPos := by unfold refillIfShort; split <;> rfl
@[simp] theorem refillIfShort_acc (s : State) : (refillIfShort s).acc = s.acc := by unfold refillIfShort; split <;> rfl
@[simp] theorem refillIfShort_accCnt (s : State) : (refillIfShort s).accCnt = s.accCnt := by unfold refillIfShort; split <;> rfl
@[simp] theorem refillIfShort_outLen (s : State) : (refillIfShort s).outLen = s.outLen := by unfold refillIfShort; split <;> rfl
@[simp] theorem refillIfShort_ebuf (s : State) : (refillIfShort s).ebuf = s.ebuf := by unfold refillIfShort; split <;> rfl
@[simp] theorem refillIfShort_nbuf (s : State) : (refillIfShort s).nbuf = s.nbuf := by unfold refillIfShort; split <;> rfl
@[simp] theorem refillIfShort_buf (s : State) : (refillIfShort s).buf = s.buf := by unfold refillIfShort; split <;> rfl
@[simp] theorem refillIfShort_out (s : State) : (refillIfShort s).out = s.out := by unfold refillIfShort; split <;> rfl
@[simp] theorem refillIfShort_build (s : State) : (refillIfShort s).build = s.build := by unfold refillIfShort; split <;> rfl
@[simp] theorem refillIfShort_port (s : State) : (refillIfShort s).port = s.port := by unfold refillIfShort; split <;> rfl
@[simp] theorem refillIfShort_resp (s : State) : (refillIfShort s).resp = s.resp := by unfold refillIfShort; split <;> rfl

@[simp] theorem markOverrun_mode (s : State) : (markOverrun s).mode = s.mode := rfl
@[simp] theorem markOverrun_phase (s : State) : (markOverrun s).phase = s.phase := rfl
@[simp] theorem markOverrun_sel (s : State) : (markOverrun s).sel = s.sel := rfl
@[simp] theorem markOverrun_qscale (s : State) : (markOverrun s).qscale = s.qscale := rfl
@[simp] theorem markOverrun_mbCount (s : State) : (markOverrun s).mbCount = s.mbCount := rfl
@[simp] theorem markOverrun_len (s : State) : (markOverrun s).len = s.len := rfl
@[simp] theorem markOverrun_front (s : State) : (markOverrun s).front = s.front := rfl
@[simp] theorem markOverrun_mid (s : State) : (markOverrun s).mid = s.mid := rfl
@[simp] theorem markOverrun_back (s : State) : (markOverrun s).back = s.back := rfl
@[simp] theorem markOverrun_rem (s : State) : (markOverrun s).rem = s.rem := rfl
@[simp] theorem markOverrun_p (s : State) : (markOverrun s).p = s.p := rfl
@[simp] theorem markOverrun_predCr (s : State) : (markOverrun s).predCr = s.predCr := rfl
@[simp] theorem markOverrun_predCb (s : State) : (markOverrun s).predCb = s.predCb := rfl
@[simp] theorem markOverrun_predY1 (s : State) : (markOverrun s).predY1 = s.predY1 := rfl
@[simp] theorem markOverrun_predY3 (s : State) : (markOverrun s).predY3 = s.predY3 := rfl
@[simp] theorem markOverrun_cnt1 (s : State) : (markOverrun s).cnt1 = s.cnt1 := rfl
@[simp] theorem markOverrun_cnt2 (s : State) : (markOverrun s).cnt2 = s.cnt2 := rfl
@[simp] theorem markOverrun_cnt3 (s : State) : (markOverrun s).cnt3 = s.cnt3 := rfl
@[simp] theorem markOverrun_mbIdx (s : State) : (markOverrun s).mbIdx = s.mbIdx := rfl
@[simp] theorem markOverrun_blk (s : State) : (markOverrun s).blk = s.blk := rfl
@[simp] theorem markOverrun_codeIdx (s : State) : (markOverrun s).codeIdx = s.codeIdx := rfl
@[simp] theorem markOverrun_quota (s : State) : (markOverrun s).quota = s.quota := rfl
@[simp] theorem markOverrun_overrun (s : State) : (markOverrun s).overrun = overrunAfter s.overrun s.pos s.len := rfl
@[simp] theorem markOverrun_errCause (s : State) : (markOverrun s).errCause = s.errCause := rfl
@[simp] theorem markOverrun_errTable (s : State) : (markOverrun s).errTable = s.errTable := rfl
@[simp] theorem markOverrun_errPos (s : State) : (markOverrun s).errPos = s.errPos := rfl
@[simp] theorem markOverrun_acc (s : State) : (markOverrun s).acc = s.acc := rfl
@[simp] theorem markOverrun_accCnt (s : State) : (markOverrun s).accCnt = s.accCnt := rfl
@[simp] theorem markOverrun_outLen (s : State) : (markOverrun s).outLen = s.outLen := rfl
@[simp] theorem markOverrun_ebuf (s : State) : (markOverrun s).ebuf = s.ebuf := rfl
@[simp] theorem markOverrun_nbuf (s : State) : (markOverrun s).nbuf = s.nbuf := rfl
@[simp] theorem markOverrun_buf (s : State) : (markOverrun s).buf = s.buf := rfl
@[simp] theorem markOverrun_out (s : State) : (markOverrun s).out = s.out := rfl
@[simp] theorem markOverrun_build (s : State) : (markOverrun s).build = s.build := rfl
@[simp] theorem markOverrun_port (s : State) : (markOverrun s).port = s.port := rfl
@[simp] theorem markOverrun_resp (s : State) : (markOverrun s).resp = s.resp := rfl

@[simp] theorem consume_mode (n : Nat) (s : State) : (consume n s).mode = s.mode := by unfold consume; split <;> simp
@[simp] theorem consume_phase (n : Nat) (s : State) : (consume n s).phase = s.phase := by unfold consume; split <;> simp
@[simp] theorem consume_sel (n : Nat) (s : State) : (consume n s).sel = s.sel := by unfold consume; split <;> simp
@[simp] theorem consume_qscale (n : Nat) (s : State) : (consume n s).qscale = s.qscale := by unfold consume; split <;> simp
@[simp] theorem consume_mbCount (n : Nat) (s : State) : (consume n s).mbCount = s.mbCount := by unfold consume; split <;> simp
@[simp] theorem consume_len (n : Nat) (s : State) : (consume n s).len = s.len := by unfold consume; split <;> simp
@[simp] theorem consume_predCr (n : Nat) (s : State) : (consume n s).predCr = s.predCr := by unfold consume; split <;> simp
@[simp] theorem consume_predCb (n : Nat) (s : State) : (consume n s).predCb = s.predCb := by unfold consume; split <;> simp
@[simp] theorem consume_predY1 (n : Nat) (s : State) : (consume n s).predY1 = s.predY1 := by unfold consume; split <;> simp
@[simp] theorem consume_predY3 (n : Nat) (s : State) : (consume n s).predY3 = s.predY3 := by unfold consume; split <;> simp
@[simp] theorem consume_cnt1 (n : Nat) (s : State) : (consume n s).cnt1 = s.cnt1 := by unfold consume; split <;> simp
@[simp] theorem consume_cnt2 (n : Nat) (s : State) : (consume n s).cnt2 = s.cnt2 := by unfold consume; split <;> simp
@[simp] theorem consume_cnt3 (n : Nat) (s : State) : (consume n s).cnt3 = s.cnt3 := by unfold consume; split <;> simp
@[simp] theorem consume_mbIdx (n : Nat) (s : State) : (consume n s).mbIdx = s.mbIdx := by unfold consume; split <;> simp
@[simp] theorem consume_blk (n : Nat) (s : State) : (consume n s).blk = s.blk := by unfold consume; split <;> simp
@[simp] theorem consume_codeIdx (n : Nat) (s : State) : (consume n s).codeIdx = s.codeIdx := by unfold consume; split <;> simp
@[simp] theorem consume_quota (n : Nat) (s : State) : (consume n s).quota = s.quota := by unfold consume; split <;> simp
@[simp] theorem consume_errCause (n : Nat) (s : State) : (consume n s).errCause = s.errCause := by unfold consume; split <;> simp
@[simp] theorem consume_errTable (n : Nat) (s : State) : (consume n s).errTable = s.errTable := by unfold consume; split <;> simp
@[simp] theorem consume_errPos (n : Nat) (s : State) : (consume n s).errPos = s.errPos := by unfold consume; split <;> simp
@[simp] theorem consume_acc (n : Nat) (s : State) : (consume n s).acc = s.acc := by unfold consume; split <;> simp
@[simp] theorem consume_accCnt (n : Nat) (s : State) : (consume n s).accCnt = s.accCnt := by unfold consume; split <;> simp
@[simp] theorem consume_outLen (n : Nat) (s : State) : (consume n s).outLen = s.outLen := by unfold consume; split <;> simp
@[simp] theorem consume_ebuf (n : Nat) (s : State) : (consume n s).ebuf = s.ebuf := by unfold consume; split <;> simp
@[simp] theorem consume_nbuf (n : Nat) (s : State) : (consume n s).nbuf = s.nbuf := by unfold consume; split <;> simp
@[simp] theorem consume_buf (n : Nat) (s : State) : (consume n s).buf = s.buf := by unfold consume; split <;> simp
@[simp] theorem consume_out (n : Nat) (s : State) : (consume n s).out = s.out := by unfold consume; split <;> simp
@[simp] theorem consume_build (n : Nat) (s : State) : (consume n s).build = s.build := by unfold consume; split <;> simp
@[simp] theorem consume_port (n : Nat) (s : State) : (consume n s).port = s.port := by unfold consume; split <;> simp
@[simp] theorem consume_resp (n : Nat) (s : State) : (consume n s).resp = s.resp := by unfold consume; split <;> simp

@[simp] theorem appendBits_mode (n v : Nat) (s : State) : (appendBits n v s).mode = s.mode := rfl
@[simp] theorem appendBits_phase (n v : Nat) (s : State) : (appendBits n v s).phase = s.phase := rfl
@[simp] theorem appendBits_sel (n v : Nat) (s : State) : (appendBits n v s).sel = s.sel := rfl
@[simp] theorem appendBits_qscale (n v : Nat) (s : State) : (appendBits n v s).qscale = s.qscale := rfl
@[simp] theorem appendBits_mbCount (n v : Nat) (s : State) : (appendBits n v s).mbCount = s.mbCount := rfl
@[simp] theorem appendBits_len (n v : Nat) (s : State) : (appendBits n v s).len = s.len := rfl
@[simp] theorem appendBits_front (n v : Nat) (s : State) : (appendBits n v s).front = s.front := rfl
@[simp] theorem appendBits_mid (n v : Nat) (s : State) : (appendBits n v s).mid = s.mid := rfl
@[simp] theorem appendBits_back (n v : Nat) (s : State) : (appendBits n v s).back = s.back := rfl
@[simp] theorem appendBits_rem (n v : Nat) (s : State) : (appendBits n v s).rem = s.rem := rfl
@[simp] theorem appendBits_p (n v : Nat) (s : State) : (appendBits n v s).p = s.p := rfl
@[simp] theorem appendBits_predCr (n v : Nat) (s : State) : (appendBits n v s).predCr = s.predCr := rfl
@[simp] theorem appendBits_predCb (n v : Nat) (s : State) : (appendBits n v s).predCb = s.predCb := rfl
@[simp] theorem appendBits_predY1 (n v : Nat) (s : State) : (appendBits n v s).predY1 = s.predY1 := rfl
@[simp] theorem appendBits_predY3 (n v : Nat) (s : State) : (appendBits n v s).predY3 = s.predY3 := rfl
@[simp] theorem appendBits_cnt1 (n v : Nat) (s : State) : (appendBits n v s).cnt1 = s.cnt1 := rfl
@[simp] theorem appendBits_cnt2 (n v : Nat) (s : State) : (appendBits n v s).cnt2 = s.cnt2 := rfl
@[simp] theorem appendBits_cnt3 (n v : Nat) (s : State) : (appendBits n v s).cnt3 = s.cnt3 := rfl
@[simp] theorem appendBits_mbIdx (n v : Nat) (s : State) : (appendBits n v s).mbIdx = s.mbIdx := rfl
@[simp] theorem appendBits_blk (n v : Nat) (s : State) : (appendBits n v s).blk = s.blk := rfl
@[simp] theorem appendBits_codeIdx (n v : Nat) (s : State) : (appendBits n v s).codeIdx = s.codeIdx := rfl
@[simp] theorem appendBits_quota (n v : Nat) (s : State) : (appendBits n v s).quota = s.quota := rfl
@[simp] theorem appendBits_overrun (n v : Nat) (s : State) : (appendBits n v s).overrun = s.overrun := rfl
@[simp] theorem appendBits_errCause (n v : Nat) (s : State) : (appendBits n v s).errCause = s.errCause := rfl
@[simp] theorem appendBits_errTable (n v : Nat) (s : State) : (appendBits n v s).errTable = s.errTable := rfl
@[simp] theorem appendBits_errPos (n v : Nat) (s : State) : (appendBits n v s).errPos = s.errPos := rfl
@[simp] theorem appendBits_accCnt (n v : Nat) (s : State) : (appendBits n v s).accCnt = s.accCnt + BitVec.ofNat 6 n := rfl
@[simp] theorem appendBits_outLen (n v : Nat) (s : State) : (appendBits n v s).outLen = s.outLen := rfl
@[simp] theorem appendBits_ebuf (n v : Nat) (s : State) : (appendBits n v s).ebuf = s.ebuf := rfl
@[simp] theorem appendBits_nbuf (n v : Nat) (s : State) : (appendBits n v s).nbuf = s.nbuf := rfl
@[simp] theorem appendBits_buf (n v : Nat) (s : State) : (appendBits n v s).buf = s.buf := rfl
@[simp] theorem appendBits_out (n v : Nat) (s : State) : (appendBits n v s).out = s.out := rfl
@[simp] theorem appendBits_build (n v : Nat) (s : State) : (appendBits n v s).build = s.build := rfl
@[simp] theorem appendBits_port (n v : Nat) (s : State) : (appendBits n v s).port = s.port := rfl
@[simp] theorem appendBits_resp (n v : Nat) (s : State) : (appendBits n v s).resp = s.resp := rfl

@[simp] theorem startFrame_mode (m : Mode) (x : BitVec 1) (q : BitVec 6) (mc : BitVec 16) (s : State) : (startFrame m x q mc s).mode = m := rfl
@[simp] theorem startFrame_phase (m : Mode) (x : BitVec 1) (q : BitVec 6) (mc : BitVec 16) (s : State) : (startFrame m x q mc s).phase = s.phase := rfl
@[simp] theorem startFrame_sel (m : Mode) (x : BitVec 1) (q : BitVec 6) (mc : BitVec 16) (s : State) : (startFrame m x q mc s).sel = x := rfl
@[simp] theorem startFrame_qscale (m : Mode) (x : BitVec 1) (q : BitVec 6) (mc : BitVec 16) (s : State) : (startFrame m x q mc s).qscale = q := rfl
@[simp] theorem startFrame_mbCount (m : Mode) (x : BitVec 1) (q : BitVec 6) (mc : BitVec 16) (s : State) : (startFrame m x q mc s).mbCount = mc := rfl
@[simp] theorem startFrame_len (m : Mode) (x : BitVec 1) (q : BitVec 6) (mc : BitVec 16) (s : State) : (startFrame m x q mc s).len = s.len := rfl
@[simp] theorem startFrame_front (m : Mode) (x : BitVec 1) (q : BitVec 6) (mc : BitVec 16) (s : State) : (startFrame m x q mc s).front = s.front := rfl
@[simp] theorem startFrame_mid (m : Mode) (x : BitVec 1) (q : BitVec 6) (mc : BitVec 16) (s : State) : (startFrame m x q mc s).mid = s.mid := rfl
@[simp] theorem startFrame_back (m : Mode) (x : BitVec 1) (q : BitVec 6) (mc : BitVec 16) (s : State) : (startFrame m x q mc s).back = s.back := rfl
@[simp] theorem startFrame_rem (m : Mode) (x : BitVec 1) (q : BitVec 6) (mc : BitVec 16) (s : State) : (startFrame m x q mc s).rem = s.rem := rfl
@[simp] theorem startFrame_p (m : Mode) (x : BitVec 1) (q : BitVec 6) (mc : BitVec 16) (s : State) : (startFrame m x q mc s).p = s.p := rfl
@[simp] theorem startFrame_predCr (m : Mode) (x : BitVec 1) (q : BitVec 6) (mc : BitVec 16) (s : State) : (startFrame m x q mc s).predCr = 0 := rfl
@[simp] theorem startFrame_predCb (m : Mode) (x : BitVec 1) (q : BitVec 6) (mc : BitVec 16) (s : State) : (startFrame m x q mc s).predCb = 0 := rfl
@[simp] theorem startFrame_predY1 (m : Mode) (x : BitVec 1) (q : BitVec 6) (mc : BitVec 16) (s : State) : (startFrame m x q mc s).predY1 = 0 := rfl
@[simp] theorem startFrame_predY3 (m : Mode) (x : BitVec 1) (q : BitVec 6) (mc : BitVec 16) (s : State) : (startFrame m x q mc s).predY3 = 0 := rfl
@[simp] theorem startFrame_cnt1 (m : Mode) (x : BitVec 1) (q : BitVec 6) (mc : BitVec 16) (s : State) : (startFrame m x q mc s).cnt1 = s.cnt1 := rfl
@[simp] theorem startFrame_cnt2 (m : Mode) (x : BitVec 1) (q : BitVec 6) (mc : BitVec 16) (s : State) : (startFrame m x q mc s).cnt2 = s.cnt2 := rfl
@[simp] theorem startFrame_cnt3 (m : Mode) (x : BitVec 1) (q : BitVec 6) (mc : BitVec 16) (s : State) : (startFrame m x q mc s).cnt3 = s.cnt3 := rfl
@[simp] theorem startFrame_mbIdx (m : Mode) (x : BitVec 1) (q : BitVec 6) (mc : BitVec 16) (s : State) : (startFrame m x q mc s).mbIdx = 0 := rfl
@[simp] theorem startFrame_blk (m : Mode) (x : BitVec 1) (q : BitVec 6) (mc : BitVec 16) (s : State) : (startFrame m x q mc s).blk = .cr := rfl
@[simp] theorem startFrame_codeIdx (m : Mode) (x : BitVec 1) (q : BitVec 6) (mc : BitVec 16) (s : State) : (startFrame m x q mc s).codeIdx = 0 := rfl
@[simp] theorem startFrame_quota (m : Mode) (x : BitVec 1) (q : BitVec 6) (mc : BitVec 16) (s : State) : (startFrame m x q mc s).quota = fullQuota := rfl
@[simp] theorem startFrame_overrun (m : Mode) (x : BitVec 1) (q : BitVec 6) (mc : BitVec 16) (s : State) : (startFrame m x q mc s).overrun = false := rfl
@[simp] theorem startFrame_errCause (m : Mode) (x : BitVec 1) (q : BitVec 6) (mc : BitVec 16) (s : State) : (startFrame m x q mc s).errCause = .none := rfl
@[simp] theorem startFrame_errTable (m : Mode) (x : BitVec 1) (q : BitVec 6) (mc : BitVec 16) (s : State) : (startFrame m x q mc s).errTable = .none := rfl
@[simp] theorem startFrame_errPos (m : Mode) (x : BitVec 1) (q : BitVec 6) (mc : BitVec 16) (s : State) : (startFrame m x q mc s).errPos = 0 := rfl
@[simp] theorem startFrame_acc (m : Mode) (x : BitVec 1) (q : BitVec 6) (mc : BitVec 16) (s : State) : (startFrame m x q mc s).acc = s.acc := rfl
@[simp] theorem startFrame_accCnt (m : Mode) (x : BitVec 1) (q : BitVec 6) (mc : BitVec 16) (s : State) : (startFrame m x q mc s).accCnt = s.accCnt := rfl
@[simp] theorem startFrame_outLen (m : Mode) (x : BitVec 1) (q : BitVec 6) (mc : BitVec 16) (s : State) : (startFrame m x q mc s).outLen = s.outLen := rfl
@[simp] theorem startFrame_ebuf (m : Mode) (x : BitVec 1) (q : BitVec 6) (mc : BitVec 16) (s : State) : (startFrame m x q mc s).ebuf = s.ebuf := rfl
@[simp] theorem startFrame_nbuf (m : Mode) (x : BitVec 1) (q : BitVec 6) (mc : BitVec 16) (s : State) : (startFrame m x q mc s).nbuf = s.nbuf := rfl
@[simp] theorem startFrame_buf (m : Mode) (x : BitVec 1) (q : BitVec 6) (mc : BitVec 16) (s : State) : (startFrame m x q mc s).buf = s.buf := rfl
@[simp] theorem startFrame_out (m : Mode) (x : BitVec 1) (q : BitVec 6) (mc : BitVec 16) (s : State) : (startFrame m x q mc s).out = s.out := rfl
@[simp] theorem startFrame_build (m : Mode) (x : BitVec 1) (q : BitVec 6) (mc : BitVec 16) (s : State) : (startFrame m x q mc s).build = s.build := rfl
@[simp] theorem startFrame_port (m : Mode) (x : BitVec 1) (q : BitVec 6) (mc : BitVec 16) (s : State) : (startFrame m x q mc s).port = s.port := rfl
@[simp] theorem startFrame_resp (m : Mode) (x : BitVec 1) (q : BitVec 6) (mc : BitVec 16) (s : State) : (startFrame m x q mc s).resp = s.resp := rfl

@[simp] theorem openFrame_mode (s : State) : (openFrame s).mode = s.mode := rfl
@[simp] theorem openFrame_phase (s : State) : (openFrame s).phase = if s.mbCount = 0 then .done else .atDc := rfl
@[simp] theorem openFrame_sel (s : State) : (openFrame s).sel = s.sel := rfl
@[simp] theorem openFrame_qscale (s : State) : (openFrame s).qscale = s.qscale := rfl
@[simp] theorem openFrame_mbCount (s : State) : (openFrame s).mbCount = s.mbCount := rfl
@[simp] theorem openFrame_len (s : State) : (openFrame s).len = s.len := rfl
@[simp] theorem openFrame_front (s : State) : (openFrame s).front = s.front := rfl
@[simp] theorem openFrame_mid (s : State) : (openFrame s).mid = s.mid := rfl
@[simp] theorem openFrame_back (s : State) : (openFrame s).back = s.back := rfl
@[simp] theorem openFrame_rem (s : State) : (openFrame s).rem = s.rem := rfl
@[simp] theorem openFrame_p (s : State) : (openFrame s).p = s.p := rfl
@[simp] theorem openFrame_predCr (s : State) : (openFrame s).predCr = s.predCr := rfl
@[simp] theorem openFrame_predCb (s : State) : (openFrame s).predCb = s.predCb := rfl
@[simp] theorem openFrame_predY1 (s : State) : (openFrame s).predY1 = s.predY1 := rfl
@[simp] theorem openFrame_predY3 (s : State) : (openFrame s).predY3 = s.predY3 := rfl
@[simp] theorem openFrame_cnt1 (s : State) : (openFrame s).cnt1 = s.cnt1 := rfl
@[simp] theorem openFrame_cnt2 (s : State) : (openFrame s).cnt2 = s.cnt2 := rfl
@[simp] theorem openFrame_cnt3 (s : State) : (openFrame s).cnt3 = s.cnt3 := rfl
@[simp] theorem openFrame_mbIdx (s : State) : (openFrame s).mbIdx = s.mbIdx := rfl
@[simp] theorem openFrame_blk (s : State) : (openFrame s).blk = s.blk := rfl
@[simp] theorem openFrame_codeIdx (s : State) : (openFrame s).codeIdx = s.codeIdx := rfl
@[simp] theorem openFrame_quota (s : State) : (openFrame s).quota = s.quota := rfl
@[simp] theorem openFrame_overrun (s : State) : (openFrame s).overrun = s.overrun := rfl
@[simp] theorem openFrame_errCause (s : State) : (openFrame s).errCause = s.errCause := rfl
@[simp] theorem openFrame_errTable (s : State) : (openFrame s).errTable = s.errTable := rfl
@[simp] theorem openFrame_errPos (s : State) : (openFrame s).errPos = s.errPos := rfl
@[simp] theorem openFrame_acc (s : State) : (openFrame s).acc = s.acc := rfl
@[simp] theorem openFrame_accCnt (s : State) : (openFrame s).accCnt = s.accCnt := rfl
@[simp] theorem openFrame_outLen (s : State) : (openFrame s).outLen = s.outLen := rfl
@[simp] theorem openFrame_ebuf (s : State) : (openFrame s).ebuf = s.ebuf := rfl
@[simp] theorem openFrame_nbuf (s : State) : (openFrame s).nbuf = s.nbuf := rfl
@[simp] theorem openFrame_buf (s : State) : (openFrame s).buf = s.buf := rfl
@[simp] theorem openFrame_out (s : State) : (openFrame s).out = s.out := rfl
@[simp] theorem openFrame_build (s : State) : (openFrame s).build = s.build := rfl
@[simp] theorem openFrame_port (s : State) : (openFrame s).port = s.port := rfl
@[simp] theorem openFrame_resp (s : State) : (openFrame s).resp = s.resp := rfl

@[simp] theorem bindBuffer_mode (l : BitVec 24) (bs : List Byte) (s : State) : (bindBuffer l bs s).mode = s.mode := rfl
@[simp] theorem bindBuffer_phase (l : BitVec 24) (bs : List Byte) (s : State) : (bindBuffer l bs s).phase = s.phase := rfl
@[simp] theorem bindBuffer_sel (l : BitVec 24) (bs : List Byte) (s : State) : (bindBuffer l bs s).sel = s.sel := rfl
@[simp] theorem bindBuffer_qscale (l : BitVec 24) (bs : List Byte) (s : State) : (bindBuffer l bs s).qscale = s.qscale := rfl
@[simp] theorem bindBuffer_mbCount (l : BitVec 24) (bs : List Byte) (s : State) : (bindBuffer l bs s).mbCount = s.mbCount := rfl
@[simp] theorem bindBuffer_len (l : BitVec 24) (bs : List Byte) (s : State) : (bindBuffer l bs s).len = l := rfl
@[simp] theorem bindBuffer_rem (l : BitVec 24) (bs : List Byte) (s : State) : (bindBuffer l bs s).rem = 32 := rfl
@[simp] theorem bindBuffer_p (l : BitVec 24) (bs : List Byte) (s : State) : (bindBuffer l bs s).p = 0 := rfl
@[simp] theorem bindBuffer_predCr (l : BitVec 24) (bs : List Byte) (s : State) : (bindBuffer l bs s).predCr = s.predCr := rfl
@[simp] theorem bindBuffer_predCb (l : BitVec 24) (bs : List Byte) (s : State) : (bindBuffer l bs s).predCb = s.predCb := rfl
@[simp] theorem bindBuffer_predY1 (l : BitVec 24) (bs : List Byte) (s : State) : (bindBuffer l bs s).predY1 = s.predY1 := rfl
@[simp] theorem bindBuffer_predY3 (l : BitVec 24) (bs : List Byte) (s : State) : (bindBuffer l bs s).predY3 = s.predY3 := rfl
@[simp] theorem bindBuffer_cnt1 (l : BitVec 24) (bs : List Byte) (s : State) : (bindBuffer l bs s).cnt1 = 0 := rfl
@[simp] theorem bindBuffer_cnt2 (l : BitVec 24) (bs : List Byte) (s : State) : (bindBuffer l bs s).cnt2 = 0 := rfl
@[simp] theorem bindBuffer_cnt3 (l : BitVec 24) (bs : List Byte) (s : State) : (bindBuffer l bs s).cnt3 = 0 := rfl
@[simp] theorem bindBuffer_mbIdx (l : BitVec 24) (bs : List Byte) (s : State) : (bindBuffer l bs s).mbIdx = s.mbIdx := rfl
@[simp] theorem bindBuffer_blk (l : BitVec 24) (bs : List Byte) (s : State) : (bindBuffer l bs s).blk = s.blk := rfl
@[simp] theorem bindBuffer_codeIdx (l : BitVec 24) (bs : List Byte) (s : State) : (bindBuffer l bs s).codeIdx = s.codeIdx := rfl
@[simp] theorem bindBuffer_quota (l : BitVec 24) (bs : List Byte) (s : State) : (bindBuffer l bs s).quota = s.quota := rfl
@[simp] theorem bindBuffer_overrun (l : BitVec 24) (bs : List Byte) (s : State) : (bindBuffer l bs s).overrun = s.overrun := rfl
@[simp] theorem bindBuffer_errCause (l : BitVec 24) (bs : List Byte) (s : State) : (bindBuffer l bs s).errCause = s.errCause := rfl
@[simp] theorem bindBuffer_errTable (l : BitVec 24) (bs : List Byte) (s : State) : (bindBuffer l bs s).errTable = s.errTable := rfl
@[simp] theorem bindBuffer_errPos (l : BitVec 24) (bs : List Byte) (s : State) : (bindBuffer l bs s).errPos = s.errPos := rfl
@[simp] theorem bindBuffer_acc (l : BitVec 24) (bs : List Byte) (s : State) : (bindBuffer l bs s).acc = s.acc := rfl
@[simp] theorem bindBuffer_accCnt (l : BitVec 24) (bs : List Byte) (s : State) : (bindBuffer l bs s).accCnt = s.accCnt := rfl
@[simp] theorem bindBuffer_outLen (l : BitVec 24) (bs : List Byte) (s : State) : (bindBuffer l bs s).outLen = s.outLen := rfl
@[simp] theorem bindBuffer_ebuf (l : BitVec 24) (bs : List Byte) (s : State) : (bindBuffer l bs s).ebuf = s.ebuf := rfl
@[simp] theorem bindBuffer_nbuf (l : BitVec 24) (bs : List Byte) (s : State) : (bindBuffer l bs s).nbuf = s.nbuf := rfl
@[simp] theorem bindBuffer_buf (l : BitVec 24) (bs : List Byte) (s : State) : (bindBuffer l bs s).buf = memoryOfBytes 0 bs := rfl
@[simp] theorem bindBuffer_out (l : BitVec 24) (bs : List Byte) (s : State) : (bindBuffer l bs s).out = s.out := rfl
@[simp] theorem bindBuffer_build (l : BitVec 24) (bs : List Byte) (s : State) : (bindBuffer l bs s).build = s.build := rfl
@[simp] theorem bindBuffer_port (l : BitVec 24) (bs : List Byte) (s : State) : (bindBuffer l bs s).port = s.port := rfl
@[simp] theorem bindBuffer_resp (l : BitVec 24) (bs : List Byte) (s : State) : (bindBuffer l bs s).resp = s.resp := rfl

@[simp] theorem emptyOutput_mode (s : State) : (emptyOutput s).mode = s.mode := rfl
@[simp] theorem emptyOutput_phase (s : State) : (emptyOutput s).phase = s.phase := rfl
@[simp] theorem emptyOutput_sel (s : State) : (emptyOutput s).sel = s.sel := rfl
@[simp] theorem emptyOutput_qscale (s : State) : (emptyOutput s).qscale = s.qscale := rfl
@[simp] theorem emptyOutput_mbCount (s : State) : (emptyOutput s).mbCount = s.mbCount := rfl
@[simp] theorem emptyOutput_len (s : State) : (emptyOutput s).len = s.len := rfl
@[simp] theorem emptyOutput_front (s : State) : (emptyOutput s).front = s.front := rfl
@[simp] theorem emptyOutput_mid (s : State) : (emptyOutput s).mid = s.mid := rfl
@[simp] theorem emptyOutput_back (s : State) : (emptyOutput s).back = s.back := rfl
@[simp] theorem emptyOutput_rem (s : State) : (emptyOutput s).rem = s.rem := rfl
@[simp] theorem emptyOutput_p (s : State) : (emptyOutput s).p = s.p := rfl
@[simp] theorem emptyOutput_predCr (s : State) : (emptyOutput s).predCr = s.predCr := rfl
@[simp] theorem emptyOutput_predCb (s : State) : (emptyOutput s).predCb = s.predCb := rfl
@[simp] theorem emptyOutput_predY1 (s : State) : (emptyOutput s).predY1 = s.predY1 := rfl
@[simp] theorem emptyOutput_predY3 (s : State) : (emptyOutput s).predY3 = s.predY3 := rfl
@[simp] theorem emptyOutput_cnt1 (s : State) : (emptyOutput s).cnt1 = s.cnt1 := rfl
@[simp] theorem emptyOutput_cnt2 (s : State) : (emptyOutput s).cnt2 = s.cnt2 := rfl
@[simp] theorem emptyOutput_cnt3 (s : State) : (emptyOutput s).cnt3 = s.cnt3 := rfl
@[simp] theorem emptyOutput_mbIdx (s : State) : (emptyOutput s).mbIdx = s.mbIdx := rfl
@[simp] theorem emptyOutput_blk (s : State) : (emptyOutput s).blk = s.blk := rfl
@[simp] theorem emptyOutput_codeIdx (s : State) : (emptyOutput s).codeIdx = s.codeIdx := rfl
@[simp] theorem emptyOutput_quota (s : State) : (emptyOutput s).quota = s.quota := rfl
@[simp] theorem emptyOutput_overrun (s : State) : (emptyOutput s).overrun = s.overrun := rfl
@[simp] theorem emptyOutput_errCause (s : State) : (emptyOutput s).errCause = s.errCause := rfl
@[simp] theorem emptyOutput_errTable (s : State) : (emptyOutput s).errTable = s.errTable := rfl
@[simp] theorem emptyOutput_errPos (s : State) : (emptyOutput s).errPos = s.errPos := rfl
@[simp] theorem emptyOutput_acc (s : State) : (emptyOutput s).acc = 0 := rfl
@[simp] theorem emptyOutput_accCnt (s : State) : (emptyOutput s).accCnt = 0 := rfl
@[simp] theorem emptyOutput_outLen (s : State) : (emptyOutput s).outLen = 0 := rfl
@[simp] theorem emptyOutput_ebuf (s : State) : (emptyOutput s).ebuf = Vector.replicate 64 0 := rfl
@[simp] theorem emptyOutput_nbuf (s : State) : (emptyOutput s).nbuf = 0 := rfl
@[simp] theorem emptyOutput_buf (s : State) : (emptyOutput s).buf = s.buf := rfl
@[simp] theorem emptyOutput_out (s : State) : (emptyOutput s).out = [] := rfl
@[simp] theorem emptyOutput_build (s : State) : (emptyOutput s).build = s.build := rfl
@[simp] theorem emptyOutput_port (s : State) : (emptyOutput s).port = s.port := rfl
@[simp] theorem emptyOutput_resp (s : State) : (emptyOutput s).resp = s.resp := rfl

@[simp] theorem reloadQuota_mode (s : State) : (reloadQuota s).mode = s.mode := rfl
@[simp] theorem reloadQuota_phase (s : State) : (reloadQuota s).phase = s.phase := rfl
@[simp] theorem reloadQuota_sel (s : State) : (reloadQuota s).sel = s.sel := rfl
@[simp] theorem reloadQuota_qscale (s : State) : (reloadQuota s).qscale = s.qscale := rfl
@[simp] theorem reloadQuota_mbCount (s : State) : (reloadQuota s).mbCount = s.mbCount := rfl
@[simp] theorem reloadQuota_len (s : State) : (reloadQuota s).len = s.len := rfl
@[simp] theorem reloadQuota_front (s : State) : (reloadQuota s).front = s.front := rfl
@[simp] theorem reloadQuota_mid (s : State) : (reloadQuota s).mid = s.mid := rfl
@[simp] theorem reloadQuota_back (s : State) : (reloadQuota s).back = s.back := rfl
@[simp] theorem reloadQuota_rem (s : State) : (reloadQuota s).rem = s.rem := rfl
@[simp] theorem reloadQuota_p (s : State) : (reloadQuota s).p = s.p := rfl
@[simp] theorem reloadQuota_predCr (s : State) : (reloadQuota s).predCr = s.predCr := rfl
@[simp] theorem reloadQuota_predCb (s : State) : (reloadQuota s).predCb = s.predCb := rfl
@[simp] theorem reloadQuota_predY1 (s : State) : (reloadQuota s).predY1 = s.predY1 := rfl
@[simp] theorem reloadQuota_predY3 (s : State) : (reloadQuota s).predY3 = s.predY3 := rfl
@[simp] theorem reloadQuota_cnt1 (s : State) : (reloadQuota s).cnt1 = s.cnt1 := rfl
@[simp] theorem reloadQuota_cnt2 (s : State) : (reloadQuota s).cnt2 = s.cnt2 := rfl
@[simp] theorem reloadQuota_cnt3 (s : State) : (reloadQuota s).cnt3 = s.cnt3 := rfl
@[simp] theorem reloadQuota_mbIdx (s : State) : (reloadQuota s).mbIdx = s.mbIdx := rfl
@[simp] theorem reloadQuota_blk (s : State) : (reloadQuota s).blk = s.blk := rfl
@[simp] theorem reloadQuota_codeIdx (s : State) : (reloadQuota s).codeIdx = s.codeIdx := rfl
@[simp] theorem reloadQuota_quota (s : State) : (reloadQuota s).quota = fullQuota := rfl
@[simp] theorem reloadQuota_overrun (s : State) : (reloadQuota s).overrun = s.overrun := rfl
@[simp] theorem reloadQuota_errCause (s : State) : (reloadQuota s).errCause = s.errCause := rfl
@[simp] theorem reloadQuota_errTable (s : State) : (reloadQuota s).errTable = s.errTable := rfl
@[simp] theorem reloadQuota_errPos (s : State) : (reloadQuota s).errPos = s.errPos := rfl
@[simp] theorem reloadQuota_acc (s : State) : (reloadQuota s).acc = s.acc := rfl
@[simp] theorem reloadQuota_accCnt (s : State) : (reloadQuota s).accCnt = s.accCnt := rfl
@[simp] theorem reloadQuota_outLen (s : State) : (reloadQuota s).outLen = s.outLen := rfl
@[simp] theorem reloadQuota_ebuf (s : State) : (reloadQuota s).ebuf = s.ebuf := rfl
@[simp] theorem reloadQuota_nbuf (s : State) : (reloadQuota s).nbuf = s.nbuf := rfl
@[simp] theorem reloadQuota_buf (s : State) : (reloadQuota s).buf = s.buf := rfl
@[simp] theorem reloadQuota_out (s : State) : (reloadQuota s).out = s.out := rfl
@[simp] theorem reloadQuota_build (s : State) : (reloadQuota s).build = s.build := rfl
@[simp] theorem reloadQuota_port (s : State) : (reloadQuota s).port = s.port := rfl
@[simp] theorem reloadQuota_resp (s : State) : (reloadQuota s).resp = s.resp := rfl

@[simp] theorem setPhase_mode (ph : Phase) (s : State) : (setPhase ph s).mode = s.mode := rfl
@[simp] theorem setPhase_phase (ph : Phase) (s : State) : (setPhase ph s).phase = ph := rfl
@[simp] theorem setPhase_sel (ph : Phase) (s : State) : (setPhase ph s).sel = s.sel := rfl
@[simp] theorem setPhase_qscale (ph : Phase) (s : State) : (setPhase ph s).qscale = s.qscale := rfl
@[simp] theorem setPhase_mbCount (ph : Phase) (s : State) : (setPhase ph s).mbCount = s.mbCount := rfl
@[simp] theorem setPhase_len (ph : Phase) (s : State) : (setPhase ph s).len = s.len := rfl
@[simp] theorem setPhase_front (ph : Phase) (s : State) : (setPhase ph s).front = s.front := rfl
@[simp] theorem setPhase_mid (ph : Phase) (s : State) : (setPhase ph s).mid = s.mid := rfl
@[simp] theorem setPhase_back (ph : Phase) (s : State) : (setPhase ph s).back = s.back := rfl
@[simp] theorem setPhase_rem (ph : Phase) (s : State) : (setPhase ph s).rem = s.rem := rfl
@[simp] theorem setPhase_p (ph : Phase) (s : State) : (setPhase ph s).p = s.p := rfl
@[simp] theorem setPhase_predCr (ph : Phase) (s : State) : (setPhase ph s).predCr = s.predCr := rfl
@[simp] theorem setPhase_predCb (ph : Phase) (s : State) : (setPhase ph s).predCb = s.predCb := rfl
@[simp] theorem setPhase_predY1 (ph : Phase) (s : State) : (setPhase ph s).predY1 = s.predY1 := rfl
@[simp] theorem setPhase_predY3 (ph : Phase) (s : State) : (setPhase ph s).predY3 = s.predY3 := rfl
@[simp] theorem setPhase_cnt1 (ph : Phase) (s : State) : (setPhase ph s).cnt1 = s.cnt1 := rfl
@[simp] theorem setPhase_cnt2 (ph : Phase) (s : State) : (setPhase ph s).cnt2 = s.cnt2 := rfl
@[simp] theorem setPhase_cnt3 (ph : Phase) (s : State) : (setPhase ph s).cnt3 = s.cnt3 := rfl
@[simp] theorem setPhase_mbIdx (ph : Phase) (s : State) : (setPhase ph s).mbIdx = s.mbIdx := rfl
@[simp] theorem setPhase_blk (ph : Phase) (s : State) : (setPhase ph s).blk = s.blk := rfl
@[simp] theorem setPhase_codeIdx (ph : Phase) (s : State) : (setPhase ph s).codeIdx = s.codeIdx := rfl
@[simp] theorem setPhase_quota (ph : Phase) (s : State) : (setPhase ph s).quota = s.quota := rfl
@[simp] theorem setPhase_overrun (ph : Phase) (s : State) : (setPhase ph s).overrun = s.overrun := rfl
@[simp] theorem setPhase_errCause (ph : Phase) (s : State) : (setPhase ph s).errCause = s.errCause := rfl
@[simp] theorem setPhase_errTable (ph : Phase) (s : State) : (setPhase ph s).errTable = s.errTable := rfl
@[simp] theorem setPhase_errPos (ph : Phase) (s : State) : (setPhase ph s).errPos = s.errPos := rfl
@[simp] theorem setPhase_acc (ph : Phase) (s : State) : (setPhase ph s).acc = s.acc := rfl
@[simp] theorem setPhase_accCnt (ph : Phase) (s : State) : (setPhase ph s).accCnt = s.accCnt := rfl
@[simp] theorem setPhase_outLen (ph : Phase) (s : State) : (setPhase ph s).outLen = s.outLen := rfl
@[simp] theorem setPhase_ebuf (ph : Phase) (s : State) : (setPhase ph s).ebuf = s.ebuf := rfl
@[simp] theorem setPhase_nbuf (ph : Phase) (s : State) : (setPhase ph s).nbuf = s.nbuf := rfl
@[simp] theorem setPhase_buf (ph : Phase) (s : State) : (setPhase ph s).buf = s.buf := rfl
@[simp] theorem setPhase_out (ph : Phase) (s : State) : (setPhase ph s).out = s.out := rfl
@[simp] theorem setPhase_build (ph : Phase) (s : State) : (setPhase ph s).build = s.build := rfl
@[simp] theorem setPhase_port (ph : Phase) (s : State) : (setPhase ph s).port = s.port := rfl
@[simp] theorem setPhase_resp (ph : Phase) (s : State) : (setPhase ph s).resp = s.resp := rfl

@[simp] theorem countDc_mode (ph : Phase) (s : State) : (countDc ph s).mode = s.mode := rfl
@[simp] theorem countDc_phase (ph : Phase) (s : State) : (countDc ph s).phase = ph := rfl
@[simp] theorem countDc_sel (ph : Phase) (s : State) : (countDc ph s).sel = s.sel := rfl
@[simp] theorem countDc_qscale (ph : Phase) (s : State) : (countDc ph s).qscale = s.qscale := rfl
@[simp] theorem countDc_mbCount (ph : Phase) (s : State) : (countDc ph s).mbCount = s.mbCount := rfl
@[simp] theorem countDc_len (ph : Phase) (s : State) : (countDc ph s).len = s.len := rfl
@[simp] theorem countDc_front (ph : Phase) (s : State) : (countDc ph s).front = s.front := rfl
@[simp] theorem countDc_mid (ph : Phase) (s : State) : (countDc ph s).mid = s.mid := rfl
@[simp] theorem countDc_back (ph : Phase) (s : State) : (countDc ph s).back = s.back := rfl
@[simp] theorem countDc_rem (ph : Phase) (s : State) : (countDc ph s).rem = s.rem := rfl
@[simp] theorem countDc_p (ph : Phase) (s : State) : (countDc ph s).p = s.p := rfl
@[simp] theorem countDc_predCr (ph : Phase) (s : State) : (countDc ph s).predCr = s.predCr := rfl
@[simp] theorem countDc_predCb (ph : Phase) (s : State) : (countDc ph s).predCb = s.predCb := rfl
@[simp] theorem countDc_predY1 (ph : Phase) (s : State) : (countDc ph s).predY1 = s.predY1 := rfl
@[simp] theorem countDc_predY3 (ph : Phase) (s : State) : (countDc ph s).predY3 = s.predY3 := rfl
@[simp] theorem countDc_cnt1 (ph : Phase) (s : State) : (countDc ph s).cnt1 = s.cnt1 := rfl
@[simp] theorem countDc_cnt2 (ph : Phase) (s : State) : (countDc ph s).cnt2 = s.cnt2 := rfl
@[simp] theorem countDc_cnt3 (ph : Phase) (s : State) : (countDc ph s).cnt3 = s.cnt3 := rfl
@[simp] theorem countDc_mbIdx (ph : Phase) (s : State) : (countDc ph s).mbIdx = s.mbIdx := rfl
@[simp] theorem countDc_blk (ph : Phase) (s : State) : (countDc ph s).blk = s.blk := rfl
@[simp] theorem countDc_codeIdx (ph : Phase) (s : State) : (countDc ph s).codeIdx = 1 := rfl
@[simp] theorem countDc_quota (ph : Phase) (s : State) : (countDc ph s).quota = s.quota - 1 := rfl
@[simp] theorem countDc_overrun (ph : Phase) (s : State) : (countDc ph s).overrun = s.overrun := rfl
@[simp] theorem countDc_errCause (ph : Phase) (s : State) : (countDc ph s).errCause = s.errCause := rfl
@[simp] theorem countDc_errTable (ph : Phase) (s : State) : (countDc ph s).errTable = s.errTable := rfl
@[simp] theorem countDc_errPos (ph : Phase) (s : State) : (countDc ph s).errPos = s.errPos := rfl
@[simp] theorem countDc_acc (ph : Phase) (s : State) : (countDc ph s).acc = s.acc := rfl
@[simp] theorem countDc_accCnt (ph : Phase) (s : State) : (countDc ph s).accCnt = s.accCnt := rfl
@[simp] theorem countDc_outLen (ph : Phase) (s : State) : (countDc ph s).outLen = s.outLen := rfl
@[simp] theorem countDc_ebuf (ph : Phase) (s : State) : (countDc ph s).ebuf = s.ebuf := rfl
@[simp] theorem countDc_nbuf (ph : Phase) (s : State) : (countDc ph s).nbuf = s.nbuf := rfl
@[simp] theorem countDc_buf (ph : Phase) (s : State) : (countDc ph s).buf = s.buf := rfl
@[simp] theorem countDc_out (ph : Phase) (s : State) : (countDc ph s).out = s.out := rfl
@[simp] theorem countDc_build (ph : Phase) (s : State) : (countDc ph s).build = s.build := rfl
@[simp] theorem countDc_port (ph : Phase) (s : State) : (countDc ph s).port = s.port := rfl
@[simp] theorem countDc_resp (ph : Phase) (s : State) : (countDc ph s).resp = s.resp := rfl

@[simp] theorem countCode_mode (s : State) : (countCode s).mode = s.mode := rfl
@[simp] theorem countCode_phase (s : State) : (countCode s).phase = s.phase := rfl
@[simp] theorem countCode_sel (s : State) : (countCode s).sel = s.sel := rfl
@[simp] theorem countCode_qscale (s : State) : (countCode s).qscale = s.qscale := rfl
@[simp] theorem countCode_mbCount (s : State) : (countCode s).mbCount = s.mbCount := rfl
@[simp] theorem countCode_len (s : State) : (countCode s).len = s.len := rfl
@[simp] theorem countCode_front (s : State) : (countCode s).front = s.front := rfl
@[simp] theorem countCode_mid (s : State) : (countCode s).mid = s.mid := rfl
@[simp] theorem countCode_back (s : State) : (countCode s).back = s.back := rfl
@[simp] theorem countCode_rem (s : State) : (countCode s).rem = s.rem := rfl
@[simp] theorem countCode_p (s : State) : (countCode s).p = s.p := rfl
@[simp] theorem countCode_predCr (s : State) : (countCode s).predCr = s.predCr := rfl
@[simp] theorem countCode_predCb (s : State) : (countCode s).predCb = s.predCb := rfl
@[simp] theorem countCode_predY1 (s : State) : (countCode s).predY1 = s.predY1 := rfl
@[simp] theorem countCode_predY3 (s : State) : (countCode s).predY3 = s.predY3 := rfl
@[simp] theorem countCode_cnt1 (s : State) : (countCode s).cnt1 = s.cnt1 := rfl
@[simp] theorem countCode_cnt2 (s : State) : (countCode s).cnt2 = s.cnt2 := rfl
@[simp] theorem countCode_cnt3 (s : State) : (countCode s).cnt3 = s.cnt3 := rfl
@[simp] theorem countCode_mbIdx (s : State) : (countCode s).mbIdx = s.mbIdx := rfl
@[simp] theorem countCode_blk (s : State) : (countCode s).blk = s.blk := rfl
@[simp] theorem countCode_codeIdx (s : State) : (countCode s).codeIdx = s.codeIdx + 1 := rfl
@[simp] theorem countCode_quota (s : State) : (countCode s).quota = s.quota := rfl
@[simp] theorem countCode_overrun (s : State) : (countCode s).overrun = s.overrun := rfl
@[simp] theorem countCode_errCause (s : State) : (countCode s).errCause = s.errCause := rfl
@[simp] theorem countCode_errTable (s : State) : (countCode s).errTable = s.errTable := rfl
@[simp] theorem countCode_errPos (s : State) : (countCode s).errPos = s.errPos := rfl
@[simp] theorem countCode_acc (s : State) : (countCode s).acc = s.acc := rfl
@[simp] theorem countCode_accCnt (s : State) : (countCode s).accCnt = s.accCnt := rfl
@[simp] theorem countCode_outLen (s : State) : (countCode s).outLen = s.outLen := rfl
@[simp] theorem countCode_ebuf (s : State) : (countCode s).ebuf = s.ebuf := rfl
@[simp] theorem countCode_nbuf (s : State) : (countCode s).nbuf = s.nbuf := rfl
@[simp] theorem countCode_buf (s : State) : (countCode s).buf = s.buf := rfl
@[simp] theorem countCode_out (s : State) : (countCode s).out = s.out := rfl
@[simp] theorem countCode_build (s : State) : (countCode s).build = s.build := rfl
@[simp] theorem countCode_port (s : State) : (countCode s).port = s.port := rfl
@[simp] theorem countCode_resp (s : State) : (countCode s).resp = s.resp := rfl

@[simp] theorem clearNbuf_mode (s : State) : (clearNbuf s).mode = s.mode := rfl
@[simp] theorem clearNbuf_phase (s : State) : (clearNbuf s).phase = s.phase := rfl
@[simp] theorem clearNbuf_sel (s : State) : (clearNbuf s).sel = s.sel := rfl
@[simp] theorem clearNbuf_qscale (s : State) : (clearNbuf s).qscale = s.qscale := rfl
@[simp] theorem clearNbuf_mbCount (s : State) : (clearNbuf s).mbCount = s.mbCount := rfl
@[simp] theorem clearNbuf_len (s : State) : (clearNbuf s).len = s.len := rfl
@[simp] theorem clearNbuf_front (s : State) : (clearNbuf s).front = s.front := rfl
@[simp] theorem clearNbuf_mid (s : State) : (clearNbuf s).mid = s.mid := rfl
@[simp] theorem clearNbuf_back (s : State) : (clearNbuf s).back = s.back := rfl
@[simp] theorem clearNbuf_rem (s : State) : (clearNbuf s).rem = s.rem := rfl
@[simp] theorem clearNbuf_p (s : State) : (clearNbuf s).p = s.p := rfl
@[simp] theorem clearNbuf_predCr (s : State) : (clearNbuf s).predCr = s.predCr := rfl
@[simp] theorem clearNbuf_predCb (s : State) : (clearNbuf s).predCb = s.predCb := rfl
@[simp] theorem clearNbuf_predY1 (s : State) : (clearNbuf s).predY1 = s.predY1 := rfl
@[simp] theorem clearNbuf_predY3 (s : State) : (clearNbuf s).predY3 = s.predY3 := rfl
@[simp] theorem clearNbuf_cnt1 (s : State) : (clearNbuf s).cnt1 = s.cnt1 := rfl
@[simp] theorem clearNbuf_cnt2 (s : State) : (clearNbuf s).cnt2 = s.cnt2 := rfl
@[simp] theorem clearNbuf_cnt3 (s : State) : (clearNbuf s).cnt3 = s.cnt3 := rfl
@[simp] theorem clearNbuf_mbIdx (s : State) : (clearNbuf s).mbIdx = s.mbIdx := rfl
@[simp] theorem clearNbuf_blk (s : State) : (clearNbuf s).blk = s.blk := rfl
@[simp] theorem clearNbuf_codeIdx (s : State) : (clearNbuf s).codeIdx = s.codeIdx := rfl
@[simp] theorem clearNbuf_quota (s : State) : (clearNbuf s).quota = s.quota := rfl
@[simp] theorem clearNbuf_overrun (s : State) : (clearNbuf s).overrun = s.overrun := rfl
@[simp] theorem clearNbuf_errCause (s : State) : (clearNbuf s).errCause = s.errCause := rfl
@[simp] theorem clearNbuf_errTable (s : State) : (clearNbuf s).errTable = s.errTable := rfl
@[simp] theorem clearNbuf_errPos (s : State) : (clearNbuf s).errPos = s.errPos := rfl
@[simp] theorem clearNbuf_acc (s : State) : (clearNbuf s).acc = s.acc := rfl
@[simp] theorem clearNbuf_accCnt (s : State) : (clearNbuf s).accCnt = s.accCnt := rfl
@[simp] theorem clearNbuf_outLen (s : State) : (clearNbuf s).outLen = s.outLen := rfl
@[simp] theorem clearNbuf_ebuf (s : State) : (clearNbuf s).ebuf = s.ebuf := rfl
@[simp] theorem clearNbuf_nbuf (s : State) : (clearNbuf s).nbuf = 0 := rfl
@[simp] theorem clearNbuf_buf (s : State) : (clearNbuf s).buf = s.buf := rfl
@[simp] theorem clearNbuf_out (s : State) : (clearNbuf s).out = s.out := rfl
@[simp] theorem clearNbuf_build (s : State) : (clearNbuf s).build = s.build := rfl
@[simp] theorem clearNbuf_port (s : State) : (clearNbuf s).port = s.port := rfl
@[simp] theorem clearNbuf_resp (s : State) : (clearNbuf s).resp = s.resp := rfl

@[simp] theorem clearCodeIdx_mode (s : State) : (clearCodeIdx s).mode = s.mode := rfl
@[simp] theorem clearCodeIdx_phase (s : State) : (clearCodeIdx s).phase = s.phase := rfl
@[simp] theorem clearCodeIdx_sel (s : State) : (clearCodeIdx s).sel = s.sel := rfl
@[simp] theorem clearCodeIdx_qscale (s : State) : (clearCodeIdx s).qscale = s.qscale := rfl
@[simp] theorem clearCodeIdx_mbCount (s : State) : (clearCodeIdx s).mbCount = s.mbCount := rfl
@[simp] theorem clearCodeIdx_len (s : State) : (clearCodeIdx s).len = s.len := rfl
@[simp] theorem clearCodeIdx_front (s : State) : (clearCodeIdx s).front = s.front := rfl
@[simp] theorem clearCodeIdx_mid (s : State) : (clearCodeIdx s).mid = s.mid := rfl
@[simp] theorem clearCodeIdx_back (s : State) : (clearCodeIdx s).back = s.back := rfl
@[simp] theorem clearCodeIdx_rem (s : State) : (clearCodeIdx s).rem = s.rem := rfl
@[simp] theorem clearCodeIdx_p (s : State) : (clearCodeIdx s).p = s.p := rfl
@[simp] theorem clearCodeIdx_predCr (s : State) : (clearCodeIdx s).predCr = s.predCr := rfl
@[simp] theorem clearCodeIdx_predCb (s : State) : (clearCodeIdx s).predCb = s.predCb := rfl
@[simp] theorem clearCodeIdx_predY1 (s : State) : (clearCodeIdx s).predY1 = s.predY1 := rfl
@[simp] theorem clearCodeIdx_predY3 (s : State) : (clearCodeIdx s).predY3 = s.predY3 := rfl
@[simp] theorem clearCodeIdx_cnt1 (s : State) : (clearCodeIdx s).cnt1 = s.cnt1 := rfl
@[simp] theorem clearCodeIdx_cnt2 (s : State) : (clearCodeIdx s).cnt2 = s.cnt2 := rfl
@[simp] theorem clearCodeIdx_cnt3 (s : State) : (clearCodeIdx s).cnt3 = s.cnt3 := rfl
@[simp] theorem clearCodeIdx_mbIdx (s : State) : (clearCodeIdx s).mbIdx = s.mbIdx := rfl
@[simp] theorem clearCodeIdx_blk (s : State) : (clearCodeIdx s).blk = s.blk := rfl
@[simp] theorem clearCodeIdx_codeIdx (s : State) : (clearCodeIdx s).codeIdx = 0 := rfl
@[simp] theorem clearCodeIdx_quota (s : State) : (clearCodeIdx s).quota = s.quota := rfl
@[simp] theorem clearCodeIdx_overrun (s : State) : (clearCodeIdx s).overrun = s.overrun := rfl
@[simp] theorem clearCodeIdx_errCause (s : State) : (clearCodeIdx s).errCause = s.errCause := rfl
@[simp] theorem clearCodeIdx_errTable (s : State) : (clearCodeIdx s).errTable = s.errTable := rfl
@[simp] theorem clearCodeIdx_errPos (s : State) : (clearCodeIdx s).errPos = s.errPos := rfl
@[simp] theorem clearCodeIdx_acc (s : State) : (clearCodeIdx s).acc = s.acc := rfl
@[simp] theorem clearCodeIdx_accCnt (s : State) : (clearCodeIdx s).accCnt = s.accCnt := rfl
@[simp] theorem clearCodeIdx_outLen (s : State) : (clearCodeIdx s).outLen = s.outLen := rfl
@[simp] theorem clearCodeIdx_ebuf (s : State) : (clearCodeIdx s).ebuf = s.ebuf := rfl
@[simp] theorem clearCodeIdx_nbuf (s : State) : (clearCodeIdx s).nbuf = s.nbuf := rfl
@[simp] theorem clearCodeIdx_buf (s : State) : (clearCodeIdx s).buf = s.buf := rfl
@[simp] theorem clearCodeIdx_out (s : State) : (clearCodeIdx s).out = s.out := rfl
@[simp] theorem clearCodeIdx_build (s : State) : (clearCodeIdx s).build = s.build := rfl
@[simp] theorem clearCodeIdx_port (s : State) : (clearCodeIdx s).port = s.port := rfl
@[simp] theorem clearCodeIdx_resp (s : State) : (clearCodeIdx s).resp = s.resp := rfl

@[simp] theorem putWord_mode (w : Word) (s : State) : (putWord w s).mode = s.mode := rfl
@[simp] theorem putWord_phase (w : Word) (s : State) : (putWord w s).phase = s.phase := rfl
@[simp] theorem putWord_sel (w : Word) (s : State) : (putWord w s).sel = s.sel := rfl
@[simp] theorem putWord_qscale (w : Word) (s : State) : (putWord w s).qscale = s.qscale := rfl
@[simp] theorem putWord_mbCount (w : Word) (s : State) : (putWord w s).mbCount = s.mbCount := rfl
@[simp] theorem putWord_len (w : Word) (s : State) : (putWord w s).len = s.len := rfl
@[simp] theorem putWord_front (w : Word) (s : State) : (putWord w s).front = s.front := rfl
@[simp] theorem putWord_mid (w : Word) (s : State) : (putWord w s).mid = s.mid := rfl
@[simp] theorem putWord_back (w : Word) (s : State) : (putWord w s).back = s.back := rfl
@[simp] theorem putWord_rem (w : Word) (s : State) : (putWord w s).rem = s.rem := rfl
@[simp] theorem putWord_p (w : Word) (s : State) : (putWord w s).p = s.p := rfl
@[simp] theorem putWord_predCr (w : Word) (s : State) : (putWord w s).predCr = s.predCr := rfl
@[simp] theorem putWord_predCb (w : Word) (s : State) : (putWord w s).predCb = s.predCb := rfl
@[simp] theorem putWord_predY1 (w : Word) (s : State) : (putWord w s).predY1 = s.predY1 := rfl
@[simp] theorem putWord_predY3 (w : Word) (s : State) : (putWord w s).predY3 = s.predY3 := rfl
@[simp] theorem putWord_cnt1 (w : Word) (s : State) : (putWord w s).cnt1 = s.cnt1 := rfl
@[simp] theorem putWord_cnt2 (w : Word) (s : State) : (putWord w s).cnt2 = s.cnt2 := rfl
@[simp] theorem putWord_cnt3 (w : Word) (s : State) : (putWord w s).cnt3 = s.cnt3 := rfl
@[simp] theorem putWord_mbIdx (w : Word) (s : State) : (putWord w s).mbIdx = s.mbIdx := rfl
@[simp] theorem putWord_blk (w : Word) (s : State) : (putWord w s).blk = s.blk := rfl
@[simp] theorem putWord_codeIdx (w : Word) (s : State) : (putWord w s).codeIdx = s.codeIdx := rfl
@[simp] theorem putWord_quota (w : Word) (s : State) : (putWord w s).quota = s.quota := rfl
@[simp] theorem putWord_overrun (w : Word) (s : State) : (putWord w s).overrun = s.overrun := rfl
@[simp] theorem putWord_errCause (w : Word) (s : State) : (putWord w s).errCause = s.errCause := rfl
@[simp] theorem putWord_errTable (w : Word) (s : State) : (putWord w s).errTable = s.errTable := rfl
@[simp] theorem putWord_errPos (w : Word) (s : State) : (putWord w s).errPos = s.errPos := rfl
@[simp] theorem putWord_acc (w : Word) (s : State) : (putWord w s).acc = s.acc := rfl
@[simp] theorem putWord_accCnt (w : Word) (s : State) : (putWord w s).accCnt = s.accCnt := rfl
@[simp] theorem putWord_outLen (w : Word) (s : State) : (putWord w s).outLen = s.outLen + 4 := rfl
@[simp] theorem putWord_ebuf (w : Word) (s : State) : (putWord w s).ebuf = s.ebuf := rfl
@[simp] theorem putWord_nbuf (w : Word) (s : State) : (putWord w s).nbuf = s.nbuf := rfl
@[simp] theorem putWord_buf (w : Word) (s : State) : (putWord w s).buf = s.buf := rfl
@[simp] theorem putWord_out (w : Word) (s : State) : (putWord w s).out = s.out.writeWord s.outLen.toNat w := rfl
@[simp] theorem putWord_build (w : Word) (s : State) : (putWord w s).build = s.build := rfl
@[simp] theorem putWord_port (w : Word) (s : State) : (putWord w s).port = s.port := rfl
@[simp] theorem putWord_resp (w : Word) (s : State) : (putWord w s).resp = s.resp := rfl

@[simp] theorem dropWord_mode (s : State) : (dropWord s).mode = s.mode := rfl
@[simp] theorem dropWord_phase (s : State) : (dropWord s).phase = s.phase := rfl
@[simp] theorem dropWord_sel (s : State) : (dropWord s).sel = s.sel := rfl
@[simp] theorem dropWord_qscale (s : State) : (dropWord s).qscale = s.qscale := rfl
@[simp] theorem dropWord_mbCount (s : State) : (dropWord s).mbCount = s.mbCount := rfl
@[simp] theorem dropWord_len (s : State) : (dropWord s).len = s.len := rfl
@[simp] theorem dropWord_front (s : State) : (dropWord s).front = s.front := rfl
@[simp] theorem dropWord_mid (s : State) : (dropWord s).mid = s.mid := rfl
@[simp] theorem dropWord_back (s : State) : (dropWord s).back = s.back := rfl
@[simp] theorem dropWord_rem (s : State) : (dropWord s).rem = s.rem := rfl
@[simp] theorem dropWord_p (s : State) : (dropWord s).p = s.p := rfl
@[simp] theorem dropWord_predCr (s : State) : (dropWord s).predCr = s.predCr := rfl
@[simp] theorem dropWord_predCb (s : State) : (dropWord s).predCb = s.predCb := rfl
@[simp] theorem dropWord_predY1 (s : State) : (dropWord s).predY1 = s.predY1 := rfl
@[simp] theorem dropWord_predY3 (s : State) : (dropWord s).predY3 = s.predY3 := rfl
@[simp] theorem dropWord_cnt1 (s : State) : (dropWord s).cnt1 = s.cnt1 := rfl
@[simp] theorem dropWord_cnt2 (s : State) : (dropWord s).cnt2 = s.cnt2 := rfl
@[simp] theorem dropWord_cnt3 (s : State) : (dropWord s).cnt3 = s.cnt3 := rfl
@[simp] theorem dropWord_mbIdx (s : State) : (dropWord s).mbIdx = s.mbIdx := rfl
@[simp] theorem dropWord_blk (s : State) : (dropWord s).blk = s.blk := rfl
@[simp] theorem dropWord_codeIdx (s : State) : (dropWord s).codeIdx = s.codeIdx := rfl
@[simp] theorem dropWord_quota (s : State) : (dropWord s).quota = s.quota := rfl
@[simp] theorem dropWord_overrun (s : State) : (dropWord s).overrun = s.overrun := rfl
@[simp] theorem dropWord_errCause (s : State) : (dropWord s).errCause = s.errCause := rfl
@[simp] theorem dropWord_errTable (s : State) : (dropWord s).errTable = s.errTable := rfl
@[simp] theorem dropWord_errPos (s : State) : (dropWord s).errPos = s.errPos := rfl
@[simp] theorem dropWord_acc (s : State) : (dropWord s).acc = s.acc >>> 32 := rfl
@[simp] theorem dropWord_accCnt (s : State) : (dropWord s).accCnt = s.accCnt - 32 := rfl
@[simp] theorem dropWord_outLen (s : State) : (dropWord s).outLen = s.outLen := rfl
@[simp] theorem dropWord_ebuf (s : State) : (dropWord s).ebuf = s.ebuf := rfl
@[simp] theorem dropWord_nbuf (s : State) : (dropWord s).nbuf = s.nbuf := rfl
@[simp] theorem dropWord_buf (s : State) : (dropWord s).buf = s.buf := rfl
@[simp] theorem dropWord_out (s : State) : (dropWord s).out = s.out := rfl
@[simp] theorem dropWord_build (s : State) : (dropWord s).build = s.build := rfl
@[simp] theorem dropWord_port (s : State) : (dropWord s).port = s.port := rfl
@[simp] theorem dropWord_resp (s : State) : (dropWord s).resp = s.resp := rfl

@[simp] theorem clearAcc_mode (s : State) : (clearAcc s).mode = s.mode := rfl
@[simp] theorem clearAcc_phase (s : State) : (clearAcc s).phase = s.phase := rfl
@[simp] theorem clearAcc_sel (s : State) : (clearAcc s).sel = s.sel := rfl
@[simp] theorem clearAcc_qscale (s : State) : (clearAcc s).qscale = s.qscale := rfl
@[simp] theorem clearAcc_mbCount (s : State) : (clearAcc s).mbCount = s.mbCount := rfl
@[simp] theorem clearAcc_len (s : State) : (clearAcc s).len = s.len := rfl
@[simp] theorem clearAcc_front (s : State) : (clearAcc s).front = s.front := rfl
@[simp] theorem clearAcc_mid (s : State) : (clearAcc s).mid = s.mid := rfl
@[simp] theorem clearAcc_back (s : State) : (clearAcc s).back = s.back := rfl
@[simp] theorem clearAcc_rem (s : State) : (clearAcc s).rem = s.rem := rfl
@[simp] theorem clearAcc_p (s : State) : (clearAcc s).p = s.p := rfl
@[simp] theorem clearAcc_predCr (s : State) : (clearAcc s).predCr = s.predCr := rfl
@[simp] theorem clearAcc_predCb (s : State) : (clearAcc s).predCb = s.predCb := rfl
@[simp] theorem clearAcc_predY1 (s : State) : (clearAcc s).predY1 = s.predY1 := rfl
@[simp] theorem clearAcc_predY3 (s : State) : (clearAcc s).predY3 = s.predY3 := rfl
@[simp] theorem clearAcc_cnt1 (s : State) : (clearAcc s).cnt1 = s.cnt1 := rfl
@[simp] theorem clearAcc_cnt2 (s : State) : (clearAcc s).cnt2 = s.cnt2 := rfl
@[simp] theorem clearAcc_cnt3 (s : State) : (clearAcc s).cnt3 = s.cnt3 := rfl
@[simp] theorem clearAcc_mbIdx (s : State) : (clearAcc s).mbIdx = s.mbIdx := rfl
@[simp] theorem clearAcc_blk (s : State) : (clearAcc s).blk = s.blk := rfl
@[simp] theorem clearAcc_codeIdx (s : State) : (clearAcc s).codeIdx = s.codeIdx := rfl
@[simp] theorem clearAcc_quota (s : State) : (clearAcc s).quota = s.quota := rfl
@[simp] theorem clearAcc_overrun (s : State) : (clearAcc s).overrun = s.overrun := rfl
@[simp] theorem clearAcc_errCause (s : State) : (clearAcc s).errCause = s.errCause := rfl
@[simp] theorem clearAcc_errTable (s : State) : (clearAcc s).errTable = s.errTable := rfl
@[simp] theorem clearAcc_errPos (s : State) : (clearAcc s).errPos = s.errPos := rfl
@[simp] theorem clearAcc_acc (s : State) : (clearAcc s).acc = 0 := rfl
@[simp] theorem clearAcc_accCnt (s : State) : (clearAcc s).accCnt = 0 := rfl
@[simp] theorem clearAcc_outLen (s : State) : (clearAcc s).outLen = s.outLen := rfl
@[simp] theorem clearAcc_ebuf (s : State) : (clearAcc s).ebuf = s.ebuf := rfl
@[simp] theorem clearAcc_nbuf (s : State) : (clearAcc s).nbuf = s.nbuf := rfl
@[simp] theorem clearAcc_buf (s : State) : (clearAcc s).buf = s.buf := rfl
@[simp] theorem clearAcc_out (s : State) : (clearAcc s).out = s.out := rfl
@[simp] theorem clearAcc_build (s : State) : (clearAcc s).build = s.build := rfl
@[simp] theorem clearAcc_port (s : State) : (clearAcc s).port = s.port := rfl
@[simp] theorem clearAcc_resp (s : State) : (clearAcc s).resp = s.resp := rfl

@[simp] theorem dcPushed_mode (dc : Word) (s : State) : (dcPushed dc s).mode = s.mode := by simp [dcPushed]
@[simp] theorem dcPushed_phase (dc : Word) (s : State) : (dcPushed dc s).phase = .collect := by simp [dcPushed]
@[simp] theorem dcPushed_sel (dc : Word) (s : State) : (dcPushed dc s).sel = s.sel := by simp [dcPushed]
@[simp] theorem dcPushed_qscale (dc : Word) (s : State) : (dcPushed dc s).qscale = s.qscale := by simp [dcPushed]
@[simp] theorem dcPushed_mbCount (dc : Word) (s : State) : (dcPushed dc s).mbCount = s.mbCount := by simp [dcPushed]
@[simp] theorem dcPushed_len (dc : Word) (s : State) : (dcPushed dc s).len = s.len := by simp [dcPushed]
@[simp] theorem dcPushed_front (dc : Word) (s : State) : (dcPushed dc s).front = s.front := by simp [dcPushed]
@[simp] theorem dcPushed_mid (dc : Word) (s : State) : (dcPushed dc s).mid = s.mid := by simp [dcPushed]
@[simp] theorem dcPushed_back (dc : Word) (s : State) : (dcPushed dc s).back = s.back := by simp [dcPushed]
@[simp] theorem dcPushed_rem (dc : Word) (s : State) : (dcPushed dc s).rem = s.rem := by simp [dcPushed]
@[simp] theorem dcPushed_p (dc : Word) (s : State) : (dcPushed dc s).p = s.p := by simp [dcPushed]
@[simp] theorem dcPushed_cnt1 (dc : Word) (s : State) : (dcPushed dc s).cnt1 = s.cnt1 := by simp [dcPushed]
@[simp] theorem dcPushed_cnt2 (dc : Word) (s : State) : (dcPushed dc s).cnt2 = s.cnt2 := by simp [dcPushed]
@[simp] theorem dcPushed_cnt3 (dc : Word) (s : State) : (dcPushed dc s).cnt3 = s.cnt3 := by simp [dcPushed]
@[simp] theorem dcPushed_mbIdx (dc : Word) (s : State) : (dcPushed dc s).mbIdx = s.mbIdx := by simp [dcPushed]
@[simp] theorem dcPushed_blk (dc : Word) (s : State) : (dcPushed dc s).blk = s.blk := by simp [dcPushed]
@[simp] theorem dcPushed_codeIdx (dc : Word) (s : State) : (dcPushed dc s).codeIdx = 1 := by simp [dcPushed]
@[simp] theorem dcPushed_quota (dc : Word) (s : State) : (dcPushed dc s).quota = s.quota - 1 := by simp [dcPushed]
@[simp] theorem dcPushed_overrun (dc : Word) (s : State) : (dcPushed dc s).overrun = s.overrun := by simp [dcPushed]
@[simp] theorem dcPushed_errCause (dc : Word) (s : State) : (dcPushed dc s).errCause = s.errCause := by simp [dcPushed]
@[simp] theorem dcPushed_errTable (dc : Word) (s : State) : (dcPushed dc s).errTable = s.errTable := by simp [dcPushed]
@[simp] theorem dcPushed_errPos (dc : Word) (s : State) : (dcPushed dc s).errPos = s.errPos := by simp [dcPushed]
@[simp] theorem dcPushed_acc (dc : Word) (s : State) : (dcPushed dc s).acc = s.acc := by simp [dcPushed]
@[simp] theorem dcPushed_accCnt (dc : Word) (s : State) : (dcPushed dc s).accCnt = s.accCnt := by simp [dcPushed]
@[simp] theorem dcPushed_outLen (dc : Word) (s : State) : (dcPushed dc s).outLen = s.outLen := by simp [dcPushed]
@[simp] theorem dcPushed_ebuf (dc : Word) (s : State) : (dcPushed dc s).ebuf = s.ebuf := by simp [dcPushed]
@[simp] theorem dcPushed_nbuf (dc : Word) (s : State) : (dcPushed dc s).nbuf = 0 := by simp [dcPushed]
@[simp] theorem dcPushed_buf (dc : Word) (s : State) : (dcPushed dc s).buf = s.buf := by simp [dcPushed]
@[simp] theorem dcPushed_out (dc : Word) (s : State) : (dcPushed dc s).out = s.out := by simp [dcPushed]
@[simp] theorem dcPushed_build (dc : Word) (s : State) : (dcPushed dc s).build = s.build := by simp [dcPushed]
@[simp] theorem dcPushed_port (dc : Word) (s : State) : (dcPushed dc s).port = s.port := by simp [dcPushed]
@[simp] theorem dcPushed_resp (dc : Word) (s : State) : (dcPushed dc s).resp = s.resp := by simp [dcPushed]

end Sys2Proof.Machine
end

