-- ==== Sys2Proof/Laws/Accumulator.lean ====
section
/-! SUPPORT. What the bit accumulator does: each operation either goes on with only ACC, ACC_CNT, OUT and OUT_LEN changed
and its bits appended to the written stream, or raises ENC_OUTPUT_OVERFLOW with the words already appended kept
(48_bit_accumulator R301 to R305). -/

namespace Sys2Proof.Machine

@[simp] theorem andThen_done (s : State) (f : State → Op) : (Op.done s).andThen f = f s := rfl
@[simp] theorem andThen_raised (s : State) (f : State → Op) : (Op.raised s).andThen f = .raised s := rfl

theorem andThen_eq_done {o : Op} {f : State → Op} {t : State} (h : o.andThen f = .done t) :
    ∃ u, o = .done u ∧ f u = .done t := by
  cases o with
  | done u => exact ⟨u, rfl, h⟩
  | raised u => cases h

theorem andThen_eq_raised {o : Op} {f : State → Op} {t : State} (h : o.andThen f = .raised t) :
    o = .raised t ∨ ∃ u, o = .done u ∧ f u = .raised t := by
  cases o with
  | done u => exact .inr ⟨u, rfl, h⟩
  | raised u => exact .inl h

/-- t is s but for ACC, ACC_CNT, OUT and OUT_LEN. -/
def OnlyOut (s t : State) : Prop :=
  t = { s with acc := t.acc, accCnt := t.accCnt, out := t.out, outLen := t.outLen }

/-- t is s in error by ENC_OUTPUT_OVERFLOW at `wpos`, but for ACC, ACC_CNT, OUT and OUT_LEN. -/
def OnlyOutRaised (wpos : BitVec 35) (s t : State) : Prop :=
  t = raiseError .encOutputOverflow .none wpos
    { s with acc := t.acc, accCnt := t.accCnt, out := t.out, outLen := t.outLen }

theorem OnlyOut_refl (s : State) : OnlyOut s s := rfl

theorem OnlyOut_trans {s t u : State} (h : OnlyOut s t) (h' : OnlyOut t u) : OnlyOut s u := by
  unfold OnlyOut at *; rw [h] at h'; exact h'

theorem OnlyOut_raised {wpos : BitVec 35} {s t u : State} (h : OnlyOut s t) (h' : OnlyOutRaised wpos t u) :
    OnlyOutRaised wpos s u := by
  unfold OnlyOut at h; unfold OnlyOutRaised at *; rw [h] at h'; exact h'

/-- The accumulator's invariants that hold at every point of a command: the canonical output, whole words of output
within the capacity, ACC below 2^ACC_CNT. -/
structure OutOk (s : State) : Prop where
  out_wf : s.out.wf = true
  outLen_aligned : s.outLen.toNat % 4 = 0
  outLen_le : s.outLen.toNat ≤ s.build.outMaxBytes
  acc_lt : s.acc.toNat < 2 ^ s.accCnt.toNat

/-- OUT_LEN has not shrunk, and every byte of OUT outside the ones appended between s and t is as in s (20_memory R71). -/
def OutKept (s t : State) : Prop :=
  s.outLen.toNat ≤ t.outLen.toNat ∧
    ∀ a, a < s.outLen.toNat ∨ t.outLen.toNat ≤ a → t.out.read a = s.out.read a

theorem OutKept_refl (s : State) : OutKept s s := ⟨Nat.le_refl _, fun _ _ => rfl⟩

theorem OutKept_trans {s t u : State} (h : OutKept s t) (h' : OutKept t u) : OutKept s u :=
  ⟨Nat.le_trans h.1 h'.1, fun a ha => by
    have h1 := h.1
    have h2 := h'.1
    rw [h'.2 a (by omega), h.2 a (by omega)]⟩

/-- The bits of the low n bits of v follow s's written stream in t's (48_bit_accumulator R301). -/
structure Appended (s t : State) (n v : Nat) : Prop where
  wpos_eq : t.wpos = s.wpos + n
  before : ∀ k, k < s.wpos → t.writtenBit k = s.writtenBit k
  added : ∀ i, i < n → t.writtenBit (s.wpos + i) = v.testBit i

theorem Appended_trans {s t u : State} {n v m w : Nat} (h : Appended s t n v) (h' : Appended t u m w) :
    Appended s u (n + m) (v % 2 ^ n + 2 ^ n * w) := by
  have hb : ∀ i, (v % 2 ^ n + 2 ^ n * w).testBit i = if i < n then v.testBit i else w.testBit (i - n) := by
    intro i
    rw [Nat.add_comm, Nat.testBit_two_pow_mul_add _ (Nat.mod_lt _ (Nat.two_pow_pos n))]
    split
    · rw [Nat.testBit_mod_two_pow]; simp [*]
    · rfl
  refine ⟨by rw [h'.wpos_eq, h.wpos_eq]; omega, fun k hk => ?_, fun i hi => ?_⟩
  · rw [h'.before k (by rw [h.wpos_eq]; omega), h.before k hk]
  · rw [hb]
    split
    · rw [h'.before _ (by rw [h.wpos_eq]; omega), h.added i ‹_›]
    · have := h'.added (i - n) (by omega)
      rwa [h.wpos_eq, show s.wpos + n + (i - n) = s.wpos + i by omega] at this

/-- What OutWrite can do (20_memory R72, 48_bit_accumulator R304). -/
theorem outWrite_cases (wpos : BitVec 35) (w : Word) (s : State) :
    (s.build.outMaxBytes < s.outLen.toNat + 4 ∧
      outWrite wpos w s = .raised (raiseError .encOutputOverflow .none wpos s)) ∨
    (s.outLen.toNat + 4 ≤ s.build.outMaxBytes ∧
      outWrite wpos w s = .done (putWord w s)) := by
  unfold outWrite
  split
  · exact .inl ⟨by omega, rfl⟩
  · exact .inr ⟨by omega, rfl⟩

/-- Bit j of byte i of a word. -/
theorem getLsbD_wordByte (w : Word) (i j : Nat) (hj : j < 8) : (wordByte w i).getLsbD j = w.getLsbD (8 * i + j) := by
  unfold wordByte
  rw [BitVec.getLsbD_extractLsb']
  simp [hj]

theorem getLsbD_acc_of_ge {s : State} (h : s.acc.toNat < 2 ^ s.accCnt.toNat) {k : Nat} (hk : s.accCnt.toNat ≤ k) :
    s.acc.getLsbD k = false := by
  rw [BitVec.getLsbD]
  exact Nat.testBit_lt_two_pow (Nat.lt_of_lt_of_le h (Nat.pow_le_pow_right (by omega) hk))

theorem appendBits_accCnt_toNat {s : State} {n v : Nat} (hc : s.accCnt.toNat ≤ 31) (hn : n ≤ 32) :
    (appendBits n v s).accCnt.toNat = s.accCnt.toNat + n := by
  rw [appendBits_accCnt]; bv_omega

/-- The bits of ACC after an append. -/
theorem getLsbD_appendBits {s : State} {n v : Nat} (h : s.AccOk) (hn : n ≤ 32) (k : Nat) :
    (appendBits n v s).acc.getLsbD k =
      if k < s.accCnt.toNat then s.acc.getLsbD k
      else (decide (k < s.accCnt.toNat + n) && v.testBit (k - s.accCnt.toNat)) := by
  have hc := h.cnt_le
  show (s.acc ||| BitVec.ofNat 64 (v % 2 ^ n) <<< s.accCnt.toNat).getLsbD k = _
  rw [BitVec.getLsbD_or, BitVec.getLsbD_shiftLeft, BitVec.getLsbD_ofNat]
  by_cases hk : k < s.accCnt.toNat
  · simp [hk]
  · rw [if_neg hk, getLsbD_acc_of_ge h.acc_lt (by omega), Nat.testBit_mod_two_pow]
    by_cases hk2 : k < s.accCnt.toNat + n
    · simp [hk, hk2, show k < 64 by omega, show k - s.accCnt.toNat < n by omega,
        show k - s.accCnt.toNat < 64 by omega]
    · simp [hk, hk2, show ¬ k - s.accCnt.toNat < n by omega]

theorem appendBits_acc_lt {s : State} {n v : Nat} (h : s.AccOk) (hn : n ≤ 32) :
    (appendBits n v s).acc.toNat < 2 ^ (s.accCnt.toNat + n) := by
  have hc := h.cnt_le
  apply Nat.lt_pow_two_of_testBit
  intro k hk
  have := getLsbD_appendBits (v := v) h hn k
  rw [if_neg (by omega)] at this
  rw [BitVec.testBit_toNat, this]
  simp [show ¬ k < s.accCnt.toNat + n by omega]

/-- A flushed word keeps the written stream: the word's bits move from ACC to OUT (48_bit_accumulator R302). -/
theorem writtenBit_flush {s : State} (h : s.out.wf = true) (hmax : s.outLen.toNat + 4 < 2 ^ 32) (k : Nat) :
    (dropWord (putWord (s.acc.setWidth 32) s)).writtenBit k = s.writtenBit k := by
  have hlen : (s.outLen + 4).toNat = s.outLen.toNat + 4 := by bv_omega
  unfold State.writtenBit
  simp only [dropWord_outLen, dropWord_out, dropWord_acc, putWord_outLen, putWord_out, putWord_acc, hlen,
    read_writeWord h]
  by_cases hk : k < 8 * s.outLen.toNat
  · rw [if_pos (by omega), if_neg (by omega), if_pos hk]
  · rw [if_neg hk]
    by_cases hk2 : k < 8 * (s.outLen.toNat + 4)
    · rw [if_pos hk2, if_pos (by omega), getLsbD_wordByte _ _ _ (by omega), BitVec.getLsbD_setWidth,
        show 8 * (k / 8 - s.outLen.toNat) + k % 8 = k - 8 * s.outLen.toNat by omega]
      simp [show k - 8 * s.outLen.toNat < 32 by omega]
    · rw [if_neg hk2, BitVec.getLsbD_ushiftRight]
      congr 1; omega

/-- An append puts the new bits after the written stream (48_bit_accumulator R301). -/
theorem appendBits_appended {s : State} {n : Nat} (v : Nat) (h : s.AccOk) (hn : n ≤ 32) :
    Appended s (appendBits n v s) n v := by
  have hcnt := appendBits_accCnt_toNat (v := v) h.cnt_le hn
  refine ⟨by unfold State.wpos; rw [hcnt, appendBits_outLen]; omega, fun k hk => ?_, fun i hi => ?_⟩
  · unfold State.wpos at hk
    unfold State.writtenBit
    by_cases hb : k < 8 * s.outLen.toNat
    · rw [if_pos (by simpa using hb), if_pos hb, appendBits_out]
    · rw [if_neg (by simpa using hb), if_neg hb, appendBits_outLen, getLsbD_appendBits h hn, if_pos (by omega)]
  · unfold State.writtenBit State.wpos
    rw [if_neg (by rw [appendBits_outLen]; omega), appendBits_outLen, getLsbD_appendBits h hn, if_neg (by omega),
      show 8 * s.outLen.toNat + s.accCnt.toNat + i - 8 * s.outLen.toNat - s.accCnt.toNat = i by omega]
    simp [show 8 * s.outLen.toNat + s.accCnt.toNat + i - 8 * s.outLen.toNat < s.accCnt.toNat + n by omega]

theorem dropWord_acc_lt {s : State} {c : Nat} (hc : 32 ≤ c) (h : s.acc.toNat < 2 ^ c) :
    (dropWord s).acc.toNat < 2 ^ (c - 32) := by
  rw [dropWord_acc, BitVec.toNat_ushiftRight, Nat.shiftRight_eq_div_pow]
  apply Nat.div_lt_of_lt_mul
  rwa [← Nat.pow_add, show 32 + (c - 32) = c by omega]

/-- The operation went on from s to t with the low n bits of v appended to the written stream. Where the capacity is below
2^32, OUT_LEN does not wrap, the bytes of OUT stay and the bits are where they should be. -/
structure Wrote (s t : State) (n v : Nat) : Prop where
  only : OnlyOut s t
  acc_ok : t.AccOk
  out_ok : OutOk t
  kept : s.build.outMaxBytes < 2 ^ 32 → OutKept s t
  appended : s.build.outMaxBytes < 2 ^ 32 → Appended s t n v

/-- The operation raised ENC_OUTPUT_OVERFLOW because the words of `total` written bits do not fit OUT_MAX_BYTES; the low n
bits of v had been appended to the written stream by then, in OUT and ACC together (48_bit_accumulator R304). -/
structure Overflowed (wpos : BitVec 35) (s t : State) (total n v : Nat) : Prop where
  only : OnlyOutRaised wpos s t
  out_ok : OutOk t
  full : s.build.outMaxBytes < t.outLen.toNat + 4
  kept : s.build.outMaxBytes < 2 ^ 32 → OutKept s t
  too_long : s.build.outMaxBytes < 2 ^ 32 → s.build.outMaxBytes < 4 * (total / 32)
  appended : s.build.outMaxBytes < 2 ^ 32 → Appended s t n v

theorem Appended_refl (s : State) (v : Nat) : Appended s s 0 v :=
  ⟨rfl, fun _ _ => rfl, fun _ hi => absurd hi (by omega)⟩

theorem Wrote_refl {s : State} (h : s.AccOk) (ho : OutOk s) (v : Nat) : Wrote s s 0 v :=
  ⟨OnlyOut_refl s, h, ho, fun _ => OutKept_refl s, fun _ => Appended_refl s v⟩

theorem Wrote_build {s t : State} {n v : Nat} (h : Wrote s t n v) : t.build = s.build := by rw [h.only]

theorem Wrote_trans {s t u : State} {n v m w : Nat} (h : Wrote s t n v) (h' : Wrote t u m w) :
    Wrote s u (n + m) (v % 2 ^ n + 2 ^ n * w) := by
  have hb := Wrote_build h
  exact ⟨OnlyOut_trans h.only h'.only, h'.acc_ok, h'.out_ok,
    fun hm => OutKept_trans (h.kept hm) (h'.kept (by rw [hb]; exact hm)),
    fun hm => Appended_trans (h.appended hm) (h'.appended (by rw [hb]; exact hm))⟩

theorem Overflowed_of_wrote {wpos : BitVec 35} {s t u : State} {n v total m w : Nat} (h : Wrote s t n v)
    (h' : Overflowed wpos t u total m w) : Overflowed wpos s u total (n + m) (v % 2 ^ n + 2 ^ n * w) := by
  have hb := Wrote_build h
  exact ⟨OnlyOut_raised h.only h'.only, h'.out_ok, by rw [← hb]; exact h'.full,
    fun hm => OutKept_trans (h.kept hm) (h'.kept (by rw [hb]; exact hm)),
    fun hm => by have := h'.too_long (by rw [hb]; exact hm); rwa [hb] at this,
    fun hm => Appended_trans (h.appended hm) (h'.appended (by rw [hb]; exact hm))⟩

/-- The same overflow with its numbers said otherwise: a larger total, the same bits. -/
theorem Overflowed_congr {wpos : BitVec 35} {s t : State} {total total' n n' v v' : Nat}
    (h : Overflowed wpos s t total n v)
    (hl : s.build.outMaxBytes < 2 ^ 32 → total ≤ total' ∧ n = n' ∧ ∀ i, i < n → v.testBit i = v'.testBit i) :
    Overflowed wpos s t total' n' v' :=
  ⟨h.only, h.out_ok, h.full, h.kept, fun hm => Nat.lt_of_lt_of_le (h.too_long hm)
      (Nat.mul_le_mul_left 4 (Nat.div_le_div_right (hl hm).1)),
    fun hm => by
      obtain ⟨-, rfl, hv⟩ := hl hm
      have ha := h.appended hm
      exact ⟨ha.wpos_eq, ha.before, fun i hi => by rw [ha.added i hi, hv i hi]⟩⟩

/-- WPOS and OUT_LEN between writes: OUT_LEN is the whole words of WPOS (48_bit_accumulator R300, R305). -/
theorem outLen_eq {s : State} (h : s.AccOk) (ho : OutOk s) : s.outLen.toNat = 4 * (s.wpos / 32) := by
  have := h.cnt_le
  have := ho.outLen_aligned
  unfold State.wpos; omega

/-- What write(n, v) can do, from a state with fewer than 32 bits pending (48_bit_accumulator R301, R304). -/
theorem writeBits_cases (wpos : BitVec 35) {n : Nat} (v : Nat) {s : State} (h : s.AccOk) (ho : OutOk s) (hn : n ≤ 32) :
    (∃ t, writeBits wpos n v s = .done t ∧ Wrote s t n v) ∨
    (∃ t, writeBits wpos n v s = .raised t ∧ Overflowed wpos s t (s.wpos + n) n v) := by
  have hc := h.cnt_le
  have hcnt := appendBits_accCnt_toNat (v := v) hc hn
  have hlt := appendBits_acc_lt (v := v) h hn
  have hap := appendBits_appended v h hn
  have hok : OutOk (appendBits n v s) :=
    ⟨by simpa using ho.out_wf, by simpa using ho.outLen_aligned, by simpa using ho.outLen_le, by rw [hcnt]; exact hlt⟩
  unfold writeBits flushWord
  by_cases h32 : 32 ≤ (appendBits n v s).accCnt.toNat
  · rw [if_pos h32]
    rcases outWrite_cases wpos ((appendBits n v s).acc.setWidth 32) (appendBits n v s) with ⟨hov, e⟩ | ⟨hfit, e⟩
    · rw [e, andThen_raised]
      refine .inr ⟨_, rfl, rfl, ⟨hok.out_wf, hok.outLen_aligned, hok.outLen_le, hok.acc_lt⟩, hov,
        fun _ => ⟨Nat.le_refl _, fun _ _ => rfl⟩, fun _ => ?_, fun _ => ⟨hap.wpos_eq, hap.before, hap.added⟩⟩
      rw [appendBits_outLen, appendBits_build] at hov
      have := ho.outLen_aligned
      unfold State.wpos; omega
    · rw [e, andThen_done]
      have e2 : (dropWord (putWord ((appendBits n v s).acc.setWidth 32) (appendBits n v s))).accCnt.toNat =
          s.accCnt.toNat + n - 32 := by
        rw [dropWord_accCnt, putWord_accCnt]; bv_omega
      have hacc : (dropWord (putWord ((appendBits n v s).acc.setWidth 32) (appendBits n v s))).acc.toNat <
          2 ^ (s.accCnt.toNat + n - 32) :=
        dropWord_acc_lt (by omega) (by rw [putWord_acc]; exact hlt)
      rw [appendBits_outLen, appendBits_build] at hfit
      have hlen (hmax : s.build.outMaxBytes < 2 ^ 32) :
          (dropWord (putWord ((appendBits n v s).acc.setWidth 32) (appendBits n v s))).outLen.toNat =
            s.outLen.toNat + 4 := by
        rw [dropWord_outLen, putWord_outLen, appendBits_outLen]; bv_omega
      refine .inl ⟨_, rfl, rfl, ⟨by omega, by rw [e2]; exact hacc⟩,
        ⟨writeWord_wf _ _ hok.out_wf, ?_, ?_, by rw [e2]; exact hacc⟩, fun hmax => ?_, fun hmax => ?_⟩
      · have := hok.outLen_aligned
        rw [dropWord_outLen, putWord_outLen]
        bv_omega
      · rw [dropWord_outLen, putWord_outLen, dropWord_build, putWord_build, appendBits_outLen, appendBits_build]
        bv_omega
      · have := hlen hmax
        refine ⟨by omega, fun a ha => ?_⟩
        rw [dropWord_out, putWord_out, read_writeWord hok.out_wf, appendBits_outLen, if_neg (by omega),
          appendBits_out]
      · have := hlen hmax
        have hw := fun k => writtenBit_flush (s := appendBits n v s) hok.out_wf
          (by rw [appendBits_outLen]; omega) k
        refine ⟨?_, fun k hk => ?_, fun i hi => ?_⟩
        · unfold State.wpos; omega
        · rw [hw, hap.before k hk]
        · rw [hw, hap.added i hi]
  · rw [if_neg h32]
    exact .inl ⟨_, rfl, rfl, ⟨by omega, hok.acc_lt⟩, hok, fun _ => ⟨by simp, by simp⟩, fun _ => hap⟩

/-- A line's bits are the lowest of the list's. -/
theorem testBit_bitsValue_head (f : BitsField) (fs : List BitsField) {i : Nat} (hi : i < f.1) :
    f.2.testBit i = (bitsValue (f :: fs)).testBit i := by
  rw [bitsValue, Nat.add_comm, Nat.testBit_two_pow_mul_add _ (Nat.mod_lt _ (Nat.two_pow_pos _)), if_pos hi,
    Nat.testBit_mod_two_pow]
  simp [hi]

/-- Lines that fit are appended whole. -/
theorem appendedBits_of_fits {cap : Nat} : ∀ (fs : List BitsField) (p : Nat), 4 * ((p + bitsLength fs) / 32) ≤ cap →
    appendedBits cap p fs = bitsLength fs
  | [], _, _ => rfl
  | f :: fs, p, h => by
    rw [bitsLength] at h ⊢
    have h' : 4 * ((p + f.1) / 32) ≤ cap :=
      Nat.le_trans (Nat.mul_le_mul_left 4 (Nat.div_le_div_right (by omega))) h
    rw [appendedBits, if_neg (by omega), appendedBits_of_fits fs _ (by rwa [Nat.add_assoc])]

/-- What the writes of a list of BITS lines can do, each line at most 32 bits (48_bit_accumulator R301, R304). -/
theorem writeFields_cases (wpos : BitVec 35) : ∀ (fs : List BitsField) {s : State}, s.AccOk → OutOk s →
    (∀ f ∈ fs, f.1 ≤ 32) →
    (∃ t, writeFields wpos fs s = .done t ∧ Wrote s t (bitsLength fs) (bitsValue fs)) ∨
    (∃ t, writeFields wpos fs s = .raised t ∧ Overflowed wpos s t (s.wpos + bitsLength fs)
      (appendedBits s.build.outMaxBytes s.wpos fs) (bitsValue fs))
  | [], s, h, ho, _ => .inl ⟨s, rfl, Wrote_refl h ho _⟩
  | f :: fs, s, h, ho, hf => by
    unfold writeFields
    rcases writeBits_cases wpos f.2 h ho (hf f (by simp)) with ⟨u, e, hu⟩ | ⟨u, e, hu⟩
    · rw [e, andThen_done]
      have hb := Wrote_build hu
      rcases writeFields_cases wpos fs hu.acc_ok hu.out_ok (fun g hg => hf g (by simp [hg])) with
        ⟨t, e', ht⟩ | ⟨t, e', ht⟩
      · exact .inl ⟨t, e', Wrote_trans hu ht⟩
      · refine .inr ⟨t, e', Overflowed_congr (Overflowed_of_wrote hu ht) fun hm => ?_⟩
        have hw := (hu.appended hm).wpos_eq
        have h1 := outLen_eq hu.acc_ok hu.out_ok
        have h2 := hu.out_ok.outLen_le
        rw [hb, h1, hw] at h2
        refine ⟨by rw [hw, bitsLength]; omega, ?_, fun i _ => rfl⟩
        rw [appendedBits, if_neg (by omega), hb, hw]
    · rw [e, andThen_raised]
      refine .inr ⟨u, rfl, Overflowed_congr hu fun hm => ⟨by rw [bitsLength]; omega, ?_, fun i hi =>
        testBit_bitsValue_head f fs hi⟩⟩
      rw [appendedBits, if_pos (hu.too_long hm)]

/-- What pad_flush can do (48_bit_accumulator R303): go on with nothing pending and zero bits up to the word boundary, or
raise with the state as it was. -/
theorem padFlush_cases (wpos : BitVec 35) {s : State} (h : s.AccOk) (ho : OutOk s) :
    (∃ t, padFlush wpos s = .done t ∧ t.acc = 0 ∧ t.accCnt = 0 ∧ Wrote s t (paddedPos s.wpos - s.wpos) 0) ∨
    (padFlush wpos s = .raised (raiseError .encOutputOverflow .none wpos s) ∧
      Overflowed wpos s (raiseError .encOutputOverflow .none wpos s) (paddedPos s.wpos) 0 0) := by
  have hc := h.cnt_le
  have hal := ho.outLen_aligned
  unfold padFlush
  split
  · rcases outWrite_cases wpos (s.acc.setWidth 32) s with ⟨hov, e⟩ | ⟨hfit, e⟩
    · rw [e, andThen_raised]
      refine .inr ⟨rfl, rfl, ⟨ho.out_wf, ho.outLen_aligned, ho.outLen_le, ho.acc_lt⟩, hov,
        fun _ => OutKept_refl s, fun _ => ?_, fun _ => ⟨rfl, fun _ _ => rfl, fun _ hi => absurd hi (by omega)⟩⟩
      unfold paddedPos State.wpos; omega
    · rw [e, andThen_done]
      have hlen (hmax : s.build.outMaxBytes < 2 ^ 32) :
          (clearAcc (putWord (s.acc.setWidth 32) s)).outLen.toNat = s.outLen.toNat + 4 := by
        rw [clearAcc_outLen, putWord_outLen]; bv_omega
      refine .inl ⟨_, rfl, rfl, rfl, rfl, ⟨by simp, by simp⟩, ⟨writeWord_wf _ _ ho.out_wf, ?_, ?_, by simp⟩,
        fun hmax => ?_, fun hmax => ?_⟩
      · rw [clearAcc_outLen, putWord_outLen]
        bv_omega
      · rw [clearAcc_outLen, putWord_outLen, clearAcc_build, putWord_build]
        bv_omega
      · have := hlen hmax
        refine ⟨by omega, fun a ha => ?_⟩
        rw [clearAcc_out, putWord_out, read_writeWord ho.out_wf, if_neg (by omega)]
      · have hl := hlen hmax
        have key : ∀ k, k < 8 * (s.outLen.toNat + 4) →
            (clearAcc (putWord (s.acc.setWidth 32) s)).writtenBit k = s.writtenBit k := by
          intro k hk
          have := writtenBit_flush (s := s) ho.out_wf (by omega) k
          unfold State.writtenBit at this ⊢
          rw [dropWord_outLen, putWord_outLen, show (s.outLen + 4).toNat = s.outLen.toNat + 4 from hl,
            if_pos hk] at this
          rw [hl, if_pos hk]
          exact this
        refine ⟨?_, fun k hk => ?_, fun i hi => ?_⟩
        · unfold State.wpos paddedPos; rw [hl, clearAcc_accCnt, show BitVec.toNat (0 : BitVec 6) = 0 from rfl]; omega
        · unfold State.wpos at hk; exact key k (by omega)
        · unfold State.wpos paddedPos at hi
          rw [key _ (by unfold State.wpos; omega)]
          unfold State.writtenBit State.wpos
          rw [if_neg (by omega), getLsbD_acc_of_ge ho.acc_lt (by omega)]
          simp
  · have h0 : s.accCnt = 0 := BitVec.eq_of_toNat_eq (by simp; omega)
    have ha : s.acc = 0 := BitVec.eq_of_toNat_eq (by
      have := ho.acc_lt
      rw [h0] at this
      simpa using this)
    have hs : clearAcc s = s := by unfold clearAcc; rw [← ha, ← h0]
    rw [andThen_done, hs]
    have hp : paddedPos s.wpos - s.wpos = 0 := by unfold paddedPos State.wpos; rw [h0]; simp; omega
    rw [hp]
    exact .inl ⟨_, rfl, ha, h0, Wrote_refl h ho 0⟩

end Sys2Proof.Machine
end

