-- ==== Sys2Proof/Laws/Cursor.lean ====
section
/-! SUPPORT. What the bit cursor does: the bits of an input word, and for load, consume and realign the position they
leave and the window invariant they keep (47_bit_cursor R287). -/

namespace Sys2Proof.Machine

/-- Bit i of a little-endian word of four bytes. -/
theorem getLsbD_wordOfBytes (b0 b1 b2 b3 : Byte) (i : Nat) :
    (wordOfBytes b0 b1 b2 b3).getLsbD i =
      if i < 8 then b0.getLsbD i else if i < 16 then b1.getLsbD (i - 8)
      else if i < 24 then b2.getLsbD (i - 16) else b3.getLsbD (i - 24) := by
  unfold wordOfBytes
  rw [BitVec.getLsbD_append, BitVec.getLsbD_append, BitVec.getLsbD_append]
  by_cases h0 : i < 8
  · simp [h0]
  · by_cases h1 : i < 16
    · simp [h0, h1, show i - 8 < 8 by omega]
    · by_cases h2 : i < 24
      · simp [h0, h1, h2, show ¬ i - 8 < 8 by omega, show i - 8 - 8 = i - 16 by omega, show i - 16 < 8 by omega]
      · simp [h0, h1, h2, show ¬ i - 8 < 8 by omega, show ¬ i - 8 - 8 < 8 by omega, show i - 8 - 8 - 8 = i - 24 by omega]

/-- Bit i of Word(a) is stream bit 8·a + i (20_memory R64). -/
theorem getLsbD_inputWord (s : State) (a i : Nat) (h : i < 32) :
    (inputWord s a).getLsbD i = streamBit s (8 * a + i) := by
  unfold inputWord
  rw [getLsbD_wordOfBytes]
  unfold streamBit
  by_cases h0 : i < 8
  · rw [if_pos h0, show (8 * a + i) / 8 = a by omega, show (8 * a + i) % 8 = i by omega]
  · rw [if_neg h0]
    by_cases h1 : i < 16
    · rw [if_pos h1, show (8 * a + i) / 8 = a + 1 by omega, show (8 * a + i) % 8 = i - 8 by omega]
    · rw [if_neg h1]
      by_cases h2 : i < 24
      · rw [if_pos h2, show (8 * a + i) / 8 = a + 2 by omega, show (8 * a + i) % 8 = i - 16 by omega]
      · rw [if_neg h2, show (8 * a + i) / 8 = a + 3 by omega, show (8 * a + i) % 8 = i - 24 by omega]

theorem inputByte_congr {s t : State} (hl : t.len = s.len) (hb : t.buf = s.buf) (a : Nat) :
    inputByte t a = inputByte s a := by unfold inputByte; rw [hl, hb]

theorem inputWord_congr {s t : State} (hl : t.len = s.len) (hb : t.buf = s.buf) (a : Nat) :
    inputWord t a = inputWord s a := by
  unfold inputWord
  simp only [inputByte_congr hl hb]

theorem streamBit_congr {s t : State} (hl : t.len = s.len) (hb : t.buf = s.buf) (k : Nat) :
    streamBit t k = streamBit s k := by unfold streamBit; rw [inputByte_congr hl hb]

/-- REM as an integer where it lies in 0..32. -/
theorem rem_toInt {s : State} (h : s.rem.toNat ≤ 32) : s.rem.toInt = s.rem.toNat := by
  rw [BitVec.toInt_eq_toNat_cond]; split <;> omega

/-- POS is the natural number posNat where REM lies in 0..32. -/
theorem pos_eq_posNat {s : State} (h : s.rem.toNat ≤ 32) : s.pos = s.posNat := by
  unfold State.pos State.posNat; rw [rem_toInt h]; omega

/-- A state that agrees on the cursor and the buffer has the same window. -/
theorem window_congr {s t : State} (hf : t.front = s.front) (hm : t.mid = s.mid) (hb : t.back = s.back)
    (hr : t.rem = s.rem) (hp : t.p = s.p) (hl : t.len = s.len) (hu : t.buf = s.buf) (h : s.Window) : t.Window := by
  have hpos : t.posNat = s.posNat := by unfold State.posNat; rw [hr, hp]
  constructor
  · rw [hr]; exact h.rem_le
  · intro i hi; rw [hf, hpos, streamBit_congr hl hu]; exact h.front_bits i hi
  · intro i; rw [hm, hr, hpos, streamBit_congr hl hu]; exact h.mid_bits i
  · rw [hb, hp, inputWord_congr hl hu]; exact h.back_word

/-- load(p) leaves POS at 8·p. -/
theorem load_posNat (q : Nat) (s : State) : (load q s).posNat = 8 * q := by simp [State.posNat]

/-- load establishes the window (47_bit_cursor R287). -/
theorem load_window (q : Nat) (s : State) : (load q s).Window := by
  have hs : ∀ k, streamBit (load q s) k = streamBit s k := fun k => streamBit_congr (by simp) (by simp) k
  constructor
  · simp
  · intro i hi
    rw [load_posNat, hs, load_front, getLsbD_inputWord s q i hi]
  · intro i
    rw [load_posNat, hs, load_mid, load_rem]
    by_cases hi : i < 32
    · rw [getLsbD_inputWord s _ i hi, show 8 * (q + 4) + i = 8 * q + 32 + i by omega]; simp [hi]
    · rw [BitVec.getLsbD_of_ge _ _ (by omega)]; simp [hi]
  · rw [load_back, load_p]; exact (inputWord_congr (by simp) (by simp) _).symm

theorem shiftWindow_rem_of_le {n : Nat} {s : State} (hn : n ≤ s.rem.toNat) :
    (shiftWindow n s).rem.toNat = s.rem.toNat - n := by
  have := s.rem.isLt
  simp only [shiftWindow_rem]
  bv_omega

theorem shiftWindow_rem_toInt {n : Nat} {s : State} (hr : s.rem.toNat ≤ 32) (hn : n ≤ 32) :
    (shiftWindow n s).rem.toInt = (s.rem.toNat : Int) - n := by
  simp only [shiftWindow_rem]
  rw [BitVec.toInt_eq_toNat_cond]
  split <;> bv_omega

/-- What consume(n) leaves of REM, P and the other cursor registers, without a refill and with one (47_bit_cursor R283,
R284). -/
theorem consume_cases {n : Nat} {s : State} (hr : s.rem.toNat ≤ 32) (hn : n ≤ 32) :
    (n ≤ s.rem.toNat ∧ (consume n s).p = s.p ∧ (consume n s).rem.toNat = s.rem.toNat - n ∧
      (consume n s).back = s.back ∧ (consume n s).mid = s.mid >>> n ∧
      (consume n s).front = s.front >>> n ||| s.mid <<< (32 - n)) ∨
    (s.rem.toNat < n ∧ (consume n s).p = s.p + 4 ∧ (consume n s).rem.toNat = 32 + s.rem.toNat - n ∧
      (consume n s).back = inputWord s (s.p + 12) ∧ (consume n s).mid = s.back >>> (n - s.rem.toNat) ∧
      (consume n s).front =
        s.front >>> n ||| s.mid <<< (32 - n) ||| s.back <<< (32 - (n - s.rem.toNat))) := by
  unfold consume
  have hi := shiftWindow_rem_toInt hr hn
  split
  · subst_vars
    refine .inl ⟨Nat.zero_le _, rfl, by simp, rfl, by simp, ?_⟩
    ext i hi
    simp
  · by_cases h : n ≤ s.rem.toNat
    · left
      have hnn : ¬ (shiftWindow n s).rem.toInt < 0 := by rw [hi]; omega
      simp only [refillIfShort, if_neg hnn]
      exact ⟨h, by simp, by rw [markOverrun_rem]; exact shiftWindow_rem_of_le h, by simp, by simp, by simp⟩
    · right
      have hnn : (shiftWindow n s).rem.toInt < 0 := by rw [hi]; omega
      have hk : (-(shiftWindow n s).rem.toInt).toNat = n - s.rem.toNat := by rw [hi]; omega
      simp only [refillIfShort, if_pos hnn, hk]
      refine ⟨by omega, by simp, ?_, ?_, by simp, by simp⟩
      · simp only [markOverrun_rem, refill_rem, shiftWindow_rem]
        bv_omega
      · simp only [markOverrun_back, refill_back, shiftWindow_p]
        exact inputWord_congr (by simp) (by simp) _

/-- consume(n) moves POS by exactly n (47_bit_cursor R283, R287). -/
theorem consume_posNat {n : Nat} {s : State} (hr : s.rem.toNat ≤ 32) (hn : n ≤ 32) :
    (consume n s).posNat = s.posNat + n := by
  unfold State.posNat
  rcases consume_cases hr hn with ⟨h, hp, hrem, -⟩ | ⟨h, hp, hrem, -⟩ <;> rw [hp, hrem] <;> omega

/-- consume keeps REM in 0..32 (47_bit_cursor R286). -/
theorem consume_rem_le {n : Nat} {s : State} (hr : s.rem.toNat ≤ 32) (hn : n ≤ 32) :
    (consume n s).rem.toNat ≤ 32 := by
  rcases consume_cases hr hn with ⟨h, -, hrem, -⟩ | ⟨h, -, hrem, -⟩ <;> rw [hrem] <;> omega

/-- consume keeps P a multiple of 4 (20_memory R66). -/
theorem consume_p_mod {n : Nat} {s : State} (hr : s.rem.toNat ≤ 32) (hn : n ≤ 32) :
    (consume n s).p % 4 = s.p % 4 := by
  rcases consume_cases hr hn with ⟨-, hp, -⟩ | ⟨-, hp, -⟩ <;> rw [hp]; omega

/-- consume keeps the window invariant (47_bit_cursor R287). -/
theorem consume_window {n : Nat} {s : State} (h : s.Window) (hn : n ≤ 32) : (consume n s).Window := by
  have hr := h.rem_le
  have hs : ∀ k, streamBit (consume n s) k = streamBit s k := fun k => streamBit_congr (by simp) (by simp) k
  have hpos := consume_posNat hr hn
  have hback : ∀ i, i < 32 → s.back.getLsbD i = streamBit s (s.posNat + 32 + s.rem.toNat + i) := by
    intro i hi
    rw [h.back_word, getLsbD_inputWord s _ i hi]
    congr 1
    unfold State.posNat; omega
  rcases consume_cases hr hn with ⟨hle, hp, hrem, hbk, hmid, hfront⟩ | ⟨hlt, hp, hrem, hbk, hmid, hfront⟩
  · constructor
    · omega
    · intro i hi
      rw [hpos, hs, hfront, BitVec.getLsbD_or, BitVec.getLsbD_ushiftRight, BitVec.getLsbD_shiftLeft]
      by_cases hc : n + i < 32
      · rw [h.front_bits _ hc]
        simp [hi, show i < 32 - n by omega, show s.posNat + (n + i) = s.posNat + n + i by omega]
      · rw [BitVec.getLsbD_of_ge _ _ (by omega), h.mid_bits]
        simp [hi, show ¬ i < 32 - n by omega, show i - (32 - n) < s.rem.toNat by omega,
          show s.posNat + 32 + (i - (32 - n)) = s.posNat + n + i by omega]
    · intro i
      rw [hpos, hs, hmid, hrem, BitVec.getLsbD_ushiftRight, h.mid_bits,
        show s.posNat + 32 + (n + i) = s.posNat + n + 32 + i by omega]
      congr 1
      exact decide_eq_decide.mpr (by omega)
    · rw [hbk, hp, inputWord_congr (s := s) (by simp) (by simp)]; exact h.back_word
  · constructor
    · omega
    · intro i hi
      rw [hpos, hs, hfront, BitVec.getLsbD_or, BitVec.getLsbD_or, BitVec.getLsbD_ushiftRight,
        BitVec.getLsbD_shiftLeft, BitVec.getLsbD_shiftLeft]
      by_cases hc : n + i < 32
      · rw [h.front_bits _ hc]
        simp [show i < 32 - n by omega, show i < 32 - (n - s.rem.toNat) by omega,
          show s.posNat + (n + i) = s.posNat + n + i by omega]
      · rw [BitVec.getLsbD_of_ge _ _ (by omega), h.mid_bits]
        by_cases hc2 : i - (32 - n) < s.rem.toNat
        · simp [hi, show ¬ i < 32 - n by omega, hc2, show i < 32 - (n - s.rem.toNat) by omega,
            show s.posNat + 32 + (i - (32 - n)) = s.posNat + n + i by omega]
        · rw [hback _ (by omega)]
          simp [hi, hc2, show ¬ i < 32 - (n - s.rem.toNat) by omega,
            show s.posNat + 32 + s.rem.toNat + (i - (32 - (n - s.rem.toNat))) = s.posNat + n + i by omega]
    · intro i
      rw [hpos, hs, hmid, hrem, BitVec.getLsbD_ushiftRight]
      by_cases hc : n - s.rem.toNat + i < 32
      · rw [hback _ hc]
        simp [show i < 32 + s.rem.toNat - n by omega,
          show s.posNat + 32 + s.rem.toNat + (n - s.rem.toNat + i) = s.posNat + n + 32 + i by omega]
      · rw [BitVec.getLsbD_of_ge _ _ (by omega)]
        simp [show ¬ i < 32 + s.rem.toNat - n by omega]
    · rw [hbk, hp]; exact (inputWord_congr (by simp) (by simp) _).symm

/-- consume sets OVERRUN exactly when the consumed bits reach past the buffer (47_bit_cursor R288). -/
theorem consume_overrun {n : Nat} {s : State} (hr : s.rem.toNat ≤ 32) (hn : n ≤ 32) (h0 : n ≠ 0) :
    (consume n s).overrun = (s.overrun || decide (8 * s.len.toNat < s.posNat + n)) := by
  have hpos : (refillIfShort (shiftWindow n s)).pos = (consume n s).pos := by
    unfold consume; rw [if_neg h0]; rfl
  have : (consume n s).overrun = overrunAfter s.overrun (consume n s).pos s.len := by
    rw [← hpos]; unfold consume; rw [if_neg h0]; simp
  rw [this, pos_eq_posNat (consume_rem_le hr hn), consume_posNat hr hn]
  unfold overrunAfter
  congr 1
  exact decide_eq_decide.mpr (by omega)

/-- realign() either raises END_OF_STREAM at POS, because the next column's first word is not wholly in the buffer, or
loads that word (47_bit_cursor R289, R290). -/
theorem realign_cases (s : State) :
    (s.len.toNat < realignTarget s + 4 ∧ realign s = .raised (raiseError .endOfStream .none s.posBits s)) ∨
    (realignTarget s + 4 ≤ s.len.toNat ∧ realign s = .done (load (realignTarget s) s)) := by
  unfold realign
  split
  · exact .inl ⟨by omega, rfl⟩
  · exact .inr ⟨by omega, rfl⟩

/-- The next column starts at POS rounded up to a multiple of 32 (47_bit_cursor R289). -/
theorem realignTarget_eq {s : State} (hr : s.rem.toNat ≤ 32) (hp : s.p % 4 = 0) :
    8 * realignTarget s = 32 * ((s.posNat + 31) / 32) := by
  unfold realignTarget State.posNat
  have : s.rem = 32 ↔ s.rem.toNat = 32 := by
    constructor
    · intro h; rw [h]; rfl
    · intro h; exact BitVec.eq_of_toNat_eq (by simpa using h)
  by_cases h : s.rem = 32
  · rw [if_pos h, this.mp h]; omega
  · rw [if_neg h]
    have : s.rem.toNat ≠ 32 := fun h' => h (this.mpr h')
    omega

theorem realignTarget_mod {s : State} : realignTarget s % 4 = s.p % 4 := by unfold realignTarget; split <;> omega

theorem zeroPreds_realignTarget (s : State) : realignTarget (zeroPreds s) = realignTarget s := rfl

/-- What the column reset can do (45_decoder R220): raise with the predictors 0 and the cursor as it was, or load the
next column with a full quota. -/
theorem columnReset_cases (s : State) :
    (s.len.toNat < realignTarget s + 4 ∧
      columnReset s = .raised (raiseError .endOfStream .none s.posBits (zeroPreds s))) ∨
    (realignTarget s + 4 ≤ s.len.toNat ∧
      columnReset s = .done (reloadQuota (load (realignTarget s) (zeroPreds s)))) := by
  unfold columnReset
  rcases realign_cases (zeroPreds s) with ⟨h, e⟩ | ⟨h, e⟩
  · exact .inl ⟨h, by rw [e]; rfl⟩
  · exact .inr ⟨h, by rw [e]; rfl⟩

end Sys2Proof.Machine
end

