-- ==== Sys2Proof/Laws/Tables.lean ====
section
/-! SUPPORT. What the checks of a registry give (41_prefix_lookup R136, R140): two patterns of one table never match one
window, so the lookup finds every entry whose bits the window begins with. -/

namespace Sys2Proof

/-! ### Patterns -/

/-- Two patterns that match one window agree on their common bits. -/
theorem patternsMeet_of_match {F l c l' c' : Nat} (h : F % 2 ^ l = c) (h' : F % 2 ^ l' = c') :
    patternsMeet l c l' c' = true := by
  subst h h'
  have d1 : 2 ^ min l l' ∣ 2 ^ l := Nat.pow_dvd_pow 2 (Nat.min_le_left l l')
  have d2 : 2 ^ min l l' ∣ 2 ^ l' := Nat.pow_dvd_pow 2 (Nat.min_le_right l l')
  simp [patternsMeet, Nat.mod_mod_of_dvd _ d1, Nat.mod_mod_of_dvd _ d2]

theorem patternsMeet_comm (l c l' c' : Nat) : patternsMeet l c l' c' = patternsMeet l' c' l c := by
  unfold patternsMeet
  rw [Nat.min_comm l l', Bool.eq_iff_iff, beq_iff_eq, beq_iff_eq]
  exact eq_comm

/-- A passed pairwise test holds for any two elements at different places. -/
theorem allPairs_of_mem {α : Type} {ok : α → α → Bool} (hs : ∀ a b, ok a b = ok b a) :
    ∀ {l : List α}, allPairs ok l = true → ∀ a ∈ l, ∀ b ∈ l, a ≠ b → ok a b = true
  | [], _, a, ha, _, _, _ => by cases ha
  | x :: xs, h, a, ha, b, hb, hne => by
    simp only [allPairs, Bool.and_eq_true, List.all_eq_true] at h
    rcases List.mem_cons.mp ha with rfl | ha'
    · rcases List.mem_cons.mp hb with rfl | hb'
      · exact absurd rfl hne
      · exact h.1 b hb'
    · rcases List.mem_cons.mp hb with rfl | hb'
      · rw [hs]; exact h.1 a ha'
      · exact allPairs_of_mem hs h.2 a ha' b hb' hne

theorem covers_iff {α : Type} (e : Entry α) (x : Nat) : e.covers x = true ↔ x % 2 ^ e.len = e.code := by
  simp [Entry.covers]

theorem escMatch_iff (esc : Escape) (F : Word) : escMatch esc F = true ↔ F.toNat % 2 ^ esc.len = esc.value := by
  simp [escMatch]

/-! ### One table -/

section
variable {α : Type} {t : Table α}

theorem entryLen_of_mem (h : t.entryLenOk = true) {e : Entry α} (he : e ∈ t.entries) :
    1 ≤ e.len ∧ e.len ≤ t.width ∧ e.len ≤ 14 ∧ e.code < 2 ^ e.len := by
  simp only [Table.entryLenOk, List.all_eq_true, Bool.and_eq_true, decide_eq_true_eq] at h
  obtain ⟨⟨h1, h2⟩, h3⟩ := h e he
  exact ⟨h1, Nat.le_trans h2 (Nat.min_le_left _ _), Nat.le_trans h2 (Nat.min_le_right _ _), h3⟩

/-- A table's entries have a legal shape (30_encoding R92). -/
theorem shapeOk_of_mem (h : t.entryLenOk = true) {e : Entry α} (he : e ∈ t.entries) : e.shapeOk = true := by
  obtain ⟨h1, -, h3, h4⟩ := entryLen_of_mem h he
  simp [Entry.shapeOk, Config.maxVlcLen, h1, h3, h4]

/-- Two entries of a table without collisions that cover one slot are the same entry. -/
theorem entry_unique (h : t.noCollision = true) {e e' : Entry α} (he : e ∈ t.entries) (he' : e' ∈ t.entries)
    {x : Nat} (hc : e.covers x = true) (hc' : e'.covers x = true) : e = e' := by
  by_contra hne
  have := allPairs_of_mem (fun a b : Entry α => by rw [patternsMeet_comm]) h e he e' he' hne
  rw [patternsMeet_of_match ((covers_iff e x).mp hc) ((covers_iff e' x).mp hc')] at this
  cases this

/-- What the lookup array's slot x holds: the entry that covers it (41_prefix_lookup R131). -/
theorem entryAt_of_covers (h : t.noCollision = true) {e : Entry α} (he : e ∈ t.entries) {x : Nat}
    (hc : e.covers x = true) : t.entryAt x = some e := by
  cases hf : t.entryAt x with
  | none => exact absurd hc (by simpa using List.find?_eq_none.mp hf e he)
  | some e' =>
    rw [entry_unique h he (List.mem_of_find?_eq_some hf) hc (List.find?_some (p := fun e : Entry α => e.covers x) (l := t.entries) hf)]

theorem mod_two_pow_mod {n l w : Nat} (h : l ≤ w) : n % 2 ^ w % 2 ^ l = n % 2 ^ l :=
  Nat.mod_mod_of_dvd _ (Nat.pow_dvd_pow 2 h)

/-- An entry the lookup finds is one of the table's, and the window begins with its bits (41_prefix_lookup R135). -/
theorem lookupEntry_some (h : t.entryLenOk = true) {F : Word} {e : Entry α} (he : t.lookupEntry F = some e) :
    e ∈ t.entries ∧ F.toNat % 2 ^ e.len = e.code := by
  have hm := List.mem_of_find?_eq_some he
  have hc := (covers_iff e _).mp (List.find?_some (p := fun e : Entry α => e.covers (F.toNat % 2 ^ t.width)) (l := t.entries) he)
  rw [mod_two_pow_mod (entryLen_of_mem h hm).2.1] at hc
  exact ⟨hm, hc⟩

/-- The lookup finds the entry whose bits the window begins with. -/
theorem lookupEntry_of_match (h : t.entryLenOk = true) (hn : t.noCollision = true) {F : Word} {e : Entry α}
    (he : e ∈ t.entries) (hF : F.toNat % 2 ^ e.len = e.code) : t.lookupEntry F = some e :=
  entryAt_of_covers hn he ((covers_iff e _).mpr (by rw [mod_two_pow_mod (entryLen_of_mem h he).2.1]; exact hF))

/-- An escape and an entry of one table match no common window (41_prefix_lookup R140). -/
theorem esc_entry_disjoint {escs : List Escape} (h : t.escDisjoint escs = true) {a : Escape} (ha : a ∈ escs)
    {e : Entry α} (he : e ∈ t.entries) {F : Word} (hF : F.toNat % 2 ^ e.len = e.code) : escMatch a F = false := by
  by_contra hm
  have hm := (escMatch_iff a F).mp (by simpa using hm)
  simp only [Table.escDisjoint, Bool.and_eq_true, List.all_eq_true] at h
  have := h.2 a ha e he
  rw [patternsMeet_of_match hm hF] at this
  cases this

/-- Two escapes of one table match no common window (41_prefix_lookup R140). -/
theorem esc_esc_disjoint {a b : Escape} (h : t.escDisjoint [a, b] = true) {F : Word} (ha : escMatch a F = true) :
    escMatch b F = false := by
  by_contra hm
  have ha := (escMatch_iff a F).mp ha
  have hm := (escMatch_iff b F).mp (by simpa using hm)
  simp only [Table.escDisjoint, allPairs, Bool.and_eq_true, List.all_eq_true] at h
  have := h.1.1 b (by simp)
  rw [patternsMeet_of_match ha hm] at this
  cases this

end

/-! ### A well-formed registry -/

/-- A well-formed registry's checks, by table (41_prefix_lookup R136). -/
structure Registry.Checks (r : Registry) : Prop where
  dc_len : r.dc.entryLenOk = true
  ins_len : r.ins.entryLenOk = true
  ac_len : ∀ k, (r.ac k).table.entryLenOk = true
  dc_col : r.dc.noCollision = true
  ins_col : r.ins.noCollision = true
  ac_col : ∀ k, (r.ac k).table.noCollision = true
  dc_esc : 1 ≤ r.escDc.len ∧ r.escDc.value < 2 ^ r.escDc.len ∧ r.escDc.len + 10 ≤ 32
  ac_esc1 : ∀ k, 1 ≤ (r.ac k).esc1.len ∧ (r.ac k).esc1.value < 2 ^ (r.ac k).esc1.len ∧
    (r.ac k).esc1.len + k.esc1Field ≤ 32
  ac_esc2 : ∀ k, 1 ≤ (r.ac k).esc2.len ∧ (r.ac k).esc2.value < 2 ^ (r.ac k).esc2.len ∧ (r.ac k).esc2.len + 16 ≤ 32
  dc_dis : r.dc.escDisjoint [r.escDc] = true
  ac_dis : ∀ k, (r.ac k).table.escDisjoint [(r.ac k).esc1, (r.ac k).esc2] = true
  ins_sum : r.insSumUnique = true
  dc_pay : ∀ e ∈ r.dc.entries, deltaInRange e.payload = true
  ins_pay : ∀ e ∈ r.ins.entries, e.payload.inRange = true
  ac_pay : ∀ k, ∀ e ∈ (r.ac k).table.entries, codeInRange e.payload = true

theorem Registry.checks {r : Registry} (h : r.wf = true) : r.Checks := by
  simp only [Registry.wf, Registry.entryLenOk, Registry.noCollision, Registry.escShapeOk, Registry.escDisjoint,
    Registry.payloadOk, Escape.shapeOk, Bool.and_eq_true, decide_eq_true_eq,
    List.all_eq_true] at h
  obtain ⟨⟨⟨⟨⟨⟨⟨⟨⟨⟨a1, a2⟩, a3⟩, a4⟩, a5⟩, ⟨⟨⟨b1, b2⟩, b3⟩, b4⟩, b5⟩, ⟨⟨⟨c1, c2⟩, c3, c4⟩, c5, c6⟩, c7, c8⟩,
    ⟨⟨d1, d2⟩, d3⟩, d4⟩, -⟩, f⟩, ⟨⟨⟨g1, g2⟩, g3⟩, g4⟩, g5⟩ := h
  constructor
  case ac_len => intro k; cases k <;> assumption
  case ac_col => intro k; cases k <;> assumption
  case ac_esc1 =>
    intro k
    cases k
    · exact ⟨c3.1.1, c3.1.2, c3.2⟩
    · exact ⟨c5.1.1, c5.1.2, c5.2⟩
    · exact ⟨c7.1.1, c7.1.2, c7.2⟩
  case ac_esc2 =>
    intro k
    cases k
    · exact ⟨c4.1.1, c4.1.2, c4.2⟩
    · exact ⟨c6.1.1, c6.1.2, c6.2⟩
    · exact ⟨c8.1.1, c8.1.2, c8.2⟩
  case ac_dis => intro k; cases k <;> assumption
  case ac_pay => intro k; cases k <;> assumption
  case dc_esc => exact ⟨c1.1, c1.2, c2⟩
  all_goals assumption

theorem Build.registry_wf {b : Build} (h : b.wf = true) (sel : BitVec 1) : (b.registry sel).wf = true := by
  simp only [Build.wf, Bool.and_eq_true] at h
  unfold Build.registry
  split
  · exact h.1.1
  · exact h.1.2

/-- A decoded element is one of its class, and it takes at most the window's 32 bits (30_encoding R106). -/
theorem decodeElement_length_le {r : Registry} (h : r.wf = true) {cls : ElementClass} {F : Word} {i : Instr}
    (hd : decodeElement r cls F = some i) : i.elementClass = some cls ∧ elementLength r i ≤ 32 := by
  have c := Registry.checks h
  have fe1 := c.ac_esc1
  have fe2 := c.ac_esc2
  have fd := c.dc_esc
  have hAc : ∀ k, ∀ e, (r.ac k).table.lookupEntry F = some e → e.len ≤ 32 := fun k e he => by
    have := entryLen_of_mem (c.ac_len k) (lookupEntry_some (c.ac_len k) he).1; omega
  cases cls with
  | dc =>
    simp only [decodeElement, decodeDc] at hd
    split at hd
    · cases hd; exact ⟨rfl, by simp only [elementLength]; omega⟩
    · obtain ⟨e, he, rfl⟩ := Option.map_eq_some_iff.mp hd
      have := entryLen_of_mem c.dc_len (lookupEntry_some c.dc_len he).1
      exact ⟨rfl, by simp only [elementLength]; omega⟩
  | ins =>
    simp only [decodeElement, decodeIns] at hd
    obtain ⟨e, he, rfl⟩ := Option.map_eq_some_iff.mp hd
    have := entryLen_of_mem c.ins_len (lookupEntry_some c.ins_len he).1
    exact ⟨rfl, by simp only [elementLength]; omega⟩
  | ac k =>
    have := fe1 k
    have := fe2 k
    cases k <;> simp only [decodeElement, decodeAc1, decodeAc2, decodeAc3] at hd <;> split at hd
    all_goals
      first
      | (cases hd; exact ⟨rfl, by simp_all [elementLength, Registry.ac, Role.esc1Field, Role.runWidth, Role.levelWidth]⟩)
      | skip
    all_goals
      split at hd
      · cases hd; exact ⟨rfl, by simp_all [elementLength, Registry.ac]⟩
      · obtain ⟨e, he, rfl⟩ := Option.map_eq_some_iff.mp hd
        first
        | exact ⟨rfl, hAc .one e he⟩
        | exact ⟨rfl, hAc .two e he⟩
        | exact ⟨rfl, hAc .three e he⟩

/-! ### The encoder's choices are elements of the registry -/

theorem chooseDc_wfIn {r : Registry} (h : r.wf = true) (dc prev : Word) : (chooseDc r dc prev).wfIn r = true := by
  have c := Registry.checks h
  unfold chooseDc
  split
  · rename_i e he
    have hm := List.mem_of_find?_eq_some he
    have hw : e.shapeOk = true := shapeOk_of_mem c.dc_len hm
    simp [Instr.wfIn, Instr.wf, hw, hm, c.dc_pay e hm]
  · rfl

theorem chooseIns_wfIn {r : Registry} (h : r.wf = true) {s : Nat} {e : Entry Counts} (he : chooseIns r s = some e) :
    (Instr.insVlc e).wfIn r = true ∧ e.payload.c1 + e.payload.c2 + e.payload.c3 = s := by
  have c := Registry.checks h
  have hm := List.mem_of_find?_eq_some he
  have hs := List.find?_some he
  refine ⟨?_, of_decide_eq_true hs⟩
  have hw : e.shapeOk = true := shapeOk_of_mem c.ins_len hm
  simp [Instr.wfIn, Instr.wf, hw, hm, c.ins_pay e hm]

theorem chooseAc_wfIn {r : Registry} (h : r.wf = true) (k : Role) (code : Code) :
    (chooseAc r k code).wfIn r = true := by
  have c := Registry.checks h
  unfold chooseAc
  split
  · rename_i e he
    have hm := List.mem_of_find?_eq_some he
    have hw : e.shapeOk = true := shapeOk_of_mem (c.ac_len k) hm
    have hp := c.ac_pay k e hm
    cases k <;> simp_all [acVlcOf, Registry.ac, Instr.wfIn, Instr.wf]
  · split <;> cases k <;> rfl

end Sys2Proof
end

