-- ==== Sys2Proof/Laws/Decoder.lean ====
section
/-! SUPPORT. What the decoder's steps do: the element a PULL runs, by class, and where normalize leaves the phase
(45_decoder R218, R222, R223, R224). -/

namespace Sys2Proof.Machine

/-! ### normalize -/

/-- normalize leaves ACk of the first table from k on with codes left, else BLOCK_END (45_decoder R224). -/
theorem normalizedFrom_cases (s : State) (k : Role) :
    (∃ j, normalizedFrom s k = phaseOfRole j ∧ s.cnt j ≠ 0) ∨ normalizedFrom s k = .blockEnd := by
  cases k <;> simp only [normalizedFrom] <;> (repeat' split) <;>
    first
    | exact .inr rfl
    | (refine .inl ⟨.one, rfl, ?_⟩; assumption)
    | (refine .inl ⟨.two, rfl, ?_⟩; assumption)
    | (refine .inl ⟨.three, rfl, ?_⟩; assumption)

theorem normalize_of_phase {s : State} {k : Role} (h : s.phase = phaseOfRole k) :
    normalize s = setPhase (normalizedFrom s k) s := by
  unfold normalize
  cases k <;> rw [h] <;> rfl

@[simp] theorem normalize_cnt (s : State) (k : Role) : (normalize s).cnt k = s.cnt k := by
  cases k <;> simp [State.cnt]

@[simp] theorem setPhase_cnt (ph : Phase) (s : State) (k : Role) : (setPhase ph s).cnt k = s.cnt k := by
  cases k <;> rfl

@[simp] theorem countCode_cnt (s : State) (k : Role) : (countCode s).cnt k = s.cnt k := by cases k <;> rfl

@[simp] theorem consume_cnt (n : Nat) (s : State) (k : Role) : (consume n s).cnt k = s.cnt k := by
  cases k <;> simp [State.cnt]

@[simp] theorem decCnt_cnt (k j : Role) (s : State) :
    (decCnt k s).cnt j = if j = k then s.cnt j - 1 else s.cnt j := by cases k <;> cases j <;> rfl

theorem phaseOfRole_inj {j k : Role} (h : phaseOfRole j = phaseOfRole k) : j = k := by
  cases j <;> cases k <;> first | rfl | cases h

/-- The phase after an AC step is ACj with codes of table j left, or BLOCK_END (45_decoder R223, R224). -/
theorem acStep_eq {k : Role} {s : State} (h : s.phase = phaseOfRole k) (code : Code) (n : Nat) :
    acStep k code n s = emit (codeResponse .codeAc code)
      (setPhase (normalizedFrom (countCode (decCnt k (consume n s))) k) (countCode (decCnt k (consume n s)))) := by
  unfold acStep
  rw [normalize_of_phase (k := k) (by simpa using h)]

/-- The state after an instruction step, with the phase normalized (45_decoder R222, R224). -/
theorem insStep_eq (c : Counts) (n : Nat) (s : State) :
    insStep c n s = setPhase (normalizedFrom (loadCounts c (consume n s)) .one) (loadCounts c (consume n s)) := by
  unfold insStep
  rw [normalize_of_phase (k := .one) rfl]
  rfl

/-! ### The element a PULL runs -/

theorem accepts_ac {s : State} {k : Role} (hm : s.mode = .decode) (hp : s.phase = phaseOfRole k) (hc : s.cnt k ≠ 0) :
    accepts (.ac k) s = true := by
  simp only [accepts, hm, hp, decide_true, Bool.true_and]; exact decide_eq_true hc

theorem accepts_dc {s : State} (hm : s.mode = .decode) (hp : s.phase = .atDc) (hq : s.quota ≠ 0) :
    accepts .dc s = true := by
  simp only [accepts, hm, hp, decide_true, Bool.true_and]; exact decide_eq_true hq

theorem accepts_ins {s : State} (hm : s.mode = .decode) (hp : s.phase = .atIns) : accepts .ins s = true := by
  simp [accepts, hm, hp]

/-- A decoded element is of the class asked for (30_encoding R94). -/
theorem decodeElement_class {r : Registry} {cls : ElementClass} {F : Word} {i : Instr}
    (hd : decodeElement r cls F = some i) : i.elementClass = some cls := by
  rcases cls with _ | _ | k
  case ac => cases k <;> simp only [decodeElement, decodeAc1, decodeAc2, decodeAc3] at hd <;>
    (split at hd <;> [skip; split at hd]) <;>
    first
    | (cases hd; rfl)
    | (obtain ⟨e, -, rfl⟩ := Option.map_eq_some_iff.mp hd; rfl)
  all_goals
    simp only [decodeElement, decodeDc, decodeIns] at hd
    try split at hd
  all_goals
    first
    | (cases hd; rfl)
    | (obtain ⟨e, -, rfl⟩ := Option.map_eq_some_iff.mp hd; rfl)

/-- The DC element that comes next: DC decode, then the DC step, or READ_CORRUPTION (45_decoder R218). -/
theorem runElement_dc {s : State} (h : accepts .dc s = true) :
    runElement .dc s = match dcDecode s.registry s.front (s.pred (chainRead s.blk)) with
      | none => .next (raiseError .readCorruption .dc s.posBits s)
      | some (dc, n) => .next (dcStep dc n s) := by
  unfold runElement dcDecode
  cases hd : decodeElement s.registry .dc s.front with
  | none => rfl
  | some i =>
    have hc := decodeElement_class hd
    cases i <;> simp [Instr.elementClass] at hc <;>
      simp [execElement, execDcEsc, execDcVlc, h, dcElementValue, elementLength]

/-- The instruction element: the lookup, then the instruction step, or READ_CORRUPTION (45_decoder R222). -/
theorem runElement_ins {s : State} (h : accepts .ins s = true) :
    runElement .ins s = match s.registry.ins.lookupEntry s.front with
      | none => .next (raiseError .readCorruption .ins s.posBits s)
      | some e => .next (insStep e.payload e.len s) := by
  unfold runElement
  simp only [decodeElement, decodeIns]
  cases hl : s.registry.ins.lookupEntry s.front with
  | none => rfl
  | some e => simp [execElement, execInsVlc, h]

/-- The AC element of a role: AC decode, then the AC step, or READ_CORRUPTION (45_decoder R223). -/
theorem runElement_ac {s : State} {k : Role} (h : accepts (.ac k) s = true) :
    runElement (.ac k) s = match acDecode s.registry k s.front with
      | none => .next (raiseError .readCorruption (tableOfClass (.ac k)) s.posBits s)
      | some (c, n) => .next (acStep k c n s) := by
  unfold runElement acDecode
  cases hd : decodeElement s.registry (.ac k) s.front with
  | none => rfl
  | some i =>
    have hc := decodeElement_class hd
    cases i <;> simp [Instr.elementClass] at hc <;> subst hc <;>
      simp [execElement, execAc1Esc1, execAc1Esc2, execAc1Vlc, execAc2Esc1, execAc2Esc2, execAc2Vlc, execAc3Esc1,
        execAc3Esc2, execAc3Vlc, runAc, h, acElementCode, elementLength]

/-- What a DC decode consumes fits the window. -/
theorem dcDecode_le {r : Registry} (h : r.wf = true) {F prev dc : Word} {n : Nat}
    (hd : dcDecode r F prev = some (dc, n)) : n ≤ 32 := by
  unfold dcDecode at hd
  split at hd
  · cases hd
  · obtain ⟨v, -, hv⟩ := Option.map_eq_some_iff.mp hd
    cases hv
    exact (decodeElement_length_le h ‹_›).2

/-- What an AC decode consumes fits the window. -/
theorem acDecode_le {r : Registry} (h : r.wf = true) {k : Role} {F : Word} {c : Code} {n : Nat}
    (hd : acDecode r k F = some (c, n)) : n ≤ 32 := by
  unfold acDecode at hd
  split at hd
  · cases hd
  · obtain ⟨v, -, hv⟩ := Option.map_eq_some_iff.mp hd
    cases hv
    exact (decodeElement_length_le h ‹_›).2

/-- What an instruction consumes fits the window. -/
theorem lookupIns_le {r : Registry} (h : r.wf = true) {F : Word} {e : Entry Counts}
    (he : r.ins.lookupEntry F = some e) : e.len ≤ 32 ∧ e.payload.inRange = true := by
  have c := Registry.checks h
  have hm := (lookupEntry_some c.ins_len he).1
  have := entryLen_of_mem c.ins_len hm
  exact ⟨by omega, c.ins_pay e hm⟩

end Sys2Proof.Machine
end

