-- ==== Sys2Proof/Laws/Fields.lean ====
section
/-! SUPPORT. Bit fields of a window as numbers: a field by division and remainder, and a window that begins with one
pattern followed by another (00_scope R9, 30_encoding R118). -/

namespace Sys2Proof

theorem field_toNat (F : Word) (o w : Nat) : (field F o w).toNat = F.toNat / 2 ^ o % 2 ^ w := by
  simp [field, BitVec.extractLsb'_toNat, Nat.shiftRight_eq_div_pow]

/-- A window that begins with e bits v and then w bits x. -/
theorem mod_split {F e v w x : Nat} (hv : v < 2 ^ e) (h : F % 2 ^ (e + w) = v + 2 ^ e * x) :
    F % 2 ^ e = v ∧ F / 2 ^ e % 2 ^ w = x := by
  have h1 : F % 2 ^ (e + w) % 2 ^ e = F % 2 ^ e := Nat.mod_mod_of_dvd _ (Nat.pow_dvd_pow 2 (by omega))
  have h2 : F % 2 ^ (e + w) / 2 ^ e = F / 2 ^ e % 2 ^ w := by
    rw [Nat.pow_add]; exact Nat.mod_mul_right_div_self F (2 ^ e) (2 ^ w)
  have hp := Nat.two_pow_pos e
  refine ⟨?_, ?_⟩
  · rw [← h1, h, Nat.add_mul_mod_self_left, Nat.mod_eq_of_lt hv]
  · rw [← h2, h, Nat.add_mul_div_left _ _ hp, Nat.div_eq_of_lt hv]; omega

/-- The converse of `mod_split`. -/
theorem mod_join {F e v w x : Nat} (h1 : F % 2 ^ e = v) (h2 : F / 2 ^ e % 2 ^ w = x) :
    F % 2 ^ (e + w) = v + 2 ^ e * x := by
  rw [Nat.pow_add, Nat.mod_mul, h1, h2]

end Sys2Proof
end

