-- ==== Sys2Proof/Laws/PerInstr.lean ====
section
/-! SUPPORT. The per-instruction family ElementFits: an element of a well-formed registry is written in as many bits as
its format says, and these fit the 32-bit window (30_encoding R94, R106, R118). A host command takes no stream bit. -/

namespace Sys2Proof.Laws.ElementFits

def Statement (i : Instr) : Prop :=
  ∀ r : Registry, r.wf = true → i.wfIn r = true →
    bitsLength (encodeElement r i) = elementLength r i ∧ elementLength r i ≤ 32 ∧
      ∀ f ∈ encodeElement r i, f.2 < 2 ^ f.1

theorem dcEsc (v10 : BitVec 10) : Statement (.dcEsc v10) := by
  intro r h _
  have c := (Registry.checks h).dc_esc
  have hl := c.2.2
  refine ⟨rfl, by simp only [elementLength]; omega, fun f hf => ?_⟩
  simp only [encodeElement, escapeBits, List.mem_cons, List.not_mem_nil, or_false] at hf
  rcases hf with rfl | rfl
  · exact c.2.1
  · exact v10.isLt

theorem dcVlc (entry : Entry Int) : Statement (.dcVlc entry) := by
  intro r h hi
  have hm : entry ∈ r.dc.entries := by
    simp only [Instr.wfIn, Bool.and_eq_true, decide_eq_true_eq] at hi
    exact hi.2
  have hl := entryLen_of_mem (Registry.checks h).dc_len hm
  refine ⟨rfl, by simp only [elementLength]; omega, fun f hf => ?_⟩
  simp only [encodeElement, entryBits, List.mem_singleton] at hf
  subst hf
  exact hl.2.2.2

theorem insVlc (entry : Entry Counts) : Statement (.insVlc entry) := by
  intro r h hi
  have hm : entry ∈ r.ins.entries := by
    simp only [Instr.wfIn, Bool.and_eq_true, decide_eq_true_eq] at hi
    exact hi.2
  have hl := entryLen_of_mem (Registry.checks h).ins_len hm
  refine ⟨rfl, by simp only [elementLength]; omega, fun f hf => ?_⟩
  simp only [encodeElement, entryBits, List.mem_singleton] at hf
  subst hf
  exact hl.2.2.2

theorem ac1Esc1 (level7 : BitVec 7) : Statement (.ac1Esc1 level7) := by
  intro r h _
  have c := (Registry.checks h).ac_esc1 .one
  have hl := c.2.2
  simp only [Role.esc1Field, Role.runWidth, Role.levelWidth, Registry.ac] at hl
  refine ⟨rfl, by simp only [elementLength]; omega, fun f hf => ?_⟩
  simp only [encodeElement, escapeBits, List.mem_cons, List.not_mem_nil, or_false] at hf
  rcases hf with rfl | rfl
  · exact c.2.1
  · exact level7.isLt

theorem ac1Esc2 (raw16 : BitVec 16) : Statement (.ac1Esc2 raw16) := by
  intro r h _
  have c := (Registry.checks h).ac_esc2 .one
  have hl := c.2.2
  simp only [Registry.ac] at hl
  refine ⟨rfl, by simp only [elementLength]; omega, fun f hf => ?_⟩
  simp only [encodeElement, escapeBits, List.mem_cons, List.not_mem_nil, or_false] at hf
  rcases hf with rfl | rfl
  · exact c.2.1
  · exact raw16.isLt

theorem ac1Vlc (entry : Entry Nat) : Statement (.ac1Vlc entry) := by
  intro r h hi
  have hm : entry ∈ r.ac1.table.entries := by
    simp only [Instr.wfIn, Bool.and_eq_true, decide_eq_true_eq] at hi
    exact hi.2
  have hl := entryLen_of_mem ((Registry.checks h).ac_len .one) hm
  refine ⟨rfl, by simp only [elementLength]; omega, fun f hf => ?_⟩
  simp only [encodeElement, entryBits, List.mem_singleton] at hf
  subst hf
  exact hl.2.2.2

theorem ac2Esc1 (run3 : BitVec 3) (level5 : BitVec 5) : Statement (.ac2Esc1 run3 level5) := by
  intro r h _
  have c := (Registry.checks h).ac_esc1 .two
  have hl := c.2.2
  simp only [Role.esc1Field, Role.runWidth, Role.levelWidth, Registry.ac] at hl
  refine ⟨rfl, by simp only [elementLength]; omega, fun f hf => ?_⟩
  simp only [encodeElement, escapeBits, List.mem_cons, List.not_mem_nil, or_false] at hf
  rcases hf with rfl | rfl | rfl
  · exact c.2.1
  · exact run3.isLt
  · exact level5.isLt

theorem ac2Esc2 (raw16 : BitVec 16) : Statement (.ac2Esc2 raw16) := by
  intro r h _
  have c := (Registry.checks h).ac_esc2 .two
  have hl := c.2.2
  simp only [Registry.ac] at hl
  refine ⟨rfl, by simp only [elementLength]; omega, fun f hf => ?_⟩
  simp only [encodeElement, escapeBits, List.mem_cons, List.not_mem_nil, or_false] at hf
  rcases hf with rfl | rfl
  · exact c.2.1
  · exact raw16.isLt

theorem ac2Vlc (entry : Entry Nat) : Statement (.ac2Vlc entry) := by
  intro r h hi
  have hm : entry ∈ r.ac2.table.entries := by
    simp only [Instr.wfIn, Bool.and_eq_true, decide_eq_true_eq] at hi
    exact hi.2
  have hl := entryLen_of_mem ((Registry.checks h).ac_len .two) hm
  refine ⟨rfl, by simp only [elementLength]; omega, fun f hf => ?_⟩
  simp only [encodeElement, entryBits, List.mem_singleton] at hf
  subst hf
  exact hl.2.2.2

theorem ac3Esc1 (run4 : BitVec 4) (level4 : BitVec 4) : Statement (.ac3Esc1 run4 level4) := by
  intro r h _
  have c := (Registry.checks h).ac_esc1 .three
  have hl := c.2.2
  simp only [Role.esc1Field, Role.runWidth, Role.levelWidth, Registry.ac] at hl
  refine ⟨rfl, by simp only [elementLength]; omega, fun f hf => ?_⟩
  simp only [encodeElement, escapeBits, List.mem_cons, List.not_mem_nil, or_false] at hf
  rcases hf with rfl | rfl | rfl
  · exact c.2.1
  · exact run4.isLt
  · exact level4.isLt

theorem ac3Esc2 (raw16 : BitVec 16) : Statement (.ac3Esc2 raw16) := by
  intro r h _
  have c := (Registry.checks h).ac_esc2 .three
  have hl := c.2.2
  simp only [Registry.ac] at hl
  refine ⟨rfl, by simp only [elementLength]; omega, fun f hf => ?_⟩
  simp only [encodeElement, escapeBits, List.mem_cons, List.not_mem_nil, or_false] at hf
  rcases hf with rfl | rfl
  · exact c.2.1
  · exact raw16.isLt

theorem ac3Vlc (entry : Entry Nat) : Statement (.ac3Vlc entry) := by
  intro r h hi
  have hm : entry ∈ r.ac3.table.entries := by
    simp only [Instr.wfIn, Bool.and_eq_true, decide_eq_true_eq] at hi
    exact hi.2
  have hl := entryLen_of_mem ((Registry.checks h).ac_len .three) hm
  refine ⟨rfl, by simp only [elementLength]; omega, fun f hf => ?_⟩
  simp only [encodeElement, entryBits, List.mem_singleton] at hf
  subst hf
  exact hl.2.2.2

theorem reset : Statement (.reset) := fun _ _ hi => by simp [Instr.wfIn] at hi

theorem startDecode (sel : BitVec 1) (qscale : BitVec 6) (mbCount : BitVec 16) (len : BitVec 24) (buf : List Byte) : Statement (.startDecode sel qscale mbCount len buf) := fun _ _ hi => by simp [Instr.wfIn] at hi

theorem pull : Statement (.pull) := fun _ _ hi => by simp [Instr.wfIn] at hi

theorem startEncode (sel : BitVec 1) (qscale : BitVec 6) (mbCount : BitVec 16) : Statement (.startEncode sel qscale mbCount) := fun _ _ hi => by simp [Instr.wfIn] at hi

theorem pushCode (code : BitVec 16) : Statement (.pushCode code) := fun _ _ hi => by simp [Instr.wfIn] at hi

theorem pushEob : Statement (.pushEob) := fun _ _ hi => by simp [Instr.wfIn] at hi

theorem readReg (n : BitVec 8) : Statement (.readReg n) := fun _ _ hi => by simp [Instr.wfIn] at hi

theorem reservedCmd (code : BitVec 4) : Statement (.reservedCmd code) := fun _ _ hi => by simp [Instr.wfIn] at hi

end Sys2Proof.Laws.ElementFits
end

