-- ==== Sys2Proof/Laws/Ops.lean ====
section
/-! SUPPORT. What the composite operations do, one lemma each: the writes of an element and of a block, the column
boundary of the encoder, the two pushes, the block's end, and the moves of the decoder's phase. -/

namespace Sys2Proof.Machine

/-! ### Writes -/

/-- Every element of a well-formed registry fits the window, and each of its BITS lines holds its value. -/
theorem element_fits {r : Registry} (h : r.wf = true) {i : Instr} (hi : i.wfIn r = true) :
    bitsLength (encodeElement r i) = elementLength r i ∧ elementLength r i ≤ 32 ∧
      ∀ f ∈ encodeElement r i, f.2 < 2 ^ f.1 := by
  cases i
  case dcEsc v => exact Laws.ElementFits.dcEsc v r h hi
  case dcVlc e => exact Laws.ElementFits.dcVlc e r h hi
  case insVlc e => exact Laws.ElementFits.insVlc e r h hi
  case ac1Esc1 v => exact Laws.ElementFits.ac1Esc1 v r h hi
  case ac1Esc2 v => exact Laws.ElementFits.ac1Esc2 v r h hi
  case ac1Vlc e => exact Laws.ElementFits.ac1Vlc e r h hi
  case ac2Esc1 a b => exact Laws.ElementFits.ac2Esc1 a b r h hi
  case ac2Esc2 v => exact Laws.ElementFits.ac2Esc2 v r h hi
  case ac2Vlc e => exact Laws.ElementFits.ac2Vlc e r h hi
  case ac3Esc1 a b => exact Laws.ElementFits.ac3Esc1 a b r h hi
  case ac3Esc2 v => exact Laws.ElementFits.ac3Esc2 v r h hi
  case ac3Vlc e => exact Laws.ElementFits.ac3Vlc e r h hi
  all_goals simp [Instr.wfIn] at hi

theorem bitsValue_lt : ∀ fs : List BitsField, bitsValue fs < 2 ^ bitsLength fs
  | [] => by decide
  | f :: fs => by
    have h1 := Nat.mod_lt f.2 (Nat.two_pow_pos f.1)
    have h2 := bitsValue_lt fs
    calc f.2 % 2 ^ f.1 + 2 ^ f.1 * bitsValue fs
        < 2 ^ f.1 + 2 ^ f.1 * bitsValue fs := by omega
      _ = 2 ^ f.1 * (bitsValue fs + 1) := by ring
      _ ≤ 2 ^ f.1 * 2 ^ bitsLength fs := Nat.mul_le_mul_left _ h2
      _ = 2 ^ bitsLength (f :: fs) := by rw [bitsLength, Nat.pow_add]

theorem field_le_bitsLength : ∀ {fs : List BitsField} {f : BitsField}, f ∈ fs → f.1 ≤ bitsLength fs
  | g :: gs, f, h => by
    rw [bitsLength]
    rcases List.mem_cons.mp h with rfl | h
    · omega
    · have := field_le_bitsLength h; omega

/-- Every BITS line of a registry's element is at most 32 bits. -/
theorem element_field_le {r : Registry} (h : r.wf = true) {i : Instr} (hi : i.wfIn r = true) :
    ∀ f ∈ encodeElement r i, f.1 ≤ 32 := fun f hf => by
  obtain ⟨h1, h2, -⟩ := element_fits h hi
  have := field_le_bitsLength hf
  omega

theorem andThen_assoc (o : Op) (f g : State → Op) :
    (o.andThen f).andThen g = o.andThen (fun s => (f s).andThen g) := by cases o <;> rfl

theorem writeFields_append (wpos : BitVec 35) : ∀ (fs gs : List BitsField) (s : State),
    writeFields wpos (fs ++ gs) s = (writeFields wpos fs s).andThen (writeFields wpos gs)
  | [], _, _ => rfl
  | f :: fs, gs, s => by
    have ih : writeFields wpos (fs ++ gs) = fun u => (writeFields wpos fs u).andThen (writeFields wpos gs) :=
      funext fun u => writeFields_append wpos fs gs u
    show (writeBits wpos f.1 f.2 s).andThen (writeFields wpos (fs ++ gs)) = _
    rw [ih, ← andThen_assoc]
    rfl

/-- An operation that goes on leaves the registry and the block buffer. -/
def KeepsBlock (s : State) (o : Op) : Prop := ∀ t, o = .done t → t.registry = s.registry ∧ t.ebuf = s.ebuf

theorem keepsBlock_writeBits (wpos : BitVec 35) (n v : Nat) (s : State) : KeepsBlock s (writeBits wpos n v s) := by
  intro t h
  unfold writeBits flushWord at h
  split at h
  · obtain ⟨u, hu, rfl⟩ : ∃ u, outWrite wpos _ (appendBits n v s) = .done u ∧ t = dropWord u := by
      obtain ⟨u, h1, h2⟩ := andThen_eq_done h
      exact ⟨u, h1, by simpa using h2.symm⟩
    rcases outWrite_cases wpos ((appendBits n v s).acc.setWidth 32) (appendBits n v s) with ⟨-, e⟩ | ⟨-, e⟩
    · rw [e] at hu; cases hu
    · rw [e] at hu; cases hu; exact ⟨rfl, rfl⟩
  · cases h; exact ⟨rfl, rfl⟩

theorem keepsBlock_writeFields (wpos : BitVec 35) : ∀ (fs : List BitsField) (s : State),
    KeepsBlock s (writeFields wpos fs s)
  | [], s => fun t h => by cases h; exact ⟨rfl, rfl⟩
  | f :: fs, s => fun t h => by
    obtain ⟨u, h1, h2⟩ := andThen_eq_done h
    obtain ⟨a, b⟩ := keepsBlock_writeBits wpos f.1 f.2 s u h1
    obtain ⟨c, d⟩ := keepsBlock_writeFields wpos fs u t h2
    exact ⟨c.trans a, d.trans b⟩

theorem ebufAt_congr {s t : State} (h : t.ebuf = s.ebuf) (i : Nat) : ebufAt t i = ebufAt s i := by
  unfold ebufAt; rw [h]

/-- Two operations that agree wherever the first goes on. -/
theorem andThen_congr {o : Op} {f g : State → Op} (h : ∀ t, o = .done t → f t = g t) : o.andThen f = o.andThen g := by
  cases o with
  | done u => exact h u rfl
  | raised u => rfl

/-- The writes of `count` buffered codes are the writes of their BITS lines (46_encoder R254). -/
theorem writeAcs_eq (wpos : BitVec 35) (k : Role) : ∀ (count i : Nat) (s : State),
    writeAcs wpos k i count s =
      writeFields wpos (acFields s.registry k ((List.range' i count).map (ebufAt s))) s
  | 0, _, _ => rfl
  | n + 1, i, s => by
    rw [writeAcs, List.range'_succ, List.map_cons]
    show _ = writeFields wpos (encodeElement s.registry (chooseAc s.registry k (ebufAt s i)) ++ _) s
    rw [writeFields_append]
    refine andThen_congr fun t ht => ?_
    obtain ⟨hr, hb⟩ := keepsBlock_writeFields _ _ _ t ht
    rw [writeAcs_eq wpos k n (i + 1) t, hr, show ebufAt t = ebufAt s from funext fun j => ebufAt_congr hb j]
    rfl

theorem take_drop_range {n a b : Nat} (h : a + b ≤ n) :
    ((List.range n).drop a).take b = List.range' a b := by
  rw [List.range_eq_range', List.drop_range', List.take_range'_of_length_ge (by omega)]
  congr 1; omega

/-- The writes of a block are the writes of its BITS lines (46_encoder R253, R254). -/
theorem splitEncode_eq (wpos : BitVec 35) (e : Entry Counts) (s : State)
    (hs : e.payload.c1 + e.payload.c2 + e.payload.c3 = s.nbuf.toNat) :
    (writeElement wpos (.insVlc e) s).andThen (splitEncode wpos e.payload) =
      writeFields wpos (blockFields s.registry e s.pushed) s := by
  unfold blockFields State.pushed
  have t1 : ((List.range s.nbuf.toNat).map (ebufAt s)).take e.payload.c1 =
      (List.range' 0 e.payload.c1).map (ebufAt s) := by
    rw [← List.map_take, ← take_drop_range (n := s.nbuf.toNat) (by omega), List.drop_zero]
  have t2 : (((List.range s.nbuf.toNat).map (ebufAt s)).drop e.payload.c1).take e.payload.c2 =
      (List.range' e.payload.c1 e.payload.c2).map (ebufAt s) := by
    rw [← List.map_drop, ← List.map_take, take_drop_range (by omega)]
  have t3 : ((List.range s.nbuf.toNat).map (ebufAt s)).drop (e.payload.c1 + e.payload.c2) =
      (List.range' (e.payload.c1 + e.payload.c2) e.payload.c3).map (ebufAt s) := by
    rw [← List.map_drop, ← take_drop_range (n := s.nbuf.toNat) (by omega),
      List.take_of_length_le (by simp; omega)]
  rw [t1, t2, t3, writeFields_append, writeFields_append, writeFields_append, andThen_assoc, andThen_assoc]
  unfold writeElement
  refine andThen_congr fun u hu => ?_
  obtain ⟨hr, hb⟩ := keepsBlock_writeFields _ _ _ u hu
  have hE : ∀ {v : State}, v.ebuf = s.ebuf → ebufAt v = ebufAt s := fun h => funext fun j => ebufAt_congr h j
  unfold splitEncode
  rw [writeAcs_eq, hr, hE hb, andThen_assoc]
  refine andThen_congr fun v hv => ?_
  obtain ⟨hr2, hb2⟩ := keepsBlock_writeFields _ _ _ v hv
  rw [writeAcs_eq, hr2, hr, hE (hb2.trans hb)]
  refine andThen_congr fun w hw => ?_
  obtain ⟨hr3, hb3⟩ := keepsBlock_writeFields _ _ _ w hw
  rw [writeAcs_eq, hr3, hr2, hr, hE (hb3.trans (hb2.trans hb))]

theorem mem_acFields_le {r : Registry} (h : r.wf = true) {k : Role} {codes : List Code} :
    ∀ f ∈ acFields r k codes, f.1 ≤ 32 := fun f hf => by
  obtain ⟨c, -, hc⟩ := List.mem_flatMap.mp hf
  exact element_field_le h (chooseAc_wfIn h k c) f hc

theorem mem_blockFields_le {r : Registry} (h : r.wf = true) {e : Entry Counts} (he : (Instr.insVlc e).wfIn r = true)
    (codes : List Code) : ∀ f ∈ blockFields r e codes, f.1 ≤ 32 := fun f hf => by
  simp only [blockFields, List.mem_append] at hf
  rcases hf with ((hf | hf) | hf) | hf
  · exact element_field_le h he f hf
  all_goals exact mem_acFields_le h f hf

/-! ### The encoder's commands -/

theorem wrote_reloadQuota {s t : State} {n v : Nat} (h : Wrote s t n v) :
    Wrote (reloadQuota s) (reloadQuota t) n v :=
  ⟨by have := h.only; unfold OnlyOut at *; rw [this]; rfl, ⟨h.acc_ok.cnt_le, h.acc_ok.acc_lt⟩,
    ⟨h.out_ok.out_wf, h.out_ok.outLen_aligned, h.out_ok.outLen_le, h.out_ok.acc_lt⟩, h.kept,
    fun hm => ⟨(h.appended hm).wpos_eq, (h.appended hm).before, (h.appended hm).added⟩⟩

/-- What the encoder's column boundary can do (46_encoder R251): nothing when the column has blocks left, else the pad
with the predictors 0 and the quota full, or a raise with the predictors 0 and the quota still 0. -/
theorem columnFlushIfDue_cases (wpos : BitVec 35) {s : State} (h : s.AccOk) (ho : OutOk s) :
    (∃ t, columnFlushIfDue wpos s = .done t ∧ Wrote (columnStart s) t (columnPos s - s.wpos) 0) ∨
    (columnFlushIfDue wpos s = .raised (raiseError .encOutputOverflow .none wpos (zeroPreds s)) ∧ s.quota = 0 ∧
      Overflowed wpos (zeroPreds s) (raiseError .encOutputOverflow .none wpos (zeroPreds s)) (columnPos s) 0 0) := by
  unfold columnFlushIfDue columnStart columnPos
  by_cases hq : s.quota = 0
  · rw [if_pos hq, if_pos hq, if_pos hq]
    unfold columnFlush
    have hz : (zeroPreds s).AccOk := ⟨h.cnt_le, h.acc_lt⟩
    have hzo : OutOk (zeroPreds s) := ⟨ho.out_wf, ho.outLen_aligned, ho.outLen_le, ho.acc_lt⟩
    rcases padFlush_cases wpos hz hzo with ⟨t, e, -, -, ht⟩ | ⟨e, ht⟩
    · rw [e, andThen_done]
      exact .inl ⟨_, rfl, wrote_reloadQuota ht⟩
    · rw [e, andThen_raised]
      exact .inr ⟨rfl, hq, ht⟩
  · rw [if_neg hq, if_neg hq, if_neg hq, Nat.sub_self]
    exact .inl ⟨s, rfl, Wrote_refl h ho 0⟩

theorem columnPos_ge (s : State) : s.wpos ≤ columnPos s := by
  unfold columnPos paddedPos; split <;> omega

theorem columnStart_registry (s : State) : (columnStart s).registry = s.registry := by
  unfold columnStart; split <;> rfl

theorem columnStart_blk (s : State) : (columnStart s).blk = s.blk := by unfold columnStart; split <;> rfl

theorem columnStart_build (s : State) : (columnStart s).build = s.build := by unfold columnStart; split <;> rfl

/-- What PUSH_CODE of a DC can do (46_encoder R251): the block's DC after the column boundary, or an overflow at the pad
or at the DC. -/
theorem pushDc_cases (code : Code) {s : State} (hb : s.build.wf = true) (h : s.AccOk) (ho : OutOk s) :
    (∃ u, pushDc code s = .done (emit (plainResponse .ok) (dcPushed (pushedDc code) u)) ∧
      Wrote (columnStart s) u (columnPos s - s.wpos + bitsLength (dcFields s code))
        (2 ^ (columnPos s - s.wpos) * bitsValue (dcFields s code))) ∨
    (pushDc code s = .raised (raiseError .encOutputOverflow .none s.wposBits (zeroPreds s)) ∧ s.quota = 0 ∧
      Overflowed s.wposBits (zeroPreds s) (raiseError .encOutputOverflow .none s.wposBits (zeroPreds s))
        (columnPos s) 0 0) ∨
    (∃ t, pushDc code s = .raised t ∧ (s.build.outMaxBytes < 2 ^ 32 → 4 * (columnPos s / 32) ≤ s.build.outMaxBytes) ∧
      Overflowed s.wposBits (columnStart s) t (columnPos s + bitsLength (dcFields s code))
        (columnPos s - s.wpos + appendedBits s.build.outMaxBytes (columnPos s) (dcFields s code))
        (2 ^ (columnPos s - s.wpos) * bitsValue (dcFields s code))) := by
  unfold pushDc
  rcases columnFlushIfDue_cases s.wposBits h ho with ⟨t, e, ht⟩ | ⟨e, hq, ht⟩
  · rw [e, andThen_done]
    have hr : t.registry = s.registry := by
      rw [← columnStart_registry s]; rw [ht.only]; rfl
    have hp : t.pred (chainRead t.blk) = (columnStart s).pred (chainRead s.blk) := by
      rw [← columnStart_blk s]; rw [ht.only]; rfl
    have hf : encodeElement t.registry (chooseDc t.registry (pushedDc code) (t.pred (chainRead t.blk))) =
        dcFields s code := by rw [hr, hp]; rfl
    have hwf := Build.registry_wf hb s.sel
    have hle : ∀ f ∈ dcFields s code, f.1 ≤ 32 := element_field_le hwf (chooseDc_wfIn hwf _ _)
    have hge := columnPos_ge s
    unfold writeDc writeElement
    rw [hf]
    rcases writeFields_cases s.wposBits (dcFields s code) ht.acc_ok ht.out_ok hle with ⟨u, e2, hu⟩ | ⟨u, e2, hu⟩
    · rw [e2, andThen_done]
      have := Wrote_trans ht hu
      rw [Nat.zero_mod, Nat.zero_add] at this
      exact .inl ⟨u, rfl, this⟩
    · rw [e2, andThen_raised]
      have hw : (columnStart s).wpos = s.wpos := by unfold columnStart; split <;> rfl
      have hb' := columnStart_build s
      refine .inr (.inr ⟨u, rfl, fun hm => ?_, Overflowed_congr (Overflowed_of_wrote ht hu) fun hm => ?_⟩)
      · have h1 := outLen_eq ht.acc_ok ht.out_ok
        have h2 := ht.out_ok.outLen_le
        rw [Wrote_build ht, hb'] at h2
        rw [(ht.appended (by rw [hb']; exact hm)).wpos_eq, hw, show s.wpos + (columnPos s - s.wpos) = columnPos s by omega] at h1
        omega
      · rw [Wrote_build ht, hb', (ht.appended hm).wpos_eq, hw, show s.wpos + (columnPos s - s.wpos) = columnPos s by omega,
          Nat.zero_mod, Nat.zero_add]
        exact ⟨Nat.le_refl _, rfl, fun _ _ => rfl⟩
  · rw [e, andThen_raised]
    exact .inr (.inl ⟨rfl, hq, ht⟩)

/-- The registers at the end of an encoded block, before the pad of a frame's last block (46_encoder R253). -/
def blockDone (s : State) : State := advanceBlock (clearCodeIdx (clearNbuf s))

theorem wrote_blockDone {s t : State} {n v : Nat} (h : Wrote s t n v) :
    Wrote (blockDone s) (blockDone t) n v :=
  ⟨by have := h.only; unfold OnlyOut at *; rw [this]; rfl, ⟨h.acc_ok.cnt_le, h.acc_ok.acc_lt⟩,
    ⟨h.out_ok.out_wf, h.out_ok.outLen_aligned, h.out_ok.outLen_le, h.out_ok.acc_lt⟩, h.kept,
    fun hm => ⟨(h.appended hm).wpos_eq, (h.appended hm).before, (h.appended hm).added⟩⟩

/-- The frame ends with this block (46_encoder R253). -/
def lastBlock (s : State) : Prop := (blockDone s).mbIdx = s.mbCount

/-- What the end of an encoded block can do (46_encoder R253, R255). -/
theorem endBlock_cases (wpos : BitVec 35) {s : State} (h : s.AccOk) (ho : OutOk s) :
    (¬ lastBlock s ∧ endBlock wpos s = .done (setPhase .atDc (blockDone s))) ∨
    (∃ t, lastBlock s ∧ endBlock wpos s = .done (setPhase .done t) ∧ t.acc = 0 ∧ t.accCnt = 0 ∧
      Wrote (blockDone s) t (paddedPos s.wpos - s.wpos) 0) ∨
    (∃ t, lastBlock s ∧ endBlock wpos s = .raised t ∧ Overflowed wpos (blockDone s) t (paddedPos s.wpos) 0 0) := by
  have he : endBlock wpos s = if (blockDone s).mbIdx = s.mbCount then
      (padFlush wpos (blockDone s)).andThen (fun u => .done (setPhase .done u))
      else .done (setPhase .atDc (blockDone s)) := rfl
  rw [he]
  by_cases hl : lastBlock s
  · right
    rw [if_pos (show (blockDone s).mbIdx = s.mbCount from hl)]
    have hb : (blockDone s).AccOk := ⟨h.cnt_le, h.acc_lt⟩
    have hbo : OutOk (blockDone s) := ⟨ho.out_wf, ho.outLen_aligned, ho.outLen_le, ho.acc_lt⟩
    rcases padFlush_cases wpos hb hbo with ⟨t, e, h0, h1, ht⟩ | ⟨e, ht⟩
    · rw [e, andThen_done]; exact .inl ⟨t, hl, rfl, h0, h1, ht⟩
    · rw [e, andThen_raised]; exact .inr ⟨_, hl, rfl, ht⟩
  · left
    exact ⟨hl, if_neg hl⟩

/-- What PUSH_EOB in COLLECT can do with an instruction for the buffered codes (46_encoder R253): the block's end after
its writes, the frame's end after the pad as well, or an overflow. -/
theorem pushEobCollect_cases {s : State} (hb : s.build.wf = true) (h : s.AccOk) (ho : OutOk s) {e : Entry Counts}
    (he : chooseIns s.registry s.nbuf.toNat = some e) :
    (∃ u, pushEobCollect s = .done (emit (plainResponse .ok) (setPhase .atDc u)) ∧ ¬ lastBlock s ∧
      Wrote (blockDone s) u (bitsLength (blockFields s.registry e s.pushed))
        (bitsValue (blockFields s.registry e s.pushed))) ∨
    (∃ u n, pushEobCollect s = .done (emit (plainResponse .ok) (setPhase .done u)) ∧ lastBlock s ∧
      u.acc = 0 ∧ u.accCnt = 0 ∧
      (s.build.outMaxBytes < 2 ^ 32 →
        n = paddedPos (s.wpos + bitsLength (blockFields s.registry e s.pushed)) - s.wpos) ∧
      Wrote (blockDone s) u n (bitsValue (blockFields s.registry e s.pushed))) ∨
    (∃ t, pushEobCollect s = .raised t ∧ Overflowed s.wposBits s t
      (s.wpos + bitsLength (blockFields s.registry e s.pushed))
      (appendedBits s.build.outMaxBytes s.wpos (blockFields s.registry e s.pushed))
      (bitsValue (blockFields s.registry e s.pushed))) ∨
    (∃ t, pushEobCollect s = .raised t ∧ lastBlock s ∧
      (s.build.outMaxBytes < 2 ^ 32 →
        4 * ((s.wpos + bitsLength (blockFields s.registry e s.pushed)) / 32) ≤ s.build.outMaxBytes) ∧
      Overflowed s.wposBits (blockDone s) t
      (paddedPos (s.wpos + bitsLength (blockFields s.registry e s.pushed)))
      (bitsLength (blockFields s.registry e s.pushed)) (bitsValue (blockFields s.registry e s.pushed))) := by
  have hwf := Build.registry_wf hb s.sel
  obtain ⟨hin, hsum⟩ := chooseIns_wfIn hwf he
  unfold pushEobCollect
  rw [he]
  simp only
  rw [splitEncode_eq _ _ _ hsum]
  rcases writeFields_cases s.wposBits (blockFields s.registry e s.pushed) h ho (mem_blockFields_le hwf hin _) with
    ⟨u, e1, hu⟩ | ⟨u, e1, hu⟩
  · rw [e1, andThen_done]
    have hu' := wrote_blockDone hu
    have hlast : lastBlock u ↔ lastBlock s := by unfold lastBlock; rw [hu'.only, hu.only]
    have hpos : s.build.outMaxBytes < 2 ^ 32 →
        u.wpos = s.wpos + bitsLength (blockFields s.registry e s.pushed) := fun hm => (hu.appended hm).wpos_eq
    rcases endBlock_cases s.wposBits hu.acc_ok hu.out_ok with ⟨hl, e2⟩ | ⟨t, hl, e2, h0, h1, ht⟩ | ⟨t, hl, e2, ht⟩
    · rw [e2, andThen_done]
      exact .inl ⟨_, rfl, fun h' => hl (hlast.mpr h'), hu'⟩
    · rw [e2, andThen_done]
      refine .inr (.inl ⟨t, _, rfl, hlast.mp hl, h0, h1, fun hm => ?_, by
        have := Wrote_trans hu' ht
        rw [Nat.mul_zero, Nat.add_zero, Nat.mod_eq_of_lt (bitsValue_lt _)] at this
        exact this⟩)
      rw [hpos hm]; unfold paddedPos; omega
    · rw [e2, andThen_raised]
      refine .inr (.inr (.inr ⟨t, rfl, hlast.mp hl, fun hm => ?_,
        Overflowed_congr (Overflowed_of_wrote hu' ht) fun hm => ?_⟩))
      · have h1 := outLen_eq hu.acc_ok hu.out_ok
        have h2 := hu.out_ok.outLen_le
        rw [Wrote_build hu] at h2
        rw [hpos hm] at h1
        omega
      · rw [hpos hm, Nat.mul_zero, Nat.add_zero, Nat.mod_eq_of_lt (bitsValue_lt _)]
        exact ⟨Nat.le_refl _, rfl, fun _ _ => rfl⟩
  · rw [e1, andThen_raised, andThen_raised]
    exact .inr (.inr (.inl ⟨u, rfl, hu⟩))

end Sys2Proof.Machine
end

