-- ==== Sys2Proof/Laws/Steps.lean ====
section
/-! SUPPORT. The steps of the decoder as the register lists of Safety.lean, and the encoder's registers that a command
leaves (45_decoder R218, R222, R223, R225; 46_encoder R251, R253). -/

namespace Sys2Proof.Machine

/-! ### The decoder's steps -/

theorem advanced_eq (n : Nat) (s : State) : s.advanced n = consume n s := by
  unfold State.advanced consume
  split
  · rfl
  · unfold markOverrun refillIfShort
    split <;> rfl

/-- The chain's write, predictor by predictor (45_decoder R219). -/
theorem writeChain_eq (dc : Word) (s : State) : writeChain dc s = { s with
    predCr := if s.blk = .cr then dc else s.predCr
    predCb := if s.blk = .cb then dc else s.predCb
    predY1 := if s.blk = .y1 then dc else s.predY1
    predY3 := if s.blk = .y3 then dc else s.predY3 } := by
  unfold writeChain
  cases h : s.blk <;> simp [chainWrite, setPred, h] <;> rw [← h]

/-- The cursor's advance and the chain's write do not meet. -/
theorem consume_writeChain (n : Nat) (dc : Word) (s : State) :
    consume n (writeChain dc s) = writeChain dc (consume n s) := by
  rw [writeChain_eq, writeChain_eq, ← advanced_eq, ← advanced_eq]
  unfold State.advanced
  have key : ∀ (a b c d : Word), (consume n { s with predCr := a, predCb := b, predY1 := c, predY3 := d }) =
      { consume n s with predCr := a, predCb := b, predY1 := c, predY3 := d } := by
    intro a b c d
    unfold consume
    by_cases hn : n = 0
    · rw [if_pos hn, if_pos hn]
    · rw [if_neg hn, if_neg hn]
      unfold refillIfShort
      by_cases hr : (shiftWindow n s).rem.toInt < 0
      · rw [if_pos hr, if_pos (show (shiftWindow n
          { s with predCr := a, predCb := b, predY1 := c, predY3 := d }).rem.toInt < 0 from hr)]
        rfl
      · rw [if_neg hr, if_neg (show ¬ (shiftWindow n
          { s with predCr := a, predCb := b, predY1 := c, predY3 := d }).rem.toInt < 0 from hr)]
        rfl
  rw [key]

/-- The rest of step AT_DC, register by register (45_decoder R218). -/
theorem dcStep_eq (dc : Word) (n : Nat) (s : State) : dcStep dc n s = s.afterDc dc n := by
  unfold dcStep
  simp only
  rw [consume_writeChain, writeChain_eq, ← advanced_eq]
  rfl

/-- Counts in range are kept whole by the 8-bit counters (43_instruction_table R170). -/
theorem count_toNat {c : Counts} (h : c.inRange = true) :
    (BitVec.ofNat 8 c.c1).toNat = c.c1 ∧ (BitVec.ofNat 8 c.c2).toNat = c.c2 ∧ (BitVec.ofNat 8 c.c3).toNat = c.c3 := by
  simp [Counts.inRange] at h
  simp; omega

theorem count_eq_zero_iff {x : Nat} (h : (BitVec.ofNat 8 x).toNat = x) : BitVec.ofNat 8 x = 0 ↔ x = 0 := by
  constructor
  · intro h0; rw [← h, h0]; rfl
  · rintro rfl; rfl

/-- The instruction's part of step AT_INS, register by register (45_decoder R222). -/
theorem insStep_after (c : Counts) (h : c.inRange = true) (n : Nat) (s : State) : insStep c n s = s.afterIns c n := by
  rw [insStep_eq]
  obtain ⟨a, b, d⟩ := count_toNat h
  unfold State.afterIns
  rw [advanced_eq]
  unfold setPhase normalizedFrom
  simp only [loadCounts_cnt1, loadCounts_cnt2, loadCounts_cnt3, countOfPayload, count_eq_zero_iff a,
    count_eq_zero_iff b, count_eq_zero_iff d]
  congr 1
  by_cases h1 : c.c1 = 0 <;> by_cases h2 : c.c2 = 0 <;> by_cases h3 : c.c3 = 0 <;> simp [h1, h2, h3]

/-- Step ACk, register by register (45_decoder R223). -/
theorem acStep_after {k : Role} {s : State} (h : s.phase = phaseOfRole k) (code : Code) (n : Nat) :
    acStep k code n s = s.afterAc k code n := by
  rw [acStep_eq h]
  have z : ∀ x : BitVec 8, x - 1 = 0 ↔ x = 1 := by decide
  cases k <;> unfold State.afterAc normalizedFrom <;> rw [advanced_eq] <;>
    simp only [countCode_cnt1, countCode_cnt2, countCode_cnt3] <;>
    unfold emit setPhase countCode decCnt <;>
    simp only [z, consume_cnt1, consume_cnt2, consume_cnt3, consume_codeIdx] <;> congr 1
  · by_cases h1 : s.cnt1 = 1 <;> by_cases h2 : s.cnt2 = 0 <;> by_cases h3 : s.cnt3 = 0 <;> simp [h1, h2, h3]
  · by_cases h2 : s.cnt2 = 1 <;> by_cases h3 : s.cnt3 = 0 <;> simp [h2, h3]
  · by_cases h3 : s.cnt3 = 1 <;> simp [h3]

/-- An AC element run in its phase (45_decoder R223). -/
theorem runAc_eq {k : Role} {s : State} (hm : s.mode = .decode) (hp : s.phase = phaseOfRole k) (hc : s.cnt k ≠ 0)
    (code : Code) (n : Nat) : runAc k code n s = .next (s.afterAc k code n) := by
  unfold runAc; rw [if_pos (accepts_ac hm hp hc), acStep_after hp]

/-- Step BLOCK_END, register by register (45_decoder R225). -/
theorem blockEndStep_eq (s : State) : blockEndStep s = s.afterBlock := by
  unfold blockEndStep State.afterBlock State.nextMb advanceBlock clearCodeIdx emit plainResponse setPhase Block.next
  cases h : s.blk <;> simp

theorem posBits_eq {s : State} (h : s.rem.toNat ≤ 32) : s.posBits = BitVec.ofNat 35 s.posNat := by
  unfold State.posBits; rw [pos_eq_posNat h]; simp

/-- The next column starts at POS rounded up to a word (47_bit_cursor R289). -/
theorem realignTarget_eq_columnOffset {s : State} (hr : s.rem.toNat ≤ 32) (hp : s.p % 4 = 0) :
    realignTarget s = s.columnOffset := by
  have := realignTarget_eq hr hp
  unfold State.columnOffset paddedPos
  omega

/-! ### The encoder's commands -/

theorem accOk_of_inv {s : State} (h : s.Inv) (hm : s.mode = .encode) (hp : s.phase ≠ .error) : s.AccOk ∧ OutOk s :=
  ⟨⟨h.acc_cnt hm hp, h.acc_lt⟩, ⟨h.out_wf, h.outLen_aligned, h.outLen_le, h.acc_lt⟩⟩

theorem writtenBit_congr {s t : State} (h1 : t.outLen = s.outLen) (h2 : t.out = s.out) (h3 : t.acc = s.acc) (k : Nat) :
    t.writtenBit k = s.writtenBit k := by
  unfold State.writtenBit; rw [h1, h2, h3]

theorem wpos_congr {s t : State} (h1 : t.outLen = s.outLen) (h2 : t.accCnt = s.accCnt) : t.wpos = s.wpos := by
  unfold State.wpos; rw [h1, h2]

theorem columnStart_wpos (s : State) : (columnStart s).wpos = s.wpos := by unfold columnStart; split <;> rfl

theorem columnStart_writtenBit (s : State) (k : Nat) : (columnStart s).writtenBit k = s.writtenBit k := by
  unfold columnStart; split <;> rfl

theorem columnStart_out (s : State) : (columnStart s).out = s.out := by unfold columnStart; split <;> rfl

theorem columnStart_outLen (s : State) : (columnStart s).outLen = s.outLen := by unfold columnStart; split <;> rfl

theorem execPushCode_atDc {s : State} (hm : s.mode = .encode) (hp : s.phase = .atDc) (code : Code) :
    execPushCode code s = .next (pushDc code s).state := by
  unfold execPushCode
  rw [if_neg (by rw [hm]; decide)]; simp [hp]

theorem execPushCode_collect {s : State} (hm : s.mode = .encode) (hp : s.phase = .collect) (code : Code) :
    execPushCode code s = .next (pushAc code s) := by
  unfold execPushCode
  rw [if_neg (by rw [hm]; decide)]; simp [hp]

theorem execPushEob_collect {s : State} (hm : s.mode = .encode) (hp : s.phase = .collect) :
    execPushEob s = .next (pushEobCollect s).state := by
  unfold execPushEob
  rw [if_neg (by rw [hm]; decide)]; simp [hp]

/-- An overflow fills the output to its capacity (20_memory R72, 00_scope R8). -/
theorem overflowed_outLen {w : BitVec 35} {s t : State} {total n v : Nat} (h : Overflowed w s t total n v)
    (hb : s.build.wf = true) : t.outLen.toNat = s.build.outMaxBytes := by
  have h1 := h.full
  have h2 := h.out_ok.outLen_le
  have h3 := h.out_ok.outLen_aligned
  have h4 : t.build = s.build := by have := h.only; unfold OnlyOutRaised at this; rw [this]; rfl
  rw [h4] at h2
  simp [Build.wf] at hb
  omega

end Sys2Proof.Machine
end

