-- ==== Sys2Proof/Laws/Pull.lean ====
section
/-! SUPPORT. Everything a PULL can do, as one relation (45_decoder R217 to R228). -/

namespace Sys2Proof.Machine

/-- u is the state a PULL in AT_DC decodes the DC from: s, or the start of the next column (45_decoder R218, R220). -/
def DcStart (s u : State) : Prop :=
  s.mode = .decode ∧ s.phase = .atDc ∧ ((s.quota ≠ 0 ∧ u = s) ∨ (s.quota = 0 ∧ u = s.atColumn))

/-- u is the state a PULL decodes an AC code of role k from: s, or s after its instruction code (45_decoder R222,
R223). -/
def AcStart (s u : State) (k : Role) : Prop :=
  s.mode = .decode ∧ u.phase = phaseOfRole k ∧ u.cnt k ≠ 0 ∧
    (u = s ∨ ∃ e : Entry Counts, s.phase = .atIns ∧ e.payload.inRange = true ∧ e.len ≤ 32 ∧
      u = s.afterIns e.payload e.len)

/-- What a PULL can do to s. -/
inductive Pulled (s : State) : State → Prop
  /-- NOT_STARTED, FRAME_DONE or the recorded error. -/
  | answered (r : Response) (h : s.mode = .encode ∨ s.phase = .idle ∨ s.phase = .done ∨ s.phase = .error) :
      Pulled s (emit r s)
  /-- END_OF_STREAM at a column boundary. -/
  | columnLost (hm : s.mode = .decode) (hp : s.phase = .atDc) (hq : s.quota = 0) :
      Pulled s (raiseError .endOfStream .none s.posBits s.noPreds)
  /-- READ_CORRUPTION of the DC. -/
  | dcLost (u : State) (h : DcStart s u) : Pulled s (raiseError .readCorruption .dc u.posBits u)
  /-- A DC code. -/
  | dc (u : State) (v : Word) (n : Nat) (h : DcStart s u) (hn : n ≤ 32) : Pulled s (u.afterDc v n)
  /-- READ_CORRUPTION of the instruction. -/
  | insLost (hm : s.mode = .decode) (hp : s.phase = .atIns) :
      Pulled s (raiseError .readCorruption .ins s.posBits s)
  /-- An instruction without codes: the block's end. -/
  | insEnd (e : Entry Counts) (hm : s.mode = .decode) (hp : s.phase = .atIns) (hr : e.payload.inRange = true)
      (hl : e.len ≤ 32) (hu : (s.afterIns e.payload e.len).phase = .blockEnd) :
      Pulled s (s.afterIns e.payload e.len).afterBlock
  /-- READ_CORRUPTION of an AC code. -/
  | acLost (u : State) (k : Role) (h : AcStart s u k) :
      Pulled s (raiseError .readCorruption (tableOfClass (.ac k)) u.posBits u)
  /-- An AC code. -/
  | ac (u : State) (k : Role) (code : Code) (n : Nat) (h : AcStart s u k) (hn : n ≤ 32) : Pulled s (u.afterAc k code n)
  /-- The block's end. -/
  | blockEnd (hm : s.mode = .decode) (hp : s.phase = .blockEnd) : Pulled s s.afterBlock

theorem runElement_dc_pulled {s u : State} (hb : u.build.wf = true) (h : DcStart s u) (hm : u.mode = .decode)
    (hp : u.phase = .atDc) (hq : u.quota ≠ 0) : ∃ t, runElement .dc u = .next t ∧ Pulled s t := by
  rw [runElement_dc (accepts_dc hm hp hq)]
  cases hd : dcDecode u.registry u.front (u.pred (chainRead u.blk)) with
  | none => exact ⟨_, rfl, .dcLost u h⟩
  | some x => exact ⟨_, by simp only [dcStep_eq], .dc u x.1 x.2 h (dcDecode_le (Build.registry_wf hb u.sel) hd)⟩

theorem runElement_ac_pulled {s u : State} {k : Role} (hb : u.build.wf = true) (h : AcStart s u k)
    (hm : u.mode = .decode) : ∃ t, runElement (.ac k) u = .next t ∧ Pulled s t := by
  rw [runElement_ac (accepts_ac hm h.2.1 h.2.2.1)]
  cases hd : acDecode u.registry k u.front with
  | none => exact ⟨_, rfl, .acLost u k h⟩
  | some x =>
    exact ⟨_, by simp only [acStep_after h.2.1], .ac u k x.1 x.2 h (acDecode_le (Build.registry_wf hb u.sel) hd)⟩

theorem pullDc_pulled {s : State} (hI : s.Inv) (hm : s.mode = .decode) (hp : s.phase = .atDc) :
    ∃ t, pullDc s = .next t ∧ Pulled s t := by
  unfold pullDc columnResetIfDue
  by_cases hq : s.quota = 0
  · rw [if_pos hq]
    rcases columnReset_cases s with ⟨-, e⟩ | ⟨-, e⟩
    · rw [e]; exact ⟨_, rfl, .columnLost hm hp hq⟩
    · have hc : reloadQuota (load (realignTarget s) (zeroPreds s)) = s.atColumn := by
        rw [realignTarget_eq_columnOffset hI.rem_le hI.p_aligned]; rfl
      rw [e, hc]
      exact runElement_dc_pulled (u := s.atColumn) hI.build_wf ⟨hm, hp, .inr ⟨hq, rfl⟩⟩ hm hp
        (show (78 : BitVec 7) ≠ 0 by decide)
  · rw [if_neg hq]
    exact runElement_dc_pulled hI.build_wf ⟨hm, hp, .inl ⟨hq, rfl⟩⟩ hm hp hq

/-- The phase after an instruction is ACj with codes of table j left, or BLOCK_END (45_decoder R222, R224). -/
theorem afterIns_phase {c : Counts} (h : c.inRange = true) (n : Nat) (s : State) :
    (∃ j, (s.afterIns c n).phase = phaseOfRole j ∧ (s.afterIns c n).cnt j ≠ 0) ∨ (s.afterIns c n).phase = .blockEnd := by
  rw [← insStep_after c h, insStep_eq, setPhase_phase]
  rcases normalizedFrom_cases (loadCounts c (consume n s)) .one with ⟨j, h1, h2⟩ | h1
  · exact .inl ⟨j, h1, by rw [setPhase_cnt]; exact h2⟩
  · exact .inr h1

theorem pullIns_pulled {s : State} (hI : s.Inv) (hm : s.mode = .decode) (hp : s.phase = .atIns) :
    ∃ t, pullIns s = .next t ∧ Pulled s t := by
  unfold pullIns
  rw [runElement_ins (accepts_ins hm hp)]
  cases he : s.registry.ins.lookupEntry s.front with
  | none => exact ⟨_, rfl, .insLost hm hp⟩
  | some e =>
    obtain ⟨hle, hin⟩ := lookupIns_le (Build.registry_wf hI.build_wf s.sel) he
    simp only [insStep_after _ hin]
    have hu : (s.afterIns e.payload e.len).mode = .decode := hm
    rcases afterIns_phase hin e.len s with ⟨k, h1, h2⟩ | h1
    · have ea : afterIns (s.afterIns e.payload e.len) = runElement (.ac k) (s.afterIns e.payload e.len) := by
        unfold afterIns; cases k <;> simp [h1, phaseOfRole]
      rw [ea]
      exact runElement_ac_pulled hI.build_wf ⟨hm, h1, h2, .inr ⟨e, hp, hin, hle, rfl⟩⟩ hu
    · unfold afterIns
      rw [h1]
      exact ⟨_, by rw [blockEndStep_eq], .insEnd e hm hp hin hle h1⟩

/-- A PULL of a state that meets the invariant answers, with one of the outcomes above. -/
theorem execPull_pulled {s : State} (hI : s.Inv) : ∃ t, execPull s = .next t ∧ Pulled s t := by
  unfold execPull
  by_cases hm : s.mode = .encode
  · rw [if_pos hm]; exact ⟨_, rfl, .answered _ (.inl hm)⟩
  · have hm' : s.mode = .decode := by cases h : s.mode <;> simp_all
    rw [if_neg hm]
    have hc := hI.counter_pos
    cases hp : s.phase
    case idle => exact ⟨_, rfl, .answered _ (.inr (.inl hp))⟩
    case atDc => exact pullDc_pulled hI hm' hp
    case atIns => exact pullIns_pulled hI hm' hp
    case ac1 => exact runElement_ac_pulled hI.build_wf ⟨hm', hp, hc .one hp, .inl rfl⟩ hm'
    case ac2 => exact runElement_ac_pulled hI.build_wf ⟨hm', hp, hc .two hp, .inl rfl⟩ hm'
    case ac3 => exact runElement_ac_pulled hI.build_wf ⟨hm', hp, hc .three hp, .inl rfl⟩ hm'
    case blockEnd => exact ⟨_, by rw [blockEndStep_eq], .blockEnd hm' hp⟩
    case done => exact ⟨_, rfl, .answered _ (.inr (.inr (.inl hp)))⟩
    case error => exact ⟨_, rfl, .answered _ (.inr (.inr (.inr hp)))⟩
    case collect => have := hI.phase_mode; rw [hm', hp] at this; cases this

end Sys2Proof.Machine
end

