-- ==== Sys2Proof/Laws/Push.lean ====
section
/-! SUPPORT. Everything a PUSH_CODE or a PUSH_EOB can do, as one relation (46_encoder R251 to R256). -/

namespace Sys2Proof.Machine

/-- What a push can do to s. -/
inductive Pushed (s : State) : State → Prop
  /-- NOT_STARTED, FRAME_DONE or the recorded error. -/
  | answered (r : Response) (h : s.mode = .decode ∨ s.phase = .idle ∨ s.phase = .done ∨ s.phase = .error) :
      Pushed s (emit r s)
  /-- ENC_PROTOCOL: a PUSH_EOB before the block's DC. -/
  | protocol (hm : s.mode = .encode) (hp : s.phase = .atDc) :
      Pushed s (raiseError .encProtocol .none s.wposBits s)
  /-- A DC. -/
  | dc (u : State) (n v : Nat) (d : Word) (hm : s.mode = .encode) (hp : s.phase = .atDc)
      (hu : Wrote (columnStart s) u n v) : Pushed s (emit (plainResponse .ok) (dcPushed d u))
  /-- The pad of a column does not fit. -/
  | dcPadLost (t : State) (total n v : Nat) (hm : s.mode = .encode) (hp : s.phase = .atDc) (hq : s.quota = 0)
      (ht : Overflowed s.wposBits (zeroPreds s) t total n v) : Pushed s t
  /-- A DC does not fit. -/
  | dcLost (t : State) (total n v : Nat) (hm : s.mode = .encode) (hp : s.phase = .atDc)
      (ht : Overflowed s.wposBits (columnStart s) t total n v) : Pushed s t
  /-- An AC code. -/
  | ac (code : Code) (hm : s.mode = .encode) (hp : s.phase = .collect) (h : s.nbuf.toNat < 64) :
      Pushed s (emit (plainResponse .ok)
        (countCode { s with ebuf := s.ebuf.set s.nbuf.toNat code h, nbuf := s.nbuf + 1 }))
  /-- ENC_BLOCK_OVERFLOW. -/
  | acLost (hm : s.mode = .encode) (hp : s.phase = .collect) :
      Pushed s (raiseError .encBlockOverflow .none s.wposBits s)
  /-- ENC_NO_INSTRUCTION. -/
  | noInstruction (hm : s.mode = .encode) (hp : s.phase = .collect) :
      Pushed s (raiseError .encNoInstruction .ins s.wposBits s)
  /-- A block's end that is not the frame's. -/
  | eob (u : State) (n v : Nat) (hm : s.mode = .encode) (hp : s.phase = .collect) (hl : ¬ lastBlock s)
      (hu : Wrote (blockDone s) u n v) : Pushed s (emit (plainResponse .ok) (setPhase .atDc u))
  /-- The frame's end. -/
  | eobDone (u : State) (n v : Nat) (hm : s.mode = .encode) (hp : s.phase = .collect) (hl : lastBlock s)
      (hu : Wrote (blockDone s) u n v) : Pushed s (emit (plainResponse .ok) (setPhase .done u))
  /-- A block does not fit. -/
  | eobLost (t : State) (total n v : Nat) (hm : s.mode = .encode) (hp : s.phase = .collect)
      (ht : Overflowed s.wposBits s t total n v) : Pushed s t
  /-- The frame's final pad does not fit. -/
  | eobPadLost (t : State) (total n v : Nat) (hm : s.mode = .encode) (hp : s.phase = .collect) (hl : lastBlock s)
      (ht : Overflowed s.wposBits (blockDone s) t total n v) : Pushed s t

theorem mode_encode {s : State} (h : ¬ s.mode = .decode) : s.mode = .encode := by cases h' : s.mode <;> simp_all

/-- A PUSH_CODE of a state that meets the invariant answers, with one of the outcomes above. -/
theorem execPushCode_pushed {s : State} (hI : s.Inv) (code : Code) :
    ∃ t, execPushCode code s = .next t ∧ Pushed s t := by
  by_cases hm : s.mode = .decode
  · unfold execPushCode
    rw [if_pos hm]; exact ⟨_, rfl, .answered _ (.inl hm)⟩
  · have hm' := mode_encode hm
    have hph := hI.phase_mode
    cases hp : s.phase
    case atDc =>
      obtain ⟨hA, hO⟩ := accOk_of_inv hI hm' (by rw [hp]; decide)
      rw [execPushCode_atDc hm' hp]
      rcases pushDc_cases code hI.build_wf hA hO with ⟨u, e, hu⟩ | ⟨e, hq, ht⟩ | ⟨t, e, -, ht⟩
      · rw [e]; exact ⟨_, rfl, .dc u _ _ _ hm' hp hu⟩
      · rw [e]; exact ⟨_, rfl, .dcPadLost _ _ _ _ hm' hp hq ht⟩
      · rw [e]; exact ⟨_, rfl, .dcLost t _ _ _ hm' hp ht⟩
    case collect =>
      rw [execPushCode_collect hm' hp]
      unfold pushAc
      split
      · exact ⟨_, rfl, .ac code hm' hp ‹_›⟩
      · exact ⟨_, rfl, .acLost hm' hp⟩
    case idle => rw [hm', hp] at hph; cases hph
    case done => unfold execPushCode; rw [if_neg hm, hp]; exact ⟨_, rfl, .answered _ (.inr (.inr (.inl hp)))⟩
    case error => unfold execPushCode; rw [if_neg hm, hp]; exact ⟨_, rfl, .answered _ (.inr (.inr (.inr hp)))⟩
    all_goals rw [hm', hp] at hph; cases hph

/-- A PUSH_EOB of a state that meets the invariant answers, with one of the outcomes above. -/
theorem execPushEob_pushed {s : State} (hI : s.Inv) : ∃ t, execPushEob s = .next t ∧ Pushed s t := by
  by_cases hm : s.mode = .decode
  · unfold execPushEob
    rw [if_pos hm]; exact ⟨_, rfl, .answered _ (.inl hm)⟩
  · have hm' := mode_encode hm
    have hph := hI.phase_mode
    cases hp : s.phase
    case atDc => unfold execPushEob; rw [if_neg hm, hp]; exact ⟨_, rfl, .protocol hm' hp⟩
    case collect =>
      rw [execPushEob_collect hm' hp]
      cases he : chooseIns s.registry s.nbuf.toNat with
      | none =>
        unfold pushEobCollect
        rw [he]; exact ⟨_, rfl, .noInstruction hm' hp⟩
      | some e =>
        obtain ⟨hA, hO⟩ := accOk_of_inv hI hm' (by rw [hp]; decide)
        rcases pushEobCollect_cases hI.build_wf hA hO he with
          ⟨u, e1, hl, hu⟩ | ⟨u, n, e1, hl, -, -, -, hu⟩ | ⟨t, e1, ht⟩ | ⟨t, e1, hl, -, ht⟩
        · rw [e1]; exact ⟨_, rfl, .eob u _ _ hm' hp hl hu⟩
        · rw [e1]; exact ⟨_, rfl, .eobDone u _ _ hm' hp hl hu⟩
        · rw [e1]; exact ⟨_, rfl, .eobLost t _ _ _ hm' hp ht⟩
        · rw [e1]; exact ⟨_, rfl, .eobPadLost t _ _ _ hm' hp hl ht⟩
    case idle => rw [hm', hp] at hph; cases hph
    case done => unfold execPushEob; rw [if_neg hm, hp]; exact ⟨_, rfl, .answered _ (.inr (.inr (.inl hp)))⟩
    case error => unfold execPushEob; rw [if_neg hm, hp]; exact ⟨_, rfl, .answered _ (.inr (.inr (.inr hp)))⟩
    all_goals rw [hm', hp] at hph; cases hph

end Sys2Proof.Machine
end

