-- ==== Sys2Proof/Tests/Slice0.lean ====
section
/-! SUPPORT. Tests with the TEST registry of 95_test_vectors section 0. Expected values come from the vectors named in the
docstrings; the last part holds one witness for the premises of each statement. -/

namespace Sys2Proof.Tests

set_option Elab.async false

open Sys2Proof.Machine

/-! ### The TEST registry and small states -/

/-- A bitstring written as its characters, first character first. -/
def bits (s : List Nat) : List Bool := s.map (· == 1)

/-- An AC table of TEST: "0", "01", "011" with the escapes "0111" and "1111". -/
def acTest (x y z : Nat) : AcTable where
  table := ⟨4, [.ofBitstring (bits [0]) x, .ofBitstring (bits [0, 1]) y, .ofBitstring (bits [0, 1, 1]) z]⟩
  esc1 := .ofBitstring (bits [0, 1, 1, 1])
  esc2 := .ofBitstring (bits [1, 1, 1, 1])

/-- TEST. -/
def reg : Registry where
  dc := ⟨6, [.ofBitstring (bits [0]) 1, .ofBitstring (bits [0, 1]) (-1), .ofBitstring (bits [0, 1, 1]) 0,
    .ofBitstring (bits [0, 1, 1, 1]) 2, .ofBitstring (bits [0, 1, 1, 1, 1]) (-2),
    .ofBitstring (bits [0, 1, 1, 1, 1, 1]) 3]⟩
  escDc := .ofBitstring (bits [1, 1, 1, 1, 1, 1])
  ins := ⟨3, [.ofBitstring (bits [0]) ⟨0, 0, 0⟩, .ofBitstring (bits [0, 1]) ⟨1, 0, 0⟩,
    .ofBitstring (bits [0, 1, 1]) ⟨1, 1, 0⟩, .ofBitstring (bits [1, 1, 1]) ⟨2, 1, 1⟩]⟩
  ac1 := acTest 0x0001 0x03FF 0x0402
  ac2 := acTest 0x0401 0x07FF 0x0002
  ac3 := acTest 0x0801 0x0BFF 0x0C01

/-- TEST with the last entry of every table removed: DC slot 31 (TEST_HOLE), INS slot 7 and AC slots 3 and 11 are empty. -/
def hole : Registry :=
  { reg with
    dc := ⟨6, reg.dc.entries.take 5⟩
    ins := ⟨3, reg.ins.entries.take 3⟩
    ac1 := { reg.ac1 with table := ⟨4, reg.ac1.table.entries.take 2⟩ }
    ac2 := { reg.ac2 with table := ⟨4, reg.ac2.table.entries.take 2⟩ }
    ac3 := { reg.ac3 with table := ⟨4, reg.ac3.table.entries.take 2⟩ } }

/-- The reset registers over TEST (SEL 0) and its variant with holes (SEL 1). -/
def base (maxBytes : Nat) : State := State.resetWith ⟨reg, hole, maxBytes⟩ [] [] none

/-- The state a meaning answers, or the old one where it stops. -/
def after (i : Instr) (s : State) : State :=
  match exec i s with
  | .next t => t
  | .fault _ => s
  | .refused _ => s

/-- A meaning answers a next state. -/
def answers (i : Instr) (s : State) : Bool :=
  match exec i s with
  | .next _ => true
  | .fault _ => false
  | .refused _ => false

theorem next_after {i : Instr} {s : State} (h : answers i s = true) : exec i s = .next (after i s) := by
  unfold answers at h
  unfold after
  split at h
  · rename_i t e; rw [e]
  · cases h
  · cases h

/-- The 16 bytes of program P1. -/
def p1 : List Byte := [0xFC, 0xFD, 0xB7, 0x76, 0xFB, 0xDB, 0xDE, 0x7D, 0x01, 0x63, 0x97, 0x78, 0xF5, 0, 0, 0]

/-- START_DECODE(sel, 5, 1, bytes, 16). -/
def frame (sel : BitVec 1) (bytes : List Byte) : State := after (.startDecode sel 5 1 16 bytes) (base 64)

/-- P1 after its START. -/
def frame1 : State := frame 0 p1

/-- A decode frame at a phase, with a window and counters of its own. -/
def at_ (sel : BitVec 1) (ph : Phase) (front : Word) (c1 c2 c3 : BitVec 8) : State :=
  { frame sel p1 with phase := ph, front := front, cnt1 := c1, cnt2 := c2, cnt3 := c3, codeIdx := 1, quota := 77 }

/-- START_ENCODE(0, 5, 1). -/
def enc (maxBytes : Nat) : State := after (.startEncode 0 5 1) (base maxBytes)

/-- An encode frame in COLLECT with n codes of EBUF in use and c bits pending, in block b. -/
def collect (maxBytes : Nat) (n : BitVec 7) (c : BitVec 6) (b : Block) : State :=
  { enc maxBytes with
    phase := .collect, quota := 77, nbuf := n, codeIdx := 1 + n.setWidth 10, accCnt := c, blk := b }

/-- A state with one command offered. -/
def offer (c : HostCommand) (s : State) : State := { s with port := [c] }

/-! ### WellFormed: an ill-formed term for each check -/

theorem test_wf_entry_len_zero : (Instr.dcVlc ⟨0, 0, 1⟩).wf = false := by decide
theorem test_wf_entry_len_15 : (Instr.insVlc ⟨15, 0, ⟨0, 0, 0⟩⟩).wf = false := by decide
theorem test_wf_entry_code : (Instr.ac1Vlc ⟨2, 4, 1⟩).wf = false := by decide
theorem test_wf_delta : (Instr.dcVlc ⟨1, 0, 2 ^ 31⟩).wf = false := by decide
theorem test_wf_count : (Instr.insVlc ⟨1, 0, ⟨0, 256, 0⟩⟩).wf = false := by decide
theorem test_wf_ac1_payload : (Instr.ac1Vlc ⟨1, 0, 0x10000⟩).wf = false := by decide
theorem test_wf_ac2_payload : (Instr.ac2Vlc ⟨1, 0, 0x10000⟩).wf = false := by decide
theorem test_wf_ac3_payload : (Instr.ac3Vlc ⟨1, 0, 0x10000⟩).wf = false := by decide
theorem test_wf_buffer_length : (Instr.startDecode 0 5 1 3 [7, 8]).wf = false := by decide
theorem test_wf_reserved_code : (Instr.reservedCmd 3).wf = false := by decide
theorem test_wfIn_other_table : (Instr.ac1Vlc ⟨1, 0, 0x0401⟩).wfIn reg = false := by decide +kernel
theorem test_wfIn_command : Instr.pull.wfIn reg = false := by decide

/-! ### The checks of a registry (L2-LUT) -/

theorem test_registry_wf : reg.wf = true ∧ hole.wf = true := by decide +kernel
/-- L2-LUT-16. -/
theorem test_cfg_entry_len :
    ({ reg with ins := ⟨3, reg.ins.entries.take 3 ++ [⟨4, 7, ⟨2, 1, 1⟩⟩]⟩ } : Registry).refusals = [.entryLen] := by decide +kernel
/-- L2-LUT-18. -/
theorem test_cfg_collision :
    .prefixCollision ∈ ({ reg with ins := ⟨3, [⟨1, 1, ⟨0, 0, 0⟩⟩, ⟨2, 3, ⟨1, 0, 0⟩⟩]⟩ } : Registry).refusals := by decide +kernel
/-- L2-LUT-19. -/
theorem test_cfg_esc_shape : ({ reg with escDc := ⟨23, 0x7FFFFF⟩ } : Registry).refusals = [.escShape] := by decide +kernel
/-- L2-LUT-21. -/
theorem test_cfg_esc_overlap :
    ({ reg with ac1 := { reg.ac1 with table := ⟨4, reg.ac1.table.entries ++ [⟨4, 7, 5⟩]⟩ } } : Registry).refusals = [.escOverlap] := by
  decide +kernel
/-- L2-LUT-22. -/
theorem test_cfg_width : ({ reg with dc := ⟨33, reg.dc.entries⟩ } : Registry).refusals = [.wRange] := by decide +kernel
/-- L2-LUT-24, and the sum check of L2-LUT-23 on a smaller table. -/
theorem test_cfg_sum_and_payload :
    ({ reg with ins := ⟨3, [⟨2, 1, ⟨1, 0, 0⟩⟩, ⟨3, 3, ⟨0, 1, 0⟩⟩]⟩ } : Registry).refusals = [.insSumDup] ∧
    ({ reg with ac2 := acTest 0x10000 0x07FF 0x0002 } : Registry).refusals = [.payloadRange] := by decide +kernel
/-- L2-LUT-2, L2-LUT-3: the slots of the built arrays. -/
theorem test_lut_build :
    (reg.ins.buildLut.map fun l => l.map fun x => x.map Prod.fst) =
      some [some 1, some 2, some 1, some 3, some 1, some 2, some 1, some 3] ∧
    (reg.ac1.table.buildLut.map fun l => l.map fun x => x.map Prod.fst) =
      some [some 1, some 2, some 1, some 3, some 1, some 2, some 1, none,
        some 1, some 2, some 1, some 3, some 1, some 2, some 1, none] := by decide +kernel
/-- L2-AC-F1 to F15. -/
theorem test_fits1 :
    [fits1 .one 0 63, fits1 .one 0 64, fits1 .one 0 (-64), fits1 .one 0 (-65), fits1 .one 1 0, fits1 .two 7 15,
      fits1 .two 7 (-16), fits1 .two 8 0, fits1 .two 0 16, fits1 .three 15 7, fits1 .three 15 (-8), fits1 .three 16 0,
      fits1 .three 0 8, fits1 .two 0 (-512), fits1 .two 63 0] =
    [true, false, true, false, false, true, true, false, false, true, true, false, false, false, false] := by
  decide +kernel

/-! ### Decoding: one written word or window for every constructor -/

theorem test_decode_reset : decodeTableWord 8 0x01 = some .reset := by decide
theorem test_decode_start_decode : decodeTableWord 8 0x02 = some (.startDecode 0 0 0 0 []) := by decide +kernel
/-- sel 1, qscale 0x25, mb_count 0x0104, len 2, bytes AB CD. -/
theorem test_decode_start_decode_fields :
    decodeTableWord 72 (0x2 + 2 ^ 4 * (1 + 2 * 0x25 + 2 ^ 7 * 0x0104 + 2 ^ 23 * 2) + 2 ^ 51 * (0xAB + 2 ^ 8 * 0xCD)) =
      some (.startDecode 1 0x25 0x0104 2 [0xAB, 0xCD]) := by decide +kernel
theorem test_decode_pull : decodeTableWord 8 0x03 = some .pull := by decide
theorem test_decode_start_encode :
    decodeTableWord 32 (0x4 + 2 ^ 4 * (0 + 2 * 5 + 2 ^ 7 * 1)) = some (.startEncode 0 5 1) := by decide +kernel
theorem test_decode_push_code : decodeTableWord 24 0x14015 = some (.pushCode 0x1401) := by decide +kernel
theorem test_decode_push_eob : decodeTableWord 8 0x06 = some .pushEob := by decide
theorem test_decode_read_reg : decodeTableWord 16 0x0527 = some (.readReg 0x52) := by decide +kernel
theorem test_decode_reserved :
    decodeTableWord 8 0x00 = some (.reservedCmd 0) ∧ decodeTableWord 8 0x0F = some (.reservedCmd 15) := by decide +kernel
theorem test_decode_bad_buffer : decodeCommand ⟨2, 0x800000, []⟩ = .error .bufferIsNotLenBytes := by decide
/-- L2-DC-2, L2-DC-3 and L2-DC-10. -/
theorem test_decode_dc :
    decodeElement reg .dc 0x17F = some (.dcEsc 5) ∧ decodeElement reg .dc 0x803F = some (.dcEsc 0x200) ∧
    decodeElement reg .dc 0x0F = some (.dcVlc ⟨5, 15, -2⟩) := by decide +kernel
/-- L2-DC-14. -/
theorem test_decode_dc_miss : decodeElement hole .dc 0x1F = none := by decide +kernel
/-- L2-INS-5 and L2-INS-6. -/
theorem test_decode_ins :
    decodeElement reg .ins 3 = some (.insVlc ⟨3, 3, ⟨1, 1, 0⟩⟩) ∧
    decodeElement reg .ins 7 = some (.insVlc ⟨3, 7, ⟨2, 1, 1⟩⟩) := by decide +kernel
/-- L2-AC-D4, D6, D3. -/
theorem test_decode_ac1 :
    decodeElement reg (.ac .one) 0x7B7 = some (.ac1Esc1 0x7B) ∧
    decodeElement reg (.ac .one) 0x8C05F = some (.ac1Esc2 0x8C05) ∧
    decodeElement reg (.ac .one) 3 = some (.ac1Vlc ⟨3, 3, 0x0402⟩) := by decide +kernel
/-- L2-AC-D10, D12, D9. -/
theorem test_decode_ac2 :
    decodeElement reg (.ac .two) 0xDB7 = some (.ac2Esc1 3 27) ∧
    decodeElement reg (.ac .two) 0x200F = some (.ac2Esc2 0x0200) ∧
    decodeElement reg (.ac .two) 1 = some (.ac2Vlc ⟨2, 1, 0x07FF⟩) := by decide +kernel
/-- L2-AC-D15, E27, D14. -/
theorem test_decode_ac3 :
    decodeElement reg (.ac .three) 0x897 = some (.ac3Esc1 9 8) ∧
    decodeElement reg (.ac .three) 0x4000F = some (.ac3Esc2 0x4000) ∧
    decodeElement reg (.ac .three) 0xE = some (.ac3Vlc ⟨1, 0, 0x0801⟩) := by decide +kernel
/-- L2-AC-E14, E4, E9, E26, E29: the encoder's choices. -/
theorem test_encode_ac :
    chooseAc reg .two 0x0002 = .ac2Vlc ⟨3, 3, 2⟩ ∧ chooseAc reg .one 0x003F = .ac1Esc1 63 ∧
    chooseAc reg .one 0x0401 = .ac1Esc2 0x0401 ∧ chooseAc reg .three 0x3FF8 = .ac3Esc1 15 8 ∧
    chooseAc reg .two 0x0200 = .ac2Esc2 0x0200 := by decide +kernel
/-- L2-DC-17, L2-DC-21, L2-DC-22. -/
theorem test_encode_dc :
    chooseDc reg 3 1 = .dcVlc ⟨4, 7, 2⟩ ∧ chooseDc reg (-512) 0 = .dcEsc 0x200 ∧
    chooseDc reg 0 (-512) = .dcEsc 0 := by decide +kernel

/-! ### One step of each instruction -/

/-- withFetchWord offers the word's command, and step runs it first. -/
theorem test_fetch_word :
    step (State.reset.withFetchWord 8 3) = .next { State.reset with resp := some ⟨.notStarted, 0⟩ } := rfl
/-- L2-CMD-1. -/
theorem test_reset : after .reset frame1 = { base 64 with resp := some ⟨.ok, 0⟩ } := by decide +kernel
/-- L2-CMD-11. -/
theorem test_start_decode :
    [0x00, 0x01, 0x04, 0x05, 0x06, 0x07, 0x0D, 0x0E].map (registerView frame1) =
      [0x01, 0, 32, 0x76B7FDFC, 0x7DDEDBFB, 0x78976301, 0x4E000000, 0x0000001000010005] := by decide +kernel
/-- L2-CMD-7. -/
theorem test_start_decode_short :
    (after (.startDecode 0 5 1 11 (p1.take 11)) (base 64)).resp = some ⟨.error, 0x002⟩ := by decide +kernel
/-- P1, PULL 1. -/
theorem test_pull_dc :
    let t := after .pull frame1
    t.resp = some ⟨.codeDc, 0x1401⟩ ∧ t.predCr = 1 ∧ t.quota = 77 ∧ t.posNat = 1 := by decide +kernel
/-- P1, PULL 2. -/
theorem test_pull_eob :
    let t := after .pull (after .pull frame1)
    t.resp = some ⟨.eob, 0⟩ ∧ t.blk = .cb ∧ t.phase = .atDc ∧ t.posNat = 2 := by decide +kernel
/-- P1, PULL 3: the block Cb's escape. -/
theorem test_dc_esc :
    let t := after (.dcEsc 0x3FD) { at_ 0 .atDc 0xFF7F 0 0 0 with blk := .cb }
    t.resp = some ⟨.codeDc, 0x17FD⟩ ∧ t.predCb = -3 ∧ t.predCr = 0 := by decide +kernel
/-- P1, PULL 6: Y1 reads PRED_Y3 and writes PRED_Y1. -/
theorem test_dc_vlc :
    let t := after (.dcVlc ⟨2, 1, -1⟩) { at_ 0 .atDc 1 0 0 0 with blk := .y1, predY1 := 9 }
    t.resp = some ⟨.codeDc, 0x17FF⟩ ∧ t.predY1 = -1 ∧ t.predY3 = 0 := by decide +kernel
/-- P1, block Y2: counts (2, 1, 1). -/
theorem test_ins_vlc :
    let t := after (.insVlc ⟨3, 7, ⟨2, 1, 1⟩⟩) (at_ 0 .atIns 7 0 0 0)
    (t.cnt1, t.cnt2, t.cnt3) = (2, 1, 1) ∧ t.phase = .ac1 ∧ t.posNat = 3 := by decide +kernel
/-- An instruction (0, 0, c3) skips tables 1 and 2 (45_decoder R222). -/
theorem test_ins_vlc_skips :
    (after (.insVlc ⟨3, 7, ⟨0, 0, 4⟩⟩) (at_ 0 .atIns 7 0 0 0)).phase = .ac3 := by decide +kernel
/-- L2-AC-D4 and L2-AC-E5. -/
theorem test_ac1_esc1 :
    (after (.ac1Esc1 0x7B) (at_ 0 .ac1 0x7B7 1 1 0)).resp = some ⟨.codeAc, 0x03FB⟩ ∧
    (after (.ac1Esc1 0x40) (at_ 0 .ac1 0x407 1 1 0)).resp = some ⟨.codeAc, 0x03C0⟩ := by decide +kernel
/-- L2-AC-D6. -/
theorem test_ac1_esc2 :
    let t := after (.ac1Esc2 0x8C05) (at_ 0 .ac1 0x8C05F 1 1 1)
    t.resp = some ⟨.codeAc, 0x8C05⟩ ∧ t.posNat = 20 ∧ t.phase = .ac2 := by decide +kernel
/-- L2-AC-D3. -/
theorem test_ac1_vlc :
    let t := after (.ac1Vlc ⟨3, 3, 0x0402⟩) (at_ 0 .ac1 3 2 0 0)
    t.resp = some ⟨.codeAc, 0x0402⟩ ∧ t.cnt1 = 1 ∧ t.phase = .ac1 := by decide +kernel
/-- L2-AC-D10, and L2-AC-E18's corner. -/
theorem test_ac2_esc1 :
    (after (.ac2Esc1 3 27) (at_ 0 .ac2 0xDB7 0 1 0)).resp = some ⟨.codeAc, 0x0FFB⟩ ∧
    (after (.ac2Esc1 7 16) (at_ 0 .ac2 0x877 0 1 0)).resp = some ⟨.codeAc, 0x1FF0⟩ := by decide +kernel
/-- L2-AC-D12. -/
theorem test_ac2_esc2 : (after (.ac2Esc2 0x0200) (at_ 0 .ac2 0x200F 0 1 0)).resp = some ⟨.codeAc, 0x0200⟩ := by
  decide +kernel
/-- L2-AC-D9. -/
theorem test_ac2_vlc :
    let t := after (.ac2Vlc ⟨2, 1, 0x07FF⟩) (at_ 0 .ac2 1 0 1 1)
    t.resp = some ⟨.codeAc, 0x07FF⟩ ∧ t.phase = .ac3 ∧ t.cnt3 = 1 := by decide +kernel
/-- L2-AC-D15. -/
theorem test_ac3_esc1 :
    let t := after (.ac3Esc1 9 8) (at_ 0 .ac3 0x897 0 0 1)
    t.resp = some ⟨.codeAc, 0x27F8⟩ ∧ t.posNat = 12 ∧ t.phase = .blockEnd := by decide +kernel
/-- L2-AC-E27. -/
theorem test_ac3_esc2 : (after (.ac3Esc2 0x4000) (at_ 0 .ac3 0x4000F 0 0 1)).resp = some ⟨.codeAc, 0x4000⟩ := by
  decide +kernel
/-- L2-AC-D14. -/
theorem test_ac3_vlc :
    let t := after (.ac3Vlc ⟨1, 0, 0x0801⟩) (at_ 0 .ac3 0xE 0 0 2)
    t.resp = some ⟨.codeAc, 0x0801⟩ ∧ t.posNat = 1 ∧ t.cnt3 = 1 := by decide +kernel
/-- L2-CMD-13. -/
theorem test_start_encode :
    (enc 64).resp = some ⟨.ok, 0⟩ ∧ registerView (enc 64) 0 = 0x11 ∧ (enc 64).quota = 78 := by decide +kernel
/-- L2-CMD-17. -/
theorem test_push_code_dc :
    let t := after (.pushCode 0x1401) (enc 64)
    t.resp = some ⟨.ok, 0⟩ ∧ t.predCr = 1 ∧ t.accCnt = 1 ∧ t.quota = 77 ∧ t.phase = .collect ∧ t.codeIdx = 1 := by
  decide +kernel
/-- L2-CMD-19. -/
theorem test_push_code_overflow :
    (after (.pushCode 1) (collect 64 64 1 .cr)).resp = some ⟨.error, 0x105⟩ := by decide +kernel
/-- L2-CMD-20. -/
theorem test_push_eob_no_instruction :
    (after .pushEob (collect 64 3 1 .cr)).resp = some ⟨.error, 0x123⟩ := by decide +kernel
/-- The end of a frame of 32 pending bits and one more: two words, the second padded (46_encoder R253, R255). -/
theorem test_push_eob_last :
    let t := after .pushEob (collect 64 0 31 .y4)
    t.resp = some ⟨.ok, 0⟩ ∧ t.phase = .done ∧ t.outLen = 4 ∧ t.accCnt = 0 := by decide +kernel
/-- READ_REG of EBUF[0] and of a number past the map (L2-CMD-5). -/
theorem test_read_reg :
    after (.readReg 0x53) frame1 = { frame1 with resp := some ⟨.illegalCommand, 0⟩ } ∧
    (after (.readReg 0x13) (after (.pushCode 0x0402) (collect 64 0 1 .cr))).resp = some ⟨.ok, 0x0402⟩ := by
  decide +kernel
/-- L2-CMD-4. -/
theorem test_reserved : after (.reservedCmd 8) frame1 = { frame1 with resp := some ⟨.illegalCommand, 0⟩ } := by
  decide +kernel
/-- L2-CUR-1 to L2-CUR-3: the buffer 01 02 … 18 (hexadecimal). -/
theorem test_cursor :
    let b24 := (List.range 24).map fun i => BitVec.ofNat 8 (i + 1)
    let t := consume 20 (consume 20 (after (.startDecode 0 0 1 24 b24) (base 0)))
    (t.p, t.rem, t.front, t.mid, t.back) = (4, 24, 0x09080706, 0x000C0B0A, 0x100F0E0D) := by decide +kernel
/-- L2-ACC-2. -/
theorem test_accumulator :
    let t := (writeFields 0 [(20, 0xABCDE), (20, 0x12345)] (enc 64)).state
    (t.acc, t.accCnt, t.out) = (0x12, 8, [(0, 0xDE), (1, 0xBC), (2, 0x5A), (3, 0x34)]) := by decide +kernel
/-- The step at the power-on state: nothing is offered, nothing happens. -/
theorem test_reset_idle : State.reset.port = [] ∧ State.reset.phase = .idle := ⟨rfl, rfl⟩

/-! ### Witnesses for the premises of the statements -/

/-- The invariant as one check. -/
def invOk (s : State) : Bool :=
  s.build.wf && decide (s.rem.toNat ≤ 32) && decide (s.p % 4 = 0) && decide (s.quota.toNat ≤ 78) &&
    phaseOfMode s.mode s.phase &&
    ([Role.one, .two, .three].all fun k => decide (s.phase = phaseOfRole k → s.cnt k ≠ 0)) &&
    decide (s.mbIdx.toNat ≤ s.mbCount.toNat) && decide (s.phase.active = true → s.mbIdx.toNat < s.mbCount.toNat) &&
    decide (s.errCause = .none ↔ s.phase ≠ .error) && decide (s.nbuf.toNat ≤ 64) &&
    decide (s.acc.toNat < 2 ^ s.accCnt.toNat) && decide (s.mode = .encode → s.phase ≠ .error → s.accCnt.toNat ≤ 31) &&
    decide (s.outLen.toNat % 4 = 0) && decide (s.outLen.toNat ≤ s.build.outMaxBytes) && s.buf.wf && s.out.wf

theorem inv_of_ok {s : State} (h : invOk s = true) : s.Inv := by
  simp only [invOk, Bool.and_eq_true, decide_eq_true_eq, List.all_cons, List.all_nil, Bool.and_true] at h
  obtain ⟨⟨⟨⟨⟨⟨⟨⟨⟨⟨⟨⟨⟨⟨⟨h1, h2⟩, h3⟩, h4⟩, h5⟩, h6⟩, h7⟩, h8⟩, h9⟩, h10⟩, h11⟩, h12⟩, h13⟩, h14⟩, h15⟩, h16⟩ := h
  exact ⟨h1, h2, h3, h4, h5, fun k => by cases k <;> [exact h6.1; exact h6.2.1; exact h6.2.2], h7, h8, h9, h10, h11, h12,
    h13, h14, h15, h16⟩

theorem frame1_window : frame1.Window :=
  window_congr (s := bindBuffer 16 p1 (startFrame .decode 0 5 1 (base 64))) rfl rfl rfl rfl rfl rfl rfl (load_window 0 _)

theorem witness_StepRunsOfferedCommand :
    (base 64).port = [] ∧
    (offer ⟨3, 0, []⟩ frame1).port = ⟨3, 0, []⟩ :: [] ∧ decodeCommand ⟨3, 0, []⟩ = .ok .pull ∧
    (offer ⟨2, 0x800000, []⟩ frame1).port = ⟨2, 0x800000, []⟩ :: [] ∧
    decodeCommand ⟨2, 0x800000, []⟩ = .error .bufferIsNotLenBytes := by decide +kernel

theorem witness_PullRunsDecodedElement :
    (frame1.mode = .decode ∧ frame1.phase = .atDc ∧ frame1.quota ≠ 0 ∧
      decodeElement frame1.registry .dc frame1.front = some (.dcVlc ⟨1, 0, 1⟩)) ∧
    (let s := at_ 0 .ac3 0x897 0 0 1;
      s.mode = .decode ∧ s.phase = phaseOfRole .three ∧
        decodeElement s.registry (.ac .three) s.front = some (.ac3Esc1 9 8)) ∧
    (let s := at_ 0 .atIns 7 0 0 0;
      s.mode = .decode ∧ s.phase = .atIns ∧
        decodeElement s.registry .ins s.front = some (.insVlc ⟨3, 7, ⟨2, 1, 1⟩⟩)) := by decide +kernel

theorem witness_WrittenWordsDecode :
    reg.escDc = ⟨6, 63⟩ ∧ (∃ es, reg.dc = ⟨6, ⟨1, 0, 1⟩ :: es⟩) ∧ reg.ac1.esc1 = ⟨4, 7⟩ ∧ reg.ac1.esc2 = ⟨4, 15⟩ ∧
    reg.ac2.esc1 = ⟨4, 7⟩ ∧ reg.ac3.esc1 = ⟨4, 7⟩ :=
  ⟨by decide +kernel, ⟨reg.dc.entries.tail, by decide +kernel⟩, by decide +kernel, by decide +kernel, by decide +kernel,
    by decide +kernel⟩

theorem witness_CommandDecodeEncode :
    (Instr.startDecode 1 63 0xFFFF 2 [1, 2]).wf = true ∧
    encodeCommand (.startDecode 1 63 0xFFFF 2 [1, 2]) = some ⟨2, 0x17FFFFF, [1, 2]⟩ ∧
    decodeCommand ⟨15, 7, []⟩ = .ok (.reservedCmd 15) := by decide +kernel

theorem witness_ElementDecodeEncode :
    reg.wf = true ∧ (Instr.ac2Esc1 7 16).wfIn reg = true ∧ (Instr.ac2Esc1 7 16).elementClass = some (.ac .two) ∧
    (0xABCD0877 : Word).toNat % 2 ^ bitsLength (encodeElement reg (.ac2Esc1 7 16)) =
      bitsValue (encodeElement reg (.ac2Esc1 7 16)) := by decide +kernel

theorem witness_DecodedElementIsWritten :
    reg.wf = true ∧ decodeElement reg .dc 0xFFFF803F = some (.dcEsc 0x200) := by decide +kernel

theorem witness_ResetValues :
    exec .reset frame1 = .next (after .reset frame1) ∧ (0 : BitVec 8).toNat ≤ 0x52 ∧ (0x52 : BitVec 8).toNat ≤ 0x52 :=
  ⟨next_after (by decide +kernel), by decide, by decide⟩

theorem witness_ReadRegAnswers :
    (0 : BitVec 8).toNat ≤ 0x52 ∧ (0x52 : BitVec 8).toNat ≤ 0x52 ∧ 0x53 ≤ (0x53 : BitVec 8).toNat ∧
    0x53 ≤ (0xFF : BitVec 8).toNat := by decide

theorem witness_RegisterViews :
    (frame1.phase ≠ .idle ∧ frame1.mode = .decode ∧ frame1.rem.toNat ≤ 32) ∧
    ((consume 32 frame1).phase ≠ .idle ∧ (consume 32 frame1).mode = .decode ∧ (consume 32 frame1).rem = 0) ∧
    ((enc 64).phase ≠ .idle ∧ (enc 64).mode = .encode) ∧ 0 < 64 ∧ 63 < 64 := by decide +kernel

theorem witness_ReservedCommands :
    (offer ⟨0, 0, []⟩ frame1).port = ⟨0, 0, []⟩ :: [] ∧ (0 : BitVec 4).toNat = 0 ∧
    (offer ⟨8, 0, []⟩ frame1).port = ⟨8, 0, []⟩ :: [] ∧ 8 ≤ (8 : BitVec 4).toNat ∧
    8 ≤ (15 : BitVec 4).toNat := by decide +kernel

theorem witness_ModeMismatch :
    (enc 64).mode = .encode ∧ (base 64).phase = .idle ∧ frame1.mode = .decode ∧
    exec .reset frame1 = .next (after .reset frame1) := 
  ⟨by decide +kernel, rfl, by decide +kernel, next_after (by decide +kernel)⟩

theorem witness_PushOutOfPhase :
    frame1.mode = .decode ∧ (base 64).phase = .idle ∧
    (let s := after (.startEncode 0 5 0) (base 64); s.mode = .encode ∧ s.phase = .done) ∧
    (let s := after .pushEob (enc 64); s.mode = .encode ∧ s.phase = .error) ∧
    (enc 64).mode = .encode ∧ (enc 64).phase = .atDc := by decide +kernel

theorem witness_PullAfterDone :
    let s := after (.startDecode 0 5 0 12 (p1.take 12)) (base 64)
    s.mode = .decode ∧ s.phase = .done := by decide +kernel

theorem witness_ErrorIsSticky :
    let s := after (.startDecode 0 5 1 11 (p1.take 11)) (base 64)
    s.mode = .decode ∧ s.phase = .error ∧ exec .reset s = .next (after .reset s) ∧ (after .reset s).phase ≠ .error :=
  ⟨by decide +kernel, by decide +kernel, next_after (by decide +kernel), by decide +kernel⟩

theorem witness_DcEscResult :
    escMatch reg.escDc 0x803F = true ∧ frame1.mode = .decode ∧ frame1.phase = .atDc ∧ frame1.quota ≠ 0 := by
  decide +kernel

theorem witness_DcVlcResult :
    escMatch reg.escDc 0x1F = false ∧ reg.dc.lookupEntry 0x1F = some ⟨6, 31, 3⟩ ∧
    frame1.mode = .decode ∧ frame1.phase = .atDc ∧ frame1.quota ≠ 0 := by decide +kernel

theorem witness_InsVlcResult :
    reg.ins.lookupEntry 7 = some ⟨3, 7, ⟨2, 1, 1⟩⟩ ∧
    (let s := at_ 0 .atIns 7 0 0 0;
      s.mode = .decode ∧ s.phase = .atIns) ∧ (⟨255, 0, 255⟩ : Counts).inRange = true := by decide +kernel

theorem witness_Ac1Results :
    escMatch reg.ac1.esc1 0x7B7 = true ∧ (escMatch reg.ac1.esc1 0x8C05F = false ∧ escMatch reg.ac1.esc2 0x8C05F = true) ∧
    (escMatch reg.ac1.esc1 3 = false ∧ escMatch reg.ac1.esc2 3 = false ∧
      reg.ac1.table.lookupEntry 3 = some ⟨3, 3, 0x0402⟩) ∧
    (let s := at_ 0 .ac1 3 1 0 0;
      s.mode = .decode ∧ s.phase = .ac1 ∧ s.cnt1 ≠ 0) := by decide +kernel

theorem witness_Ac2Results :
    escMatch reg.ac2.esc1 0xDB7 = true ∧ (escMatch reg.ac2.esc1 0x200F = false ∧ escMatch reg.ac2.esc2 0x200F = true) ∧
    (escMatch reg.ac2.esc1 1 = false ∧ escMatch reg.ac2.esc2 1 = false ∧
      reg.ac2.table.lookupEntry 1 = some ⟨2, 1, 0x07FF⟩) ∧
    (let s := at_ 0 .ac2 1 0 1 0;
      s.mode = .decode ∧ s.phase = .ac2 ∧ s.cnt2 ≠ 0) := by decide +kernel

theorem witness_Ac3Results :
    escMatch reg.ac3.esc1 0x897 = true ∧ (escMatch reg.ac3.esc1 0x4000F = false ∧ escMatch reg.ac3.esc2 0x4000F = true) ∧
    (escMatch reg.ac3.esc1 0xE = false ∧ escMatch reg.ac3.esc2 0xE = false ∧
      reg.ac3.table.lookupEntry 0xE = some ⟨1, 0, 0x0801⟩) ∧
    (let s := at_ 0 .ac3 0xE 0 0 255;
      s.mode = .decode ∧ s.phase = .ac3 ∧ s.cnt3 ≠ 0) := by decide +kernel

theorem witness_ElementAdvances :
    frame1.build.wf = true ∧ frame1.Window ∧ (Instr.dcVlc ⟨1, 0, 1⟩).wfIn frame1.registry = true ∧
    exec (.dcVlc ⟨1, 0, 1⟩) frame1 = .next (after (.dcVlc ⟨1, 0, 1⟩) frame1) :=
  ⟨by decide +kernel, frame1_window, by decide +kernel, next_after (by decide +kernel)⟩

/-- The column boundary at its edges: a buffer one byte short of the next word, and one that just holds it. -/
theorem witness_PullAtDc :
    (let s := { frame1 with quota := 0, len := 3 };
      s.mode = .decode ∧ s.phase = .atDc ∧ s.rem.toNat ≤ 32 ∧ s.p % 4 = 0 ∧ s.quota = 0 ∧
        s.len.toNat < s.columnOffset + 4) ∧
    (let s := { frame1 with quota := 0, len := 4 };
      s.quota = 0 ∧ s.columnOffset + 4 ≤ s.len.toNat ∧
        dcDecode s.registry s.atColumn.front (s.atColumn.pred (chainRead s.blk)) = some (1, 1)) ∧
    (let s := { frame 1 (0x1F :: p1.tail) with quota := 0 };
      s.columnOffset + 4 ≤ s.len.toNat ∧
        dcDecode s.registry s.atColumn.front (s.atColumn.pred (chainRead s.blk)) = none) ∧
    (frame1.quota ≠ 0 ∧ dcDecode frame1.registry frame1.front (frame1.pred (chainRead frame1.blk)) = some (1, 1)) ∧
    (let s := frame 1 (0x1F :: p1.tail);
      s.quota ≠ 0 ∧ dcDecode s.registry s.front (s.pred (chainRead s.blk)) = none) := by decide +kernel

theorem witness_PullAtIns :
    (let s := at_ 1 .atIns 7 0 0 0;
      s.mode = .decode ∧ s.phase = .atIns ∧ s.build.wf = true ∧ s.rem.toNat ≤ 32 ∧
        s.registry.ins.lookupEntry s.front = none) ∧
    (let s := at_ 0 .atIns 6 0 0 0;
      s.registry.ins.lookupEntry s.front = some ⟨1, 0, ⟨0, 0, 0⟩⟩) ∧
    (let s := at_ 0 .atIns 0xD 0 0 0;
      let u := s.afterIns ⟨1, 0, 0⟩ 2;
      s.registry.ins.lookupEntry s.front = some ⟨2, 1, ⟨1, 0, 0⟩⟩ ∧ u.phase = phaseOfRole .one ∧
        acDecode s.registry .one u.front = some (0x0402, 3)) ∧
    (let s := at_ 1 .atIns 0xD 0 0 0;
      let u := s.afterIns ⟨1, 0, 0⟩ 2;
      s.registry.ins.lookupEntry s.front = some ⟨2, 1, ⟨1, 0, 0⟩⟩ ∧ u.phase = phaseOfRole .one ∧
        acDecode s.registry .one u.front = none) := by decide +kernel

theorem witness_PullAtAc :
    (let s := at_ 1 .ac2 3 0 1 0;
      s.mode = .decode ∧ s.phase = phaseOfRole .two ∧ s.cnt .two ≠ 0 ∧ s.rem.toNat ≤ 32 ∧
        acDecode s.registry .two s.front = none) ∧
    (let s := at_ 0 .ac2 3 0 255 0;
      s.phase = phaseOfRole .two ∧ s.cnt .two ≠ 0 ∧ acDecode s.registry .two s.front = some (0x0002, 3)) := by
  decide +kernel

theorem witness_PullAtBlockEnd :
    (at_ 0 .blockEnd 0 0 0 0).mode = .decode ∧ (at_ 0 .blockEnd 0 0 0 0).phase = .blockEnd := by decide +kernel

/-- The DC of block 78, and the DC of block 0. -/
theorem witness_ColumnResetExactly :
    (let s := { frame1 with mbCount := 14, mbIdx := 13, quota := 0 };
      s.Inv ∧ s.QuotaTracks ∧ s.mode = .decode ∧ s.phase = .atDc ∧ s.quota = 0 ∧
        s.columnOffset + 4 ≤ s.len.toNat ∧ s.blockNumber = 78) ∧
    (frame1.Inv ∧ frame1.QuotaTracks ∧ frame1.phase = .atDc) :=
  ⟨⟨inv_of_ok (by decide +kernel), (by decide +kernel : (0 : BitVec 7).toNat = quotaBefore 78), by decide +kernel⟩,
    inv_of_ok (by decide +kernel), (by decide +kernel : (78 : BitVec 7).toNat = quotaBefore 0), by decide +kernel⟩

/-- A DC that fills the output to the bit, one that does not fit, and one after a column boundary whose pad fits or
not. -/
theorem witness_PushDcResult :
    (let s := { enc 0 with accCnt := 30 };
      s.Inv ∧ s.mode = .encode ∧ s.phase = .atDc ∧ s.build.outMaxBytes < 2 ^ 32 ∧
        4 * ((columnPos s + bitsLength (dcFields s 0x1401)) / 32) ≤ s.build.outMaxBytes) ∧
    (let s := { enc 0 with accCnt := 31 };
      s.Inv ∧ s.phase = .atDc ∧ 4 * (columnPos s / 32) ≤ s.build.outMaxBytes ∧
        s.build.outMaxBytes < 4 * ((columnPos s + bitsLength (dcFields s 0x1401)) / 32)) ∧
    (let s := { enc 4 with accCnt := 1, quota := 0 };
      s.Inv ∧ 4 * ((columnPos s + bitsLength (dcFields s 0x1401)) / 32) ≤ s.build.outMaxBytes) ∧
    (let s := { enc 0 with accCnt := 1, quota := 0 };
      s.Inv ∧ s.build.outMaxBytes < 4 * (columnPos s / 32)) :=
  ⟨⟨inv_of_ok (by decide +kernel), by decide +kernel⟩, ⟨inv_of_ok (by decide +kernel), by decide +kernel⟩,
    ⟨inv_of_ok (by decide +kernel), by decide +kernel⟩, inv_of_ok (by decide +kernel), by decide +kernel⟩

theorem witness_PushAcResult :
    (let s := collect 64 63 1 .cr;
      s.mode = .encode ∧ s.phase = .collect ∧ s.nbuf.toNat < 64) ∧
    (let s := collect 64 64 1 .cr;
      s.mode = .encode ∧ s.phase = .collect ∧ s.nbuf = 64) := by decide +kernel

/-- A block inside the frame that fits; one whose first line does not, and one of which only the first lines do; the
frame's last block that fits, and one whose final pad does not. -/
theorem witness_PushEobResult :
    (let s := collect 0 0 30 .cr;
      s.Inv ∧ s.mode = .encode ∧ s.phase = .collect ∧ s.build.outMaxBytes < 2 ^ 32 ∧
        s.registry.sumMap s.nbuf.toNat = some ⟨1, 0, ⟨0, 0, 0⟩⟩ ∧ s.nextMb ≠ s.mbCount ∧
        4 * ((s.wpos + bitsLength (blockFields s.registry ⟨1, 0, ⟨0, 0, 0⟩⟩ s.pushed)) / 32) ≤ s.build.outMaxBytes) ∧
    (let s := collect 0 0 31 .cr;
      s.Inv ∧ s.registry.sumMap s.nbuf.toNat = some ⟨1, 0, ⟨0, 0, 0⟩⟩ ∧
        s.build.outMaxBytes < 4 * ((s.wpos + bitsLength (blockFields s.registry ⟨1, 0, ⟨0, 0, 0⟩⟩ s.pushed)) / 32)) ∧
    (let s := collect 0 4 1 .cr;
      s.Inv ∧ s.registry.sumMap s.nbuf.toNat = some ⟨3, 7, ⟨2, 1, 1⟩⟩ ∧
        s.build.outMaxBytes < 4 * ((s.wpos + bitsLength (blockFields s.registry ⟨3, 7, ⟨2, 1, 1⟩⟩ s.pushed)) / 32) ∧
        appendedBits s.build.outMaxBytes s.wpos (blockFields s.registry ⟨3, 7, ⟨2, 1, 1⟩⟩ s.pushed) <
          bitsLength (blockFields s.registry ⟨3, 7, ⟨2, 1, 1⟩⟩ s.pushed)) ∧
    (let s := collect 8 4 1 .y4;
      s.Inv ∧ s.registry.sumMap s.nbuf.toNat = some ⟨3, 7, ⟨2, 1, 1⟩⟩ ∧ s.nextMb = s.mbCount ∧
        4 * (paddedPos (s.wpos + bitsLength (blockFields s.registry ⟨3, 7, ⟨2, 1, 1⟩⟩ s.pushed)) / 32) ≤
          s.build.outMaxBytes) ∧
    (let s := collect 0 0 1 .y4;
      s.Inv ∧ s.nextMb = s.mbCount ∧
        4 * ((s.wpos + bitsLength (blockFields s.registry ⟨1, 0, ⟨0, 0, 0⟩⟩ s.pushed)) / 32) ≤ s.build.outMaxBytes ∧
        s.build.outMaxBytes <
          4 * (paddedPos (s.wpos + bitsLength (blockFields s.registry ⟨1, 0, ⟨0, 0, 0⟩⟩ s.pushed)) / 32)) :=
  ⟨⟨inv_of_ok (by decide +kernel), by decide +kernel⟩, ⟨inv_of_ok (by decide +kernel), by decide +kernel⟩,
    ⟨inv_of_ok (by decide +kernel), by decide +kernel⟩, ⟨inv_of_ok (by decide +kernel), by decide +kernel⟩,
    inv_of_ok (by decide +kernel), by decide +kernel⟩

theorem witness_EncoderErrors :
    (let s := collect 64 3 1 .cr;
      s.mode = .encode ∧ s.phase = .collect ∧ s.registry.sumMap s.nbuf.toNat = none) ∧
    ((enc 64).mode = .encode ∧ (enc 64).phase = .atDc) ∧
    ((collect 64 64 1 .cr).phase = .collect ∧ (collect 64 64 1 .cr).nbuf = 64) := by decide +kernel

/-- ConfigurationFixed, BufferFixed: a command that answers, and is neither START_DECODE nor RESET. -/
theorem witness_ConfigurationFixed_BufferFixed :
    exec .pull frame1 = .next (after .pull frame1) ∧ Instr.pull ≠ .reset ∧
    ∀ sel q m l b, Instr.pull ≠ .startDecode sel q m l b :=
  ⟨next_after (by decide +kernel), by decide, fun _ _ _ _ _ h => by cases h⟩

theorem witness_OtherModeKept :
    exec .pull frame1 = .next (after .pull frame1) ∧
    exec (.startDecode 0 5 1 16 p1) (enc 64) = .next (after (.startDecode 0 5 1 16 p1) (enc 64)) ∧
    (exec (.dcVlc ⟨1, 0, 1⟩) frame1 = .next (after (.dcVlc ⟨1, 0, 1⟩) frame1) ∧
      (Instr.dcVlc ⟨1, 0, 1⟩).elementClass ≠ none) ∧
    exec (.startEncode 0 5 1) frame1 = .next (after (.startEncode 0 5 1) frame1) ∧
    exec (.pushCode 0x1401) (enc 64) = .next (after (.pushCode 0x1401) (enc 64)) ∧
    exec .pushEob (collect 64 0 1 .cr) = .next (after .pushEob (collect 64 0 1 .cr)) :=
  ⟨next_after (by decide +kernel), next_after (by decide +kernel), ⟨next_after (by decide +kernel), by decide⟩,
    next_after (by decide +kernel), next_after (by decide +kernel), next_after (by decide +kernel)⟩

theorem witness_FlagsSticky :
    (let s := { frame1 with overrun := true };
      exec .pull s = .next (after .pull s) ∧ s.overrun = true) ∧
    (let s := after .pushEob (enc 64);
      exec .pushEob s = .next (after .pushEob s) ∧ s.Inv ∧ s.errCause ≠ .none) :=
  ⟨⟨next_after (by decide +kernel), rfl⟩, next_after (by decide +kernel), inv_of_ok (by decide +kernel),
    by decide +kernel⟩

/-- OutputKept: a frame with a word written, the boundary bytes 0 and 3 of it. -/
theorem witness_OutputKept :
    let s := { enc 64 with outLen := 4, out := [(0, 1), (3, 2)] }
    s.Inv ∧ s.build.outMaxBytes < 2 ^ 32 ∧ exec (.pushCode 0x1401) s = .next (after (.pushCode 0x1401) s) ∧
      (∀ sel q m, Instr.pushCode 0x1401 ≠ .startEncode sel q m) ∧ 0 < s.outLen.toNat ∧ 3 < s.outLen.toNat :=
  ⟨inv_of_ok (by decide +kernel), by decide +kernel, next_after (by decide +kernel), fun _ _ _ h => (by cases h),
    by decide +kernel, by decide +kernel⟩

theorem witness_StepKeeps :
    let s := offer ⟨3, 0, []⟩ frame1
    s.Inv ∧ s.Window ∧ s.QuotaTracks ∧ s.CodeCount ∧ step s = .next (after .pull { s with port := [] }) :=
  ⟨inv_of_ok (by decide +kernel), window_congr (s := frame1) rfl rfl rfl rfl rfl rfl rfl frame1_window,
    (by decide +kernel : (78 : BitVec 7).toNat = quotaBefore 0), (by decide : (0 : BitVec 10).toNat = 0),
    (next_after (by decide +kernel) : exec .pull { offer ⟨3, 0, []⟩ frame1 with port := [] } = _)⟩

theorem witness_EveryCommandAnswers :
    let s := offer ⟨6, 0, []⟩ (enc 64)
    s.Inv ∧ s.port = ⟨6, 0, []⟩ :: [] ∧ decodeCommand ⟨6, 0, []⟩ = .ok .pushEob :=
  ⟨inv_of_ok (by decide +kernel), rfl, by decide +kernel⟩

theorem witness_WindowDetermined :
    let t := { frame1 with predCr := 7, phase := .atIns }
    frame1.Window ∧ t.Window ∧ frame1.posNat = t.posNat ∧ frame1.len = t.len ∧
      ∀ a, a < frame1.len.toNat → frame1.buf.read a = t.buf.read a :=
  ⟨frame1_window, window_congr (s := frame1) rfl rfl rfl rfl rfl rfl rfl frame1_window, rfl, rfl, fun _ _ => rfl⟩

theorem witness_LutBuild :
    (let t : Table Counts := ⟨3, [⟨1, 1, ⟨0, 0, 0⟩⟩, ⟨2, 3, ⟨1, 0, 0⟩⟩]⟩;
      t.entryLenOk = true ∧ t.noCollision = false) ∧
    reg.dc.entryLenOk = true ∧ reg.dc.noCollision = true := by decide +kernel

theorem witness_AtMostOneMatch :
    reg.wf = true ∧ escMatch reg.escDc 63 = true ∧ escMatch (reg.ac .two).esc1 7 = true ∧
    escMatch (reg.ac .three).esc2 15 = true ∧
    (∃ e ∈ reg.dc.entries, e.covers 31 = true) ∧ (∃ e ∈ reg.ins.entries, e.covers 7 = true) ∧
    ∃ e ∈ (reg.ac .one).table.entries, e.covers 11 = true := by decide +kernel

/-- A table is COMPLETE when each of its slots is covered or escape-covered, its escapes being no longer than W. -/
theorem complete_of_slots {α : Type} (t : Table α) (escs : List Escape) (hl : ∀ e ∈ escs, e.len ≤ t.width)
    (h : ∀ x < 2 ^ t.width, (escs.any fun e => x % 2 ^ e.len == e.value) = true ∨ (t.entryAt x).isSome = true) :
    t.Complete escs := by
  intro F
  rcases h (F.toNat % 2 ^ t.width) (Nat.mod_lt _ (Nat.two_pow_pos _)) with h1 | h1
  · obtain ⟨e, he, h2⟩ := List.any_eq_true.mp h1
    refine .inl ⟨e, he, ?_⟩
    rwa [Nat.mod_mod_of_dvd _ (Nat.pow_dvd_pow 2 (hl e he))] at h2
  · right
    unfold Table.lookup Table.lookupEntry
    rw [Option.isSome_map]; exact h1

/-- L2-LUT-5, and a frame in error by READ_CORRUPTION, which a PULL leaves so. -/
theorem witness_CompleteNeverMisses :
    reg.dc.Complete [reg.escDc] ∧ reg.ins.Complete [] ∧
    (∀ k, (reg.ac k).table.Complete [(reg.ac k).esc1, (reg.ac k).esc2]) ∧
    (let s := { raiseError .readCorruption .dc 0 frame1 with sel := 0 };
      s.Inv ∧ s.registry = reg ∧ exec .pull s = .next (after .pull s) ∧ (after .pull s).errCause = .readCorruption) :=
  ⟨complete_of_slots _ _ (by decide +kernel) (by decide +kernel), complete_of_slots _ _ (by decide +kernel) (by decide +kernel),
    fun k => by cases k <;> exact complete_of_slots _ _ (by decide +kernel) (by decide +kernel),
    inv_of_ok (by decide +kernel), by decide +kernel, next_after (by decide +kernel), by decide +kernel⟩

theorem witness_SumMapWellDefined : reg.wf = true := by decide +kernel

theorem witness_PrecisionCheck : 1 ≤ 10 ∧ -(2 : Int) ^ (10 - 1) ≤ -512 ∧ (-512 : Int) ≤ (2 : Int) ^ (10 - 1) - 1 := by decide

/-- L2-AC-E18, with other bits after the element. -/
theorem witness_EscapePrecision :
    reg.wf = true ∧ (0xABCD0877 : Word).toNat % 2 ^ bitsLength (encodeElement reg (chooseAc reg .two 0x1FF0)) =
      bitsValue (encodeElement reg (chooseAc reg .two 0x1FF0)) := by decide +kernel

/-- L2-DC-20 and L2-DC-21, the ends of the range. -/
theorem witness_DcRoundTrip :
    reg.wf = true ∧ -512 ≤ (-512 : Word).toInt ∧ (511 : Word).toInt ≤ 511 ∧
    (0x803F : Word).toNat % 2 ^ bitsLength (encodeElement reg (chooseDc reg (-512) 0)) =
      bitsValue (encodeElement reg (chooseDc reg (-512) 0)) ∧
    (0x7FFF : Word).toNat % 2 ^ bitsLength (encodeElement reg (chooseDc reg 511 0)) =
      bitsValue (encodeElement reg (chooseDc reg 511 0)) := by decide +kernel

end Sys2Proof.Tests
end

section
/-! The block's invariant in two parts: the registers, which hold at every point of a command, and what the phase asks
of them, which holds between commands; then every step keeps both (10_state R20, R22, R24). -/

namespace Sys2Proof.Machine

/-- The part of the invariant that no phase enters: it holds at every point of a command, also where a raise ends it. -/
structure RegsOk (s : State) : Prop extends OutOk s where
  build_wf : s.build.wf = true
  rem_le : s.rem.toNat ≤ 32
  p_aligned : s.p % 4 = 0
  quota_le : s.quota.toNat ≤ 78
  mb_le : s.mbIdx.toNat ≤ s.mbCount.toNat
  nbuf_le : s.nbuf.toNat ≤ 64
  buf_wf : s.buf.wf = true

/-- The part of the invariant that says what a phase asks of the registers. -/
structure PhaseOk (s : State) : Prop where
  phase_mode : phaseOfMode s.mode s.phase = true
  counter_pos : ∀ k : Role, s.phase = phaseOfRole k → s.cnt k ≠ 0
  mb_lt : s.phase.active = true → s.mbIdx.toNat < s.mbCount.toNat
  error_iff : s.errCause = .none ↔ s.phase ≠ .error
  acc_cnt : s.mode = .encode → s.phase ≠ .error → s.accCnt.toNat ≤ 31

theorem inv_iff {s : State} : s.Inv ↔ RegsOk s ∧ PhaseOk s :=
  ⟨fun h => ⟨{ h with }, { h with }⟩, fun ⟨h, h'⟩ => { h, h' with }⟩

theorem regsOk_of_inv {s : State} (h : s.Inv) : RegsOk s := (inv_iff.mp h).1

theorem withPort_inv {s : State} (h : s.Inv) (port : List HostCommand) : ({ s with port := port } : State).Inv :=
  { h with }

theorem emit_inv {s : State} (h : s.Inv) (r : Response) : (emit r s).Inv := { h with }

/-! ### What each phase asks -/

theorem phaseOk_error {t : State} (hp : t.phase = .error) (he : t.errCause ≠ .none) : PhaseOk t where
  phase_mode := by rw [hp]; cases t.mode <;> rfl
  counter_pos k hk := by rw [hp] at hk; cases k <;> cases hk
  mb_lt ha := by rw [hp] at ha; cases ha
  error_iff := by simp [hp, he]
  acc_cnt _ hne := absurd hp hne

/-- What a phase other than ERROR asks, with the error cause and the pending bits said once. -/
theorem phaseOk_of_ne_error {t : State} (hm : phaseOfMode t.mode t.phase = true) (hne : t.phase ≠ .error)
    (hc : ∀ k, t.phase = phaseOfRole k → t.cnt k ≠ 0) (hlt : t.phase.active = true → t.mbIdx.toNat < t.mbCount.toNat)
    (he : t.errCause = .none) (ha : t.mode = .encode → t.accCnt.toNat ≤ 31) : PhaseOk t where
  phase_mode := hm
  counter_pos := hc
  mb_lt := hlt
  error_iff := iff_of_true he hne
  acc_cnt hm _ := ha hm

/-- A frame that stands before a block or past its last one (45_decoder R225, 46_encoder R253). -/
theorem phaseOk_betweenBlocks {t : State} (hp : t.phase = if t.mbIdx = t.mbCount then .done else .atDc)
    (hle : t.mbIdx.toNat ≤ t.mbCount.toNat) (he : t.errCause = .none) (ha : t.mode = .encode → t.accCnt.toNat ≤ 31) :
    PhaseOk t := by
  have hph : phaseOfMode t.mode t.phase = true ∧ t.phase ≠ .error ∧ (∀ k, t.phase ≠ phaseOfRole k) ∧
      (t.phase.active = true → t.mbIdx ≠ t.mbCount) := by
    rw [hp]
    split
    · exact ⟨by cases t.mode <;> rfl, by decide, fun k => by cases k <;> decide, fun h => by cases h⟩
    · exact ⟨by cases t.mode <;> rfl, by decide, fun k => by cases k <;> decide, fun _ => ‹_›⟩
  obtain ⟨hmode, hne, hrole, hmore⟩ := hph
  refine phaseOk_of_ne_error hmode hne (fun k hk => absurd hk (hrole k)) (fun hactive => ?_) he ha
  have := hmore hactive
  bv_omega

/-- A decode frame inside a block, in AT_INS, in ACk with codes of table k left, or at the block's end. -/
theorem phaseOk_inBlock {t : State} (hm : t.mode = .decode)
    (hp : t.phase = .atIns ∨ (∃ j, t.phase = phaseOfRole j ∧ t.cnt j ≠ 0) ∨ t.phase = .blockEnd)
    (hlt : t.mbIdx.toNat < t.mbCount.toNat) (he : t.errCause = .none) : PhaseOk t := by
  have hph : phaseOfMode .decode t.phase = true ∧ t.phase ≠ .error ∧ ∀ k, t.phase = phaseOfRole k → t.cnt k ≠ 0 := by
    rcases hp with hp | ⟨j, hp, hj⟩ | hp <;> rw [hp]
    · exact ⟨rfl, by decide, fun k hk => by cases k <;> cases hk⟩
    · exact ⟨by cases j <;> rfl, by cases j <;> decide, fun k hk => phaseOfRole_inj hk ▸ hj⟩
    · exact ⟨rfl, by decide, fun k hk => by cases k <;> cases hk⟩
  obtain ⟨hmode, hne, hcnt⟩ := hph
  exact phaseOk_of_ne_error (by rw [hm]; exact hmode) hne hcnt (fun _ => hlt) he fun h => by rw [hm] at h; cases h

theorem raiseError_inv {s : State} (h : RegsOk s) {c : ErrCause} (hc : c ≠ .none) (tb : ErrTable) (ps : BitVec 35) :
    (raiseError c tb ps s).Inv :=
  inv_iff.mpr ⟨{ h with }, phaseOk_error rfl hc⟩

/-! ### The block cursor -/

theorem nextMb_le {s : State} (h : s.mbIdx.toNat < s.mbCount.toNat) : s.nextMb.toNat ≤ s.mbCount.toNat := by
  unfold State.nextMb
  split <;> bv_omega

theorem afterBlock_inv {s : State} (h : s.Inv) (ha : s.phase.active = true) : s.afterBlock.Inv := by
  have hle := nextMb_le (h.mb_lt ha)
  have hne : s.phase ≠ .error := fun hp => by rw [hp] at ha; cases ha
  exact inv_iff.mpr ⟨{ regsOk_of_inv h with mb_le := hle },
    phaseOk_betweenBlocks rfl hle (h.error_iff.mpr hne) fun hm => h.acc_cnt hm hne⟩

/-! ### The decoder's steps -/

theorem advanced_regsOk {s : State} (h : RegsOk s) {n : Nat} (hn : n ≤ 32) : RegsOk (s.advanced n) :=
  { h with
    rem_le := consume_rem_le h.rem_le hn
    p_aligned := (consume_p_mod h.rem_le hn).trans h.p_aligned }

theorem noPreds_regsOk {s : State} (h : RegsOk s) : RegsOk s.noPreds := { h with }

theorem atColumn_inv {s : State} (h : s.Inv) : s.atColumn.Inv :=
  { h with
    rem_le := Nat.le_refl 32
    p_aligned := by
      show s.columnOffset % 4 = 0
      rw [← realignTarget_eq_columnOffset h.rem_le h.p_aligned, realignTarget_mod, h.p_aligned]
    quota_le := Nat.le_refl 78 }

/-- The state a DC is decoded from has the invariant and a block left in its column (45_decoder R218, R220). -/
theorem dcStart_inv {s u : State} (h : s.Inv) (hu : DcStart s u) :
    u.Inv ∧ u.mode = .decode ∧ u.phase = .atDc ∧ u.quota ≠ 0 := by
  obtain ⟨hm, hp, ⟨hq, rfl⟩ | ⟨-, rfl⟩⟩ := hu
  · exact ⟨h, hm, hp, hq⟩
  · exact ⟨atColumn_inv h, hm, hp, by show (78 : BitVec 7) ≠ 0; decide⟩

theorem afterDc_inv {s : State} (h : s.Inv) (hm : s.mode = .decode) (hp : s.phase = .atDc) (hq : s.quota ≠ 0)
    (v : Word) {n : Nat} (hn : n ≤ 32) : (s.afterDc v n).Inv := by
  have hquota : (s.quota - 1).toNat ≤ 78 := by
    have := h.quota_le
    bv_omega
  exact inv_iff.mpr ⟨{ advanced_regsOk (regsOk_of_inv h) hn with quota_le := hquota },
    phaseOk_inBlock hm (.inl rfl) (h.mb_lt (by rw [hp]; rfl)) (h.error_iff.mpr (by rw [hp]; decide))⟩

theorem afterIns_inv {s : State} (h : s.Inv) (hm : s.mode = .decode) (hp : s.phase = .atIns) {c : Counts}
    (hc : c.inRange = true) {n : Nat} (hn : n ≤ 32) : (s.afterIns c n).Inv :=
  inv_iff.mpr ⟨{ advanced_regsOk (regsOk_of_inv h) hn with },
    phaseOk_inBlock hm (.inr (afterIns_phase hc n s)) (h.mb_lt (by rw [hp]; rfl))
      (h.error_iff.mpr (by rw [hp]; decide))⟩

/-- The phase after an AC code is ACj with codes of table j left, or BLOCK_END (45_decoder R223, R224). -/
theorem afterAc_phase {s : State} {k : Role} (hp : s.phase = phaseOfRole k) (code : Code) (n : Nat) :
    (∃ j, (s.afterAc k code n).phase = phaseOfRole j ∧ (s.afterAc k code n).cnt j ≠ 0) ∨
      (s.afterAc k code n).phase = .blockEnd := by
  rw [← acStep_after hp, acStep_eq hp]
  rcases normalizedFrom_cases (countCode (decCnt k (consume n s))) k with ⟨j, h1, h2⟩ | h1
  · exact .inl ⟨j, h1, h2⟩
  · exact .inr h1

theorem phaseOfRole_active (k : Role) : (phaseOfRole k).active = true := by cases k <;> rfl

theorem afterAc_inv {s : State} (h : s.Inv) (hm : s.mode = .decode) {k : Role} (hp : s.phase = phaseOfRole k)
    (code : Code) {n : Nat} (hn : n ≤ 32) : (s.afterAc k code n).Inv := by
  have hlt := h.mb_lt (by rw [hp]; exact phaseOfRole_active k)
  have he := h.error_iff.mpr (by rw [hp]; cases k <;> decide)
  have hr := advanced_regsOk (regsOk_of_inv h) hn
  have hph := afterAc_phase hp code n
  cases k <;> exact inv_iff.mpr ⟨{ hr with }, phaseOk_inBlock hm (.inr hph) hlt he⟩

/-- The state an AC code is decoded from has the invariant (45_decoder R222, R223). -/
theorem acStart_inv {s u : State} {k : Role} (h : s.Inv) (hu : AcStart s u k) :
    u.Inv ∧ u.mode = .decode ∧ u.phase = phaseOfRole k := by
  obtain ⟨hm, hp, -, rfl | ⟨e, hi, hin, hle, rfl⟩⟩ := hu
  · exact ⟨h, hm, hp⟩
  · exact ⟨afterIns_inv h hm hi hin hle, hm, hp⟩

/-- A PULL keeps the invariant, whatever it does (45_decoder R217 to R228). -/
theorem pulled_inv {s t : State} (h : s.Inv) (ht : Pulled s t) : t.Inv := by
  cases ht with
  | answered r => exact emit_inv h r
  | columnLost => exact raiseError_inv (noPreds_regsOk (regsOk_of_inv h)) (by decide) _ _
  | dcLost u hu => exact raiseError_inv (regsOk_of_inv (dcStart_inv h hu).1) (by decide) _ _
  | dc u v n hu hn =>
    obtain ⟨hI, hm, hp, hq⟩ := dcStart_inv h hu
    exact afterDc_inv hI hm hp hq v hn
  | insLost => exact raiseError_inv (regsOk_of_inv h) (by decide) _ _
  | insEnd e hm hp hin hle hend => exact afterBlock_inv (afterIns_inv h hm hp hin hle) (by rw [hend]; rfl)
  | acLost u k hu => exact raiseError_inv (regsOk_of_inv (acStart_inv h hu).1) (by decide) _ _
  | ac u k code n hu hn =>
    obtain ⟨hI, hm, hp⟩ := acStart_inv h hu
    exact afterAc_inv hI hm hp code hn
  | blockEnd hm hp => exact afterBlock_inv h (by rw [hp]; rfl)

/-! ### The encoder's steps -/

theorem columnStart_regsOk {s : State} (h : RegsOk s) : RegsOk (columnStart s) := by
  unfold columnStart
  split
  · exact { h with quota_le := Nat.le_refl 78 }
  · exact h

theorem columnStart_quota_ne (s : State) : (columnStart s).quota ≠ 0 := by
  unfold columnStart
  split
  · show fullQuota ≠ 0; decide
  · assumption

theorem blockDone_regsOk {s : State} (h : RegsOk s) (hlt : s.mbIdx.toNat < s.mbCount.toNat) : RegsOk (blockDone s) :=
  { h with mb_le := nextMb_le hlt, nbuf_le := Nat.zero_le 64 }

theorem wrote_regsOk {s t : State} {n v : Nat} (h : RegsOk s) (ht : Wrote s t n v) : RegsOk t := by
  obtain ⟨a, c, o, l, rfl⟩ : ∃ a c o l, t = { s with acc := a, accCnt := c, out := o, outLen := l } :=
    ⟨_, _, _, _, ht.only⟩
  exact { ht.out_ok, h with }

/-- A command that ends in ENC_OUTPUT_OVERFLOW leaves the invariant: the error phase asks nothing of ACC_CNT. -/
theorem overflowed_inv {wpos : BitVec 35} {s t : State} {total n v : Nat} (h : RegsOk s)
    (ht : Overflowed wpos s t total n v) : t.Inv := by
  have ho := ht.out_ok
  have hr : RegsOk { s with acc := t.acc, accCnt := t.accCnt, out := t.out, outLen := t.outLen } := by
    rw [ht.only] at ho
    exact { ho, h with }
  rw [ht.only]
  exact raiseError_inv hr (by decide) _ _

theorem dcPushed_inv {s u : State} {n v : Nat} (h : s.Inv) (hm : s.mode = .encode) (hp : s.phase = .atDc)
    (hu : Wrote (columnStart s) u n v) (d : Word) : (dcPushed d u).Inv := by
  have hr := wrote_regsOk (columnStart_regsOk (regsOk_of_inv h)) hu
  have hq : u.quota ≠ 0 := by rw [hu.only]; exact columnStart_quota_ne s
  have hquota : (u.quota - 1).toNat ≤ 78 := by
    have := hr.quota_le
    bv_omega
  have hframe : u.mode = s.mode ∧ u.mbIdx = s.mbIdx ∧ u.mbCount = s.mbCount ∧ u.errCause = s.errCause := by
    rw [hu.only]
    unfold columnStart
    split <;> exact ⟨rfl, rfl, rfl, rfl⟩
  obtain ⟨hmu, hi, hc, he⟩ := hframe
  unfold dcPushed
  rw [writeChain_eq]
  refine inv_iff.mpr ⟨{ hr with quota_le := hquota, nbuf_le := Nat.zero_le 64 }, phaseOk_of_ne_error ?_ ?_ ?_ ?_ ?_ ?_⟩
  · show phaseOfMode u.mode .collect = true
    rw [hmu, hm]; rfl
  · show Phase.collect ≠ .error
    decide
  · intro k hk; cases k <;> cases hk
  · intro _
    show u.mbIdx.toNat < u.mbCount.toNat
    rw [hi, hc]; exact h.mb_lt (by rw [hp]; rfl)
  · show u.errCause = .none
    rw [he]; exact h.error_iff.mpr (by rw [hp]; decide)
  · exact fun _ => hu.acc_ok.cnt_le

/-- An encoded block's end: the next block's DC, or the frame's end after the last one (46_encoder R253). -/
theorem eob_inv {s u : State} {n v : Nat} (h : s.Inv) (hp : s.phase = .collect) (hu : Wrote (blockDone s) u n v)
    {ph : Phase} (hph : ph = if (blockDone s).mbIdx = s.mbCount then .done else .atDc) : (setPhase ph u).Inv := by
  have hlt := h.mb_lt (by rw [hp]; rfl)
  have hr := wrote_regsOk (blockDone_regsOk (regsOk_of_inv h) hlt) hu
  have he : u.errCause = .none := by rw [hu.only]; exact h.error_iff.mpr (by rw [hp]; decide)
  refine inv_iff.mpr ⟨{ hr with }, phaseOk_betweenBlocks ?_ hr.mb_le he fun _ => hu.acc_ok.cnt_le⟩
  show ph = if u.mbIdx = u.mbCount then Phase.done else .atDc
  rw [hph, hu.only]
  rfl

/-- A push keeps the invariant, whatever it does (46_encoder R251 to R256). -/
theorem pushed_inv {s t : State} (h : s.Inv) (ht : Pushed s t) : t.Inv := by
  have hr := regsOk_of_inv h
  cases ht with
  | answered r => exact emit_inv h r
  | protocol => exact raiseError_inv hr (by decide) _ _
  | dc u n v d hm hp hu => exact emit_inv (dcPushed_inv h hm hp hu d) _
  | dcPadLost t total n v _ _ _ ht => exact overflowed_inv (noPreds_regsOk hr) ht
  | dcLost t total n v _ _ ht => exact overflowed_inv (columnStart_regsOk hr) ht
  | ac code _ _ hlt =>
    have hn : (s.nbuf + 1).toNat ≤ 64 := by bv_omega
    refine emit_inv ?_ _
    exact { h with nbuf_le := hn }
  | acLost => exact raiseError_inv hr (by decide) _ _
  | noInstruction => exact raiseError_inv hr (by decide) _ _
  | eob u n v _ hp hl hu => exact emit_inv (eob_inv h hp hu (if_neg hl).symm) _
  | eobDone u n v _ hp hl hu => exact emit_inv (eob_inv h hp hu (if_pos hl).symm) _
  | eobLost t total n v _ _ ht => exact overflowed_inv hr ht
  | eobPadLost t total n v _ hp _ ht =>
    exact overflowed_inv (blockDone_regsOk hr (h.mb_lt (by rw [hp]; rfl))) ht

/-! ### The frame's start and RESET -/

theorem resetWith_inv {b : Build} {o : Memory} (hb : b.wf = true) (ho : o.wf = true) (port : List HostCommand)
    (r : Option Response) : (State.resetWith b o port r).Inv where
  build_wf := hb
  rem_le := Nat.zero_le 32
  p_aligned := rfl
  quota_le := Nat.zero_le 78
  phase_mode := rfl
  counter_pos k hk := by cases k <;> cases hk
  mb_le := Nat.le_refl 0
  mb_lt ha := by cases ha
  error_iff := by simp [State.resetWith]
  nbuf_le := Nat.zero_le 64
  acc_lt := Nat.one_pos
  acc_cnt hm := by cases hm
  outLen_aligned := rfl
  outLen_le := Nat.zero_le _
  buf_wf := rfl
  out_wf := ho

theorem openFrame_inv {s : State} (h : RegsOk s) (hi : s.mbIdx = 0) (he : s.errCause = .none)
    (ha : s.mode = .encode → s.accCnt.toNat ≤ 31) : (openFrame s).Inv := by
  refine inv_iff.mpr ⟨{ h with }, phaseOk_betweenBlocks ?_ h.mb_le he ha⟩
  show (if s.mbCount = 0 then Phase.done else .atDc) = if s.mbIdx = s.mbCount then .done else .atDc
  rw [hi]
  exact if_congr eq_comm rfl rfl

theorem startFrame_regsOk {s : State} (h : RegsOk s) (mode : Mode) (sel : BitVec 1) (q : BitVec 6) (m : BitVec 16) :
    RegsOk (startFrame mode sel q m s) :=
  { h with quota_le := Nat.le_refl 78, mb_le := Nat.zero_le _ }

theorem bindBuffer_regsOk {s : State} (h : RegsOk s) (len : BitVec 24) (buf : List Byte) :
    RegsOk (bindBuffer len buf s) :=
  { h with rem_le := Nat.le_refl 32, p_aligned := rfl, buf_wf := memoryOfBytes_wf buf }

theorem emptyOutput_regsOk {s : State} (h : RegsOk s) : RegsOk (emptyOutput s) :=
  { h with
    out_wf := rfl, outLen_aligned := rfl, outLen_le := Nat.zero_le _, acc_lt := Nat.one_pos, nbuf_le := Nat.zero_le 64 }

theorem execStartDecode_inv {s t : State} (h : s.Inv) {sel : BitVec 1} {q : BitVec 6} {m : BitVec 16} {len : BitVec 24}
    {buf : List Byte} (ht : execStartDecode sel q m len buf s = .next t) : t.Inv := by
  have hr := bindBuffer_regsOk (startFrame_regsOk (regsOk_of_inv h) .decode sel q m) len buf
  simp only [execStartDecode] at ht
  split at ht <;> cases ht
  · exact raiseError_inv hr (by decide) _ _
  · exact emit_inv (openFrame_inv hr rfl rfl fun hm => by cases hm) _

theorem execStartEncode_inv {s t : State} (h : s.Inv) {sel : BitVec 1} {q : BitVec 6} {m : BitVec 16}
    (ht : execStartEncode sel q m s = .next t) : t.Inv := by
  cases ht
  exact emit_inv (openFrame_inv (emptyOutput_regsOk (startFrame_regsOk (regsOk_of_inv h) .encode sel q m)) rfl rfl
    fun _ => Nat.zero_le 31) _

/-! ### Every step -/

/-- The port offers host commands only (40_host_interface R121). -/
theorem decodeCommand_class {c : HostCommand} {i : Instr} (h : decodeCommand c = .ok i) : i.elementClass = none := by
  unfold decodeCommand decodeStartDecode at h
  split at h
  case h_2 => split at h <;> cases h; rfl
  all_goals cases h; rfl

/-- Every host command keeps the invariant. -/
theorem exec_inv {s t : State} {i : Instr} (hi : i.elementClass = none) (h : s.Inv) (ht : exec i s = .next t) :
    t.Inv := by
  cases i <;> cases hi
  case reset => cases ht; exact resetWith_inv h.build_wf h.out_wf _ _
  case startDecode => exact execStartDecode_inv h ht
  case pull =>
    obtain ⟨u, hu, hp⟩ := execPull_pulled h
    cases hu.symm.trans ht
    exact pulled_inv h hp
  case startEncode => exact execStartEncode_inv h ht
  case pushCode code =>
    obtain ⟨u, hu, hp⟩ := execPushCode_pushed h code
    cases hu.symm.trans ht
    exact pushed_inv h hp
  case pushEob =>
    obtain ⟨u, hu, hp⟩ := execPushEob_pushed h
    cases hu.symm.trans ht
    exact pushed_inv h hp
  case readReg =>
    simp only [exec, execReadReg] at ht
    split at ht <;> cases ht <;> exact emit_inv h _
  case reservedCmd => cases ht; exact emit_inv h _

/-- Settles O48: a step that runs a command runs a host command, and each of these keeps the invariant. -/
theorem stepKeepsInvariant : Obligations.StepKeepsInvariant := by
  intro s t h ht
  unfold step at ht
  split at ht
  · cases ht; exact h
  · split at ht
    · exact exec_inv (decodeCommand_class ‹_›) (withPort_inv h _) ht
    · cases ht

end Sys2Proof.Machine
end

section
/-! What a mode's commands can change at all, in any state: a PULL or an element only the decoder's registers, a push only
the encoder's and the block cursor; so the built block, the other mode's registers and OVERRUN stay (10_state R20, R24,
R32). -/

namespace Sys2Proof.Machine

/-- t is s but for the registers a decode frame works with, and OVERRUN is still set if it was. -/
structure DecodeOnly (s t : State) : Prop where
  only : t = { s with
    phase := t.phase, front := t.front, mid := t.mid, back := t.back, rem := t.rem, p := t.p
    predCr := t.predCr, predCb := t.predCb, predY1 := t.predY1, predY3 := t.predY3
    cnt1 := t.cnt1, cnt2 := t.cnt2, cnt3 := t.cnt3, mbIdx := t.mbIdx, blk := t.blk, codeIdx := t.codeIdx
    quota := t.quota, overrun := t.overrun, errCause := t.errCause, errTable := t.errTable, errPos := t.errPos
    resp := t.resp }
  sticky : s.overrun = true → t.overrun = true

/-- t is s but for the registers an encode frame works with. -/
def EncodeOnly (s t : State) : Prop :=
  t = { s with
    phase := t.phase, predCr := t.predCr, predCb := t.predCb, predY1 := t.predY1, predY3 := t.predY3
    mbIdx := t.mbIdx, blk := t.blk, codeIdx := t.codeIdx, quota := t.quota, errCause := t.errCause
    errTable := t.errTable, errPos := t.errPos, acc := t.acc, accCnt := t.accCnt, outLen := t.outLen, out := t.out
    ebuf := t.ebuf, nbuf := t.nbuf, resp := t.resp }

/-! ### The decoder -/

theorem DecodeOnly_refl (s : State) : DecodeOnly s s := ⟨rfl, id⟩

theorem DecodeOnly_trans {s t u : State} (h : DecodeOnly s t) (h' : DecodeOnly t u) : DecodeOnly s u := by
  refine ⟨?_, fun ho => h'.sticky (h.sticky ho)⟩
  have hu := h'.only
  rw [h.only] at hu
  exact hu

theorem decodeOnly_emit (r : Response) (s : State) : DecodeOnly s (emit r s) := ⟨rfl, id⟩

theorem decodeOnly_raiseError (c : ErrCause) (tb : ErrTable) (ps : BitVec 35) (s : State) :
    DecodeOnly s (raiseError c tb ps s) := ⟨rfl, id⟩

theorem decodeOnly_consume (n : Nat) (s : State) : DecodeOnly s (consume n s) := by
  refine ⟨by rw [← advanced_eq]; rfl, fun ho => ?_⟩
  unfold consume
  split
  · exact ho
  · simp [overrunAfter, ho]

theorem decodeOnly_normalize (s : State) : DecodeOnly s (normalize s) := by
  unfold normalize
  split <;> exact ⟨rfl, id⟩

theorem decodeOnly_dcStep (dc : Word) (n : Nat) (s : State) : DecodeOnly s (dcStep dc n s) := by
  have hw : DecodeOnly s (writeChain dc s) := by rw [writeChain_eq]; exact ⟨rfl, id⟩
  exact DecodeOnly_trans (DecodeOnly_trans hw (decodeOnly_consume n _)) ⟨rfl, id⟩

theorem decodeOnly_insStep (c : Counts) (n : Nat) (s : State) : DecodeOnly s (insStep c n s) := by
  have hl : DecodeOnly (consume n s) (setPhase .ac1 (loadCounts c (consume n s))) := ⟨rfl, id⟩
  exact DecodeOnly_trans (DecodeOnly_trans (decodeOnly_consume n s) hl) (decodeOnly_normalize _)

theorem decodeOnly_acStep (k : Role) (code : Code) (n : Nat) (s : State) : DecodeOnly s (acStep k code n s) := by
  have hc : DecodeOnly (consume n s) (countCode (decCnt k (consume n s))) := by cases k <;> exact ⟨rfl, id⟩
  exact DecodeOnly_trans (DecodeOnly_trans (decodeOnly_consume n s) hc)
    (DecodeOnly_trans (decodeOnly_normalize _) (decodeOnly_emit _ _))

/-- An element that runs stands where its class comes next, and changes only the decoder's registers (30_encoding R94;
assumption log 7). -/
theorem exec_element {s t : State} {i : Instr} {cls : ElementClass} (hi : i.elementClass = some cls)
    (h : exec i s = .next t) : accepts cls s = true ∧ DecodeOnly s t := by
  have ac : ∀ {k code n}, runAc k code n s = .next t → accepts (.ac k) s = true ∧ DecodeOnly s t := by
    intro k code n h
    unfold runAc at h
    split at h <;> cases h
    exact ⟨‹_›, decodeOnly_acStep k code n s⟩
  cases i <;> cases hi
  case dcEsc v =>
    simp only [exec, execDcEsc] at h
    split at h <;> cases h
    exact ⟨‹_›, decodeOnly_dcStep _ _ s⟩
  case dcVlc e =>
    simp only [exec, execDcVlc] at h
    split at h <;> cases h
    exact ⟨‹_›, decodeOnly_dcStep _ _ s⟩
  case insVlc e =>
    simp only [exec, execInsVlc] at h
    split at h <;> cases h
    exact ⟨‹_›, decodeOnly_insStep _ _ s⟩
  all_goals exact ac h

theorem execElement_eq_exec {i : Instr} {cls : ElementClass} (hi : i.elementClass = some cls) (s : State) :
    execElement i s = exec i s := by
  cases i <;> cases hi <;> rfl

theorem decodeOnly_runElement {cls : ElementClass} {s t : State} (h : runElement cls s = .next t) :
    DecodeOnly s t := by
  unfold runElement at h
  split at h
  · cases h; exact decodeOnly_raiseError _ _ _ s
  · have hi := decodeElement_class ‹_›
    rw [execElement_eq_exec hi] at h
    exact (exec_element hi h).2

theorem decodeOnly_blockEndStep (s : State) : DecodeOnly s (blockEndStep s) := ⟨rfl, id⟩

theorem decodeOnly_pullDc {s t : State} (h : pullDc s = .next t) : DecodeOnly s t := by
  unfold pullDc columnResetIfDue at h
  split at h
  case h_1 u hu =>
    cases h
    split at hu
    · rcases columnReset_cases s with ⟨-, e⟩ | ⟨-, e⟩ <;> cases e.symm.trans hu
      exact ⟨rfl, id⟩
    · cases hu
  case h_2 u hu =>
    refine DecodeOnly_trans ?_ (decodeOnly_runElement h)
    split at hu
    · rcases columnReset_cases s with ⟨-, e⟩ | ⟨-, e⟩ <;> cases e.symm.trans hu
      exact ⟨rfl, id⟩
    · cases hu; exact DecodeOnly_refl s

theorem decodeOnly_afterIns {s t : State} (h : afterIns s = .next t) : DecodeOnly s t := by
  unfold afterIns at h
  split at h
  case h_1 => cases h; exact decodeOnly_blockEndStep s
  case h_2 => exact decodeOnly_runElement h
  case h_3 => exact decodeOnly_runElement h
  case h_4 => exact decodeOnly_runElement h
  all_goals cases h; exact DecodeOnly_refl s

theorem decodeOnly_pullIns {s t : State} (h : pullIns s = .next t) : DecodeOnly s t := by
  unfold pullIns at h
  split at h
  · exact DecodeOnly_trans (decodeOnly_runElement ‹_›) (decodeOnly_afterIns h)
  · cases h
  · cases h

/-- A PULL changes only the decoder's registers (45_decoder R217). -/
theorem decodeOnly_execPull {s t : State} (h : execPull s = .next t) : DecodeOnly s t := by
  unfold execPull at h
  split at h
  · cases h; exact decodeOnly_emit _ s
  · cases hp : s.phase <;> simp only [hp] at h
    case atDc => exact decodeOnly_pullDc h
    case atIns => exact decodeOnly_pullIns h
    case ac1 => exact decodeOnly_runElement h
    case ac2 => exact decodeOnly_runElement h
    case ac3 => exact decodeOnly_runElement h
    case blockEnd => cases h; exact decodeOnly_blockEndStep s
    case collect => cases h
    all_goals cases h; exact decodeOnly_emit _ s

/-! ### The encoder -/

theorem EncodeOnly_refl (s : State) : EncodeOnly s s := rfl

theorem EncodeOnly_trans {s t u : State} (h : EncodeOnly s t) (h' : EncodeOnly t u) : EncodeOnly s u := by
  unfold EncodeOnly at *; rw [h] at h'; exact h'

/-- An operation and what follows it change only the encoder's registers, whether the operation raises or not. -/
theorem encodeOnly_andThen {s : State} {o : Op} {f : State → Op} (ho : EncodeOnly s o.state)
    (hf : ∀ u, EncodeOnly u (f u).state) : EncodeOnly s (o.andThen f).state := by
  cases o with
  | done u => exact EncodeOnly_trans ho (hf u)
  | raised u => exact ho

theorem encodeOnly_outWrite (wpos : BitVec 35) (w : Word) (s : State) : EncodeOnly s (outWrite wpos w s).state := by
  unfold outWrite
  split <;> rfl

theorem encodeOnly_writeBits (wpos : BitVec 35) (n v : Nat) (s : State) :
    EncodeOnly s (writeBits wpos n v s).state := by
  refine EncodeOnly_trans (t := appendBits n v s) rfl ?_
  unfold writeBits flushWord
  split
  · exact encodeOnly_andThen (encodeOnly_outWrite wpos _ _) fun _ => rfl
  · rfl

theorem encodeOnly_writeFields (wpos : BitVec 35) : ∀ (fs : List BitsField) (s : State),
    EncodeOnly s (writeFields wpos fs s).state
  | [], _ => rfl
  | f :: fs, s => encodeOnly_andThen (encodeOnly_writeBits wpos f.1 f.2 s) (encodeOnly_writeFields wpos fs)

theorem encodeOnly_writeElement (wpos : BitVec 35) (i : Instr) (s : State) :
    EncodeOnly s (writeElement wpos i s).state := encodeOnly_writeFields wpos _ s

theorem encodeOnly_padFlush (wpos : BitVec 35) (s : State) : EncodeOnly s (padFlush wpos s).state := by
  unfold padFlush
  refine encodeOnly_andThen ?_ fun _ => rfl
  split
  · exact encodeOnly_outWrite wpos _ s
  · rfl

theorem encodeOnly_columnFlushIfDue (wpos : BitVec 35) (s : State) :
    EncodeOnly s (columnFlushIfDue wpos s).state := by
  unfold columnFlushIfDue columnFlush
  split
  · exact encodeOnly_andThen (EncodeOnly_trans (t := zeroPreds s) rfl (encodeOnly_padFlush wpos _)) fun _ => rfl
  · rfl

theorem encodeOnly_dcPushed (dc : Word) (s : State) : EncodeOnly s (dcPushed dc s) := by
  unfold dcPushed
  rw [writeChain_eq]
  rfl

theorem encodeOnly_pushDc (code : Code) (s : State) : EncodeOnly s (pushDc code s).state :=
  encodeOnly_andThen (encodeOnly_columnFlushIfDue _ s) fun u =>
    encodeOnly_andThen (encodeOnly_writeElement _ _ u) fun v =>
      EncodeOnly_trans (encodeOnly_dcPushed _ v) rfl

theorem encodeOnly_pushAc (code : Code) (s : State) : EncodeOnly s (pushAc code s) := by
  unfold pushAc
  split <;> rfl

theorem encodeOnly_writeAcs (wpos : BitVec 35) (k : Role) (i count : Nat) (s : State) :
    EncodeOnly s (writeAcs wpos k i count s).state := by
  rw [writeAcs_eq]
  exact encodeOnly_writeFields wpos _ s

theorem encodeOnly_splitEncode (wpos : BitVec 35) (c : Counts) (s : State) :
    EncodeOnly s (splitEncode wpos c s).state :=
  encodeOnly_andThen
    (encodeOnly_andThen (encodeOnly_writeAcs wpos .one 0 c.c1 s) (encodeOnly_writeAcs wpos .two c.c1 c.c2))
    (encodeOnly_writeAcs wpos .three (c.c1 + c.c2) c.c3)

theorem encodeOnly_endBlock (wpos : BitVec 35) (s : State) : EncodeOnly s (endBlock wpos s).state := by
  refine EncodeOnly_trans (t := blockDone s) rfl ?_
  simp only [endBlock]
  split
  · exact encodeOnly_andThen (encodeOnly_padFlush wpos _) fun _ => rfl
  · rfl

theorem encodeOnly_pushEobCollect (s : State) : EncodeOnly s (pushEobCollect s).state := by
  unfold pushEobCollect
  split
  · rfl
  · exact encodeOnly_andThen (encodeOnly_andThen (encodeOnly_andThen (encodeOnly_writeElement _ _ s)
      (encodeOnly_splitEncode _ _)) (encodeOnly_endBlock _)) fun _ => rfl

/-- A PUSH_CODE changes only the encoder's registers (46_encoder R251, R252, R256). -/
theorem encodeOnly_execPushCode {code : Code} {s t : State} (h : execPushCode code s = .next t) : EncodeOnly s t := by
  unfold execPushCode at h
  split at h
  · cases h; rfl
  · cases hp : s.phase <;> simp only [hp] at h
    case atDc => cases h; exact encodeOnly_pushDc code s
    case collect => cases h; exact encodeOnly_pushAc code s
    all_goals cases h
    all_goals rfl

/-- A PUSH_EOB changes only the encoder's registers (46_encoder R253, R256). -/
theorem encodeOnly_execPushEob {s t : State} (h : execPushEob s = .next t) : EncodeOnly s t := by
  unfold execPushEob at h
  split at h
  · cases h; rfl
  · cases hp : s.phase <;> simp only [hp] at h
    case collect => cases h; exact encodeOnly_pushEobCollect s
    all_goals cases h
    all_goals rfl

/-! ### Every instruction -/

/-- An instruction that starts no frame and is not RESET changes only one mode's registers. -/
theorem exec_inFrame {i : Instr} {s t : State} (h : exec i s = .next t) (hr : i ≠ .reset)
    (hd : ∀ sel q m l b, i ≠ .startDecode sel q m l b) (he : ∀ sel q m, i ≠ .startEncode sel q m) :
    DecodeOnly s t ∨ EncodeOnly s t := by
  cases i
  case reset => exact absurd rfl hr
  case startDecode sel q m l b => exact absurd rfl (hd sel q m l b)
  case startEncode sel q m => exact absurd rfl (he sel q m)
  case pull => exact .inl (decodeOnly_execPull h)
  case pushCode => exact .inr (encodeOnly_execPushCode h)
  case pushEob => exact .inr (encodeOnly_execPushEob h)
  case readReg =>
    simp only [exec, execReadReg] at h
    split at h <;> cases h <;> exact .inl (decodeOnly_emit _ s)
  case reservedCmd => cases h; exact .inl (decodeOnly_emit _ s)
  all_goals exact .inl (exec_element rfl h).2

/-- START_DECODE leaves the built block and the encoder's registers (45_decoder R216). -/
theorem execStartDecode_kept {sel : BitVec 1} {q : BitVec 6} {m : BitVec 16} {l : BitVec 24} {b : List Byte}
    {s t : State} (h : execStartDecode sel q m l b s = .next t) :
    t.build = s.build ∧ t.acc = s.acc ∧ t.accCnt = s.accCnt ∧ t.outLen = s.outLen ∧ t.out = s.out ∧ t.ebuf = s.ebuf ∧
      t.nbuf = s.nbuf := by
  simp only [execStartDecode] at h
  split at h <;> cases h <;> exact ⟨rfl, rfl, rfl, rfl, rfl, rfl, rfl⟩

/-- Settles O42: the STARTs and RESET do not write the built block, and a frame's commands change one mode's registers
only. -/
theorem configurationFixed : Obligations.ConfigurationFixed := by
  refine ⟨rfl, fun i s t h => ?_⟩
  by_cases hr : i = .reset
  · subst hr; cases h; rfl
  by_cases hd : ∃ sel q m l b, i = .startDecode sel q m l b
  · obtain ⟨sel, q, m, l, b, rfl⟩ := hd
    exact (execStartDecode_kept h).1
  by_cases he : ∃ sel q m, i = .startEncode sel q m
  · obtain ⟨sel, q, m, rfl⟩ := he
    cases h; rfl
  rcases exec_inFrame h hr (fun sel q m l b e => hd ⟨sel, q, m, l, b, e⟩) fun sel q m e => he ⟨sel, q, m, e⟩ with ho | ho
  · rw [ho.only]
  · rw [ho]

/-- Settles O44: PULL and the elements change only the decoder's registers, the pushes only the encoder's, and each START
leaves the other mode's. -/
theorem otherModeKept : Obligations.OtherModeKept := by
  intro i s t h
  refine ⟨fun hi => ?_, fun hi => ?_⟩
  · have of_only (ho : DecodeOnly s t) : t.acc = s.acc ∧ t.accCnt = s.accCnt ∧ t.outLen = s.outLen ∧ t.out = s.out ∧
        t.ebuf = s.ebuf ∧ t.nbuf = s.nbuf := by
      rw [ho.only]; exact ⟨rfl, rfl, rfl, rfl, rfl, rfl⟩
    rcases hi with rfl | ⟨sel, q, m, l, b, rfl⟩ | hi
    · exact of_only (decodeOnly_execPull h)
    · exact (execStartDecode_kept h).2
    · obtain ⟨cls, hc⟩ := Option.ne_none_iff_exists'.mp hi
      exact of_only (exec_element hc h).2
  · have of_only (ho : EncodeOnly s t) : t.front = s.front ∧ t.mid = s.mid ∧ t.back = s.back ∧ t.rem = s.rem ∧
        t.p = s.p ∧ t.len = s.len ∧ t.buf = s.buf ∧ t.cnt1 = s.cnt1 ∧ t.cnt2 = s.cnt2 ∧ t.cnt3 = s.cnt3 := by
      rw [ho]; exact ⟨rfl, rfl, rfl, rfl, rfl, rfl, rfl, rfl, rfl, rfl⟩
    rcases hi with ⟨sel, q, m, rfl⟩ | ⟨code, rfl⟩ | rfl
    · cases h; exact ⟨rfl, rfl, rfl, rfl, rfl, rfl, rfl, rfl, rfl, rfl⟩
    · exact of_only (encodeOnly_execPushCode h)
    · exact of_only (encodeOnly_execPushEob h)

/-! ### A frame in error -/

/-- No element class comes next in a frame in error (10_state R22). -/
theorem accepts_of_error {s : State} (hp : s.phase = .error) (cls : ElementClass) : accepts cls s = false := by
  rcases cls with _ | _ | k
  · simp [accepts, hp]
  · simp [accepts, hp]
  · cases k <;> simp [accepts, hp, phaseOfRole]

/-- In a frame in error every instruction but the STARTs and RESET only answers (45_decoder R228, 46_encoder R256). -/
theorem exec_of_error {i : Instr} {s t : State} (hp : s.phase = .error) (h : exec i s = .next t) (hr : i ≠ .reset)
    (hd : ∀ sel q m l b, i ≠ .startDecode sel q m l b) (he : ∀ sel q m, i ≠ .startEncode sel q m) :
    ∃ r, t = emit r s := by
  have element : ∀ cls, i.elementClass ≠ some cls := fun cls hc => by
    have ha := (exec_element hc h).1
    rw [accepts_of_error hp] at ha
    cases ha
  cases i
  case reset => exact absurd rfl hr
  case startDecode sel q m l b => exact absurd rfl (hd sel q m l b)
  case startEncode sel q m => exact absurd rfl (he sel q m)
  case reservedCmd => cases h; exact ⟨_, rfl⟩
  case pull | pushCode | pushEob | readReg =>
    simp only [exec, execPull, execPushCode, execPushEob, execReadReg, hp] at h
    split at h <;> cases h <;> exact ⟨_, rfl⟩
  all_goals exact absurd rfl (element _)

/-- Settles O45: a frame's commands set OVERRUN at most, and a nonzero ERR_CAUSE is a frame in error, where they only
answer. -/
theorem flagsSticky : Obligations.FlagsSticky := by
  intro i s t h hr hd he
  refine ⟨fun ho => ?_, fun hI hc => ?_⟩
  · rcases exec_inFrame h hr hd he with hk | hk
    · exact hk.sticky ho
    · rw [hk]; exact ho
  · have hp : s.phase = .error := not_not.mp fun hne => hc (hI.error_iff.mpr hne)
    obtain ⟨r, rfl⟩ := exec_of_error hp h hr hd he
    rfl

end Sys2Proof.Machine
end

section
/-! The READ_REG views as numbers: a word put together from fields at rising bit places is the sum of the fields times
their powers of two (10_state R26). -/

namespace Sys2Proof.Machine

/-- The word holds the number n in its low m bits, and its other bits are 0. -/
def Holds (a : BitVec 64) (m n : Nat) : Prop := a.toNat = n ∧ n < 2 ^ m

theorem holds_setWidth {w : Nat} (b : BitVec w) (hw : w ≤ 64) : Holds (b.setWidth 64) w b.toNat :=
  ⟨BitVec.toNat_setWidth_of_le hw, b.isLt⟩

/-- A field put at bit place k, at or above the end of what the word holds. -/
theorem holds_field {a : BitVec 64} {m n k w : Nat} (ha : Holds a m n) (b : BitVec w) (hm : m ≤ k) (hk : k + w ≤ 64) :
    Holds (a ||| b.setWidth 64 <<< k) (k + w) (n + 2 ^ k * b.toNat) := by
  obtain ⟨han, hn⟩ := ha
  have hlow : n < 2 ^ k := Nat.lt_of_lt_of_le hn (Nat.pow_le_pow_right Nat.two_pos hm)
  have hsum : n + 2 ^ k * b.toNat < 2 ^ (k + w) := by
    calc n + 2 ^ k * b.toNat < 2 ^ k * (b.toNat + 1) := by rw [Nat.mul_succ]; omega
      _ ≤ 2 ^ k * 2 ^ w := Nat.mul_le_mul_left _ b.isLt
      _ = 2 ^ (k + w) := (Nat.pow_add 2 k w).symm
  have hshift : (b.setWidth 64 <<< k).toNat = 2 ^ k * b.toNat := by
    have hfit : 2 ^ (k + w) ≤ 2 ^ 64 := Nat.pow_le_pow_right Nat.two_pos hk
    rw [BitVec.toNat_shiftLeft, BitVec.toNat_setWidth_of_le (by omega), Nat.shiftLeft_eq, Nat.mul_comm,
      Nat.mod_eq_of_lt (by omega)]
  refine ⟨?_, hsum⟩
  rw [BitVec.toNat_or, han, hshift, Nat.or_comm, ← Nat.two_pow_add_eq_or_of_lt hlow, Nat.add_comm]

theorem flagBit_toNat (b : Bool) : (flagBit b).toNat = b.toNat := BitVec.toNat_ofBool b

/-- Register 0x00 (10_state R26). -/
theorem statusWord_toNat (s : State) : (statusWord s).toNat = s.phase.code.toNat + 2 ^ 4 * s.mode.code.toNat +
    2 ^ 5 * s.overrun.toNat + 2 ^ 6 * s.sel.toNat + 2 ^ 8 * s.errCause.code.toNat + 2 ^ 12 * s.errTable.code.toNat := by
  have phase := holds_setWidth s.phase.code (by decide)
  have mode := holds_field phase s.mode.code (k := 4) (by decide) (by decide)
  have overrun := holds_field mode (flagBit s.overrun) (k := 5) (by decide) (by decide)
  have sel := holds_field overrun s.sel (k := 6) (by decide) (by decide)
  have cause := holds_field sel s.errCause.code (k := 8) (by decide) (by decide)
  have table := holds_field cause s.errTable.code (k := 12) (by decide) (by decide)
  rw [flagBit_toNat] at table
  exact table.1

/-- Register 0x0C (10_state R26). -/
theorem countersWord_toNat (s : State) :
    (countersWord s).toNat = s.cnt1.toNat + 2 ^ 8 * s.cnt2.toNat + 2 ^ 16 * s.cnt3.toNat := by
  have cnt1 := holds_setWidth s.cnt1 (by decide)
  have cnt2 := holds_field cnt1 s.cnt2 (k := 8) (by decide) (by decide)
  exact (holds_field cnt2 s.cnt3 (k := 16) (by decide) (by decide)).1

/-- Register 0x0D (10_state R26). -/
theorem mbcurWord_toNat (s : State) : (mbcurWord s).toNat =
    s.mbIdx.toNat + 2 ^ 16 * s.blk.code.toNat + 2 ^ 24 * s.quota.toNat + 2 ^ 32 * s.codeIdx.toNat := by
  have mbIdx := holds_setWidth s.mbIdx (by decide)
  have blk := holds_field mbIdx s.blk.code (k := 16) (by decide) (by decide)
  have quota := holds_field blk s.quota (k := 24) (by decide) (by decide)
  exact (holds_field quota s.codeIdx (k := 32) (by decide) (by decide)).1

/-- Register 0x0E (10_state R26). -/
theorem cfgWord_toNat (s : State) : (cfgWord s).toNat = s.qscale.toNat + 2 ^ 8 * s.sel.toNat +
    2 ^ 9 * s.mode.code.toNat + 2 ^ 16 * s.mbCount.toNat + 2 ^ 32 * s.len.toNat := by
  have qscale := holds_setWidth s.qscale (by decide)
  have sel := holds_field qscale s.sel (k := 8) (by decide) (by decide)
  have mode := holds_field sel s.mode.code (k := 9) (by decide) (by decide)
  have mbCount := holds_field mode s.mbCount (k := 16) (by decide) (by decide)
  exact (holds_field mbCount s.len (k := 32) (by decide) (by decide)).1

/-- Register 0x01 of a started decode frame (10_state R23, R26). -/
theorem posWord_decode {s : State} (hp : s.phase ≠ .idle) (hm : s.mode = .decode) (hr : s.rem.toNat ≤ 32) :
    (posWord s).toNat = s.posNat % 2 ^ 35 := by
  have hw : posWord s = s.posBits.setWidth 64 := by
    unfold posWord
    split
    · exact absurd ‹_› hp
    · rfl
    · cases hm.symm.trans ‹_›
  rw [hw, (holds_setWidth _ (by decide)).1, posBits_eq hr, BitVec.toNat_ofNat]

/-- Register 0x01 of a started encode frame (10_state R23, R26). -/
theorem posWord_encode {s : State} (hp : s.phase ≠ .idle) (hm : s.mode = .encode) :
    (posWord s).toNat = s.wpos % 2 ^ 35 := by
  have hw : posWord s = s.wposBits.setWidth 64 := by
    unfold posWord
    split
    · exact absurd ‹_› hp
    · cases hm.symm.trans ‹_›
    · rfl
  rw [hw, (holds_setWidth _ (by decide)).1, State.wposBits, BitVec.toNat_ofNat]

/-- Registers 0x13 to 0x52 (10_state R26). -/
theorem registerView_ebuf (s : State) {i : Nat} (h : i < 64) :
    (registerView s (0x13 + i)).toNat = (s.ebuf[i]'h).toNat := by
  have hv : registerView s (0x13 + i) = (ebufAt s i).setWidth 64 := by rw [Nat.add_comm]; rfl
  have he : ebufAt s i = s.ebuf[i]'h := by simp [ebufAt, h]
  rw [hv, he, (holds_setWidth _ (by decide)).1]

/-- Settles O10: each view is one register, or a word of fields at rising bit places. -/
theorem registerViews : Obligations.RegisterViews := by
  refine ⟨by decide, fun s => ?_⟩
  have reg {w : Nat} (b : BitVec w) (hw : w ≤ 64) : (b.setWidth 64).toNat = b.toNat := (holds_setWidth b hw).1
  have hp : (registerView s 0x03).toNat = s.p % 2 ^ 32 := by
    show (BitVec.ofNat 64 (s.p % 2 ^ 32)).toNat = _
    rw [BitVec.toNat_ofNat]; omega
  exact ⟨statusWord_toNat s, posWord_decode, posWord_encode,
    ⟨reg _ (by decide), hp, reg _ (by decide), reg _ (by decide), reg _ (by decide), reg _ (by decide)⟩,
    ⟨reg _ (by decide), reg _ (by decide), reg _ (by decide), reg _ (by decide)⟩,
    countersWord_toNat s, mbcurWord_toNat s, cfgWord_toNat s,
    ⟨rfl, reg _ (by decide), reg _ (by decide), reg _ (by decide)⟩, fun i h => registerView_ebuf s h⟩

end Sys2Proof.Machine
end

section
/-! The two byte memories in use: OUT between START_ENCODEs only grows, since nothing but a push's writes touches it and
each of these appends (20_memory R71, R72); BUF and LEN belong to START_DECODE and RESET alone (20_memory R60, R75). -/

namespace Sys2Proof.Machine

/-! ### The output -/

/-- Only OUT and OUT_LEN count for OUT being kept. -/
theorem OutKept_congr {s s' t t' : State} (h : OutKept s t) (hso : s'.out = s.out) (hsl : s'.outLen = s.outLen)
    (hto : t'.out = t.out) (htl : t'.outLen = t.outLen) : OutKept s' t' := by
  unfold OutKept at *; rwa [hso, hsl, hto, htl]

theorem OutKept_of_eq {s t : State} (ho : t.out = s.out) (hl : t.outLen = s.outLen) : OutKept s t :=
  OutKept_congr (OutKept_refl s) rfl rfl ho hl

/-- A push only appends to OUT, also where it raises (20_memory R71, 46_encoder R251 to R256). -/
theorem pushed_outKept {s t : State} (hmax : s.build.outMaxBytes < 2 ^ 32) (ht : Pushed s t) : OutKept s t := by
  have hcol : (columnStart s).build.outMaxBytes < 2 ^ 32 := by rwa [columnStart_build]
  cases ht with
  | answered | protocol | ac | acLost | noInstruction => exact OutKept_of_eq rfl rfl
  | dc u n v d _ _ hu =>
    exact OutKept_congr (hu.kept hcol) (columnStart_out s).symm (columnStart_outLen s).symm (dcPushed_out d u)
      (dcPushed_outLen d u)
  | dcLost t total n v _ _ ht =>
    exact OutKept_congr (ht.kept hcol) (columnStart_out s).symm (columnStart_outLen s).symm rfl rfl
  | dcPadLost t total n v _ _ _ ht => exact ht.kept hmax
  | eob u n v _ _ _ hu => exact hu.kept hmax
  | eobDone u n v _ _ _ hu => exact hu.kept hmax
  | eobLost t total n v _ _ ht => exact ht.kept hmax
  | eobPadLost t total n v _ _ _ ht => exact ht.kept hmax

/-- Every instruction but START_ENCODE and RESET keeps OUT: the pushes append, the others leave it. -/
theorem exec_outKept {i : Instr} {s t : State} (hI : s.Inv) (hmax : s.build.outMaxBytes < 2 ^ 32)
    (h : exec i s = .next t) (hr : i ≠ .reset) (he : ∀ sel q m, i ≠ .startEncode sel q m) : OutKept s t := by
  have decoder (hi : i = .pull ∨ (∃ sel q m l b, i = .startDecode sel q m l b) ∨ i.elementClass ≠ none) :
      OutKept s t := by
    obtain ⟨-, -, hl, ho, -, -⟩ := (otherModeKept i s t h).1 hi
    exact OutKept_of_eq ho hl
  cases i
  case reset => exact absurd rfl hr
  case startEncode sel q m => exact absurd rfl (he sel q m)
  case pushCode code =>
    obtain ⟨u, hu, hp⟩ := execPushCode_pushed hI code
    cases hu.symm.trans h
    exact pushed_outKept hmax hp
  case pushEob =>
    obtain ⟨u, hu, hp⟩ := execPushEob_pushed hI
    cases hu.symm.trans h
    exact pushed_outKept hmax hp
  case readReg =>
    simp only [exec, execReadReg] at h
    split at h <;> cases h <;> exact OutKept_of_eq rfl rfl
  case reservedCmd => cases h; exact OutKept_of_eq rfl rfl
  case pull => exact decoder (.inl rfl)
  case startDecode sel q m l b => exact decoder (.inr (.inl ⟨sel, q, m, l, b, rfl⟩))
  all_goals exact decoder (.inr (.inr (Option.some_ne_none _)))

/-- Settles O46: RESET leaves the bytes of OUT, and every other instruction only appends to it. -/
theorem outputKept : Obligations.OutputKept := by
  intro i s t hI hmax h he
  by_cases hr : i = .reset
  · subst hr
    cases h
    exact ⟨fun _ _ => rfl, fun hne => absurd rfl hne⟩
  · obtain ⟨hlen, hread⟩ := exec_outKept hI hmax h hr he
    exact ⟨fun a ha => hread a (.inl ha), fun _ => hlen⟩

/-! ### The input buffer -/

/-- Settles O43: START_ENCODE leaves the buffer, and a frame's commands change other registers only. -/
theorem bufferFixed : Obligations.BufferFixed := by
  intro i s t h hr hd
  by_cases he : ∃ sel q m, i = .startEncode sel q m
  · obtain ⟨sel, q, m, rfl⟩ := he
    cases h
    exact ⟨rfl, rfl⟩
  rcases exec_inFrame h hr hd fun sel q m e => he ⟨sel, q, m, e⟩ with ho | ho
  · rw [ho.only]; exact ⟨rfl, rfl⟩
  · rw [ho]; exact ⟨rfl, rfl⟩

end Sys2Proof.Machine
end

section
/-! Syntax elements and their BITS lines: a decoder tries its class's escapes in order and then its table
(30_encoding R107); the checks let at most one of these match a window (41_prefix_lookup R136), so a window decodes to
an element exactly when it begins with that element's bits (30_encoding R94, R118). -/

namespace Sys2Proof

/-! ### Windows that begin with BITS lines -/

/-- The low bits of F are the bits of the BITS lines (30_encoding R118). -/
def BeginsWith (F : Nat) (fs : List BitsField) : Prop := F % 2 ^ bitsLength fs = bitsValue fs

theorem beginsWith_nil (F : Nat) : BeginsWith F [] := Nat.mod_one F

/-- The first line is read off the window, the others off what stands above it. -/
theorem beginsWith_cons (F n v : Nat) (fs : List BitsField) :
    BeginsWith F ((n, v) :: fs) ↔ F % 2 ^ n = v % 2 ^ n ∧ BeginsWith (F / 2 ^ n) fs :=
  ⟨mod_split (Nat.mod_lt v (Nat.two_pow_pos n)), fun ⟨hv, hx⟩ => mod_join hv hx⟩

/-- A line that holds the number of a bit field asks for that field of the window (00_scope R9). -/
theorem beginsWith_field_cons (F : Word) (o : Nat) {w : Nat} (b : BitVec w) (fs : List BitsField) :
    BeginsWith (F.toNat / 2 ^ o) ((w, b.toNat) :: fs) ↔
      field F o w = b ∧ BeginsWith (F.toNat / 2 ^ (o + w)) fs := by
  rw [beginsWith_cons, Nat.mod_eq_of_lt b.isLt, ← field_toNat, ← BitVec.toNat_eq, Nat.div_div_eq_div_mul,
    ← Nat.pow_add]

/-- The line of an escape asks for the escape's match (41_prefix_lookup R134). -/
theorem beginsWith_escape_cons {esc : Escape} (h : esc.value < 2 ^ esc.len) (F : Word) (fs : List BitsField) :
    BeginsWith F.toNat (escapeBits esc :: fs) ↔ escMatch esc F = true ∧ BeginsWith (F.toNat / 2 ^ esc.len) fs := by
  rw [escapeBits, beginsWith_cons, Nat.mod_eq_of_lt h, escMatch_iff]

/-- An escape followed by one field. -/
theorem beginsWith_escape_field {esc : Escape} (h : esc.value < 2 ^ esc.len) (F : Word) {w : Nat} (b : BitVec w) :
    BeginsWith F.toNat [escapeBits esc, (w, b.toNat)] ↔ escMatch esc F = true ∧ field F esc.len w = b := by
  simp [beginsWith_escape_cons h, beginsWith_field_cons, beginsWith_nil]

/-- An escape followed by two fields, the first lowest. -/
theorem beginsWith_escape_fields {esc : Escape} (h : esc.value < 2 ^ esc.len) (F : Word) {w w' : Nat} (b : BitVec w)
    (b' : BitVec w') : BeginsWith F.toNat [escapeBits esc, (w, b.toNat), (w', b'.toNat)] ↔
      escMatch esc F = true ∧ field F esc.len w = b ∧ field F (esc.len + w) w' = b' := by
  simp [beginsWith_escape_cons h, beginsWith_field_cons, beginsWith_nil]

/-! ### Escapes in order, then the table -/

section
variable {α : Type} {t : Table α}

theorem beginsWith_entry (h : t.entryLenOk = true) {e : Entry α} (he : e ∈ t.entries) (F : Nat) :
    BeginsWith F (entryBits e) ↔ F % 2 ^ e.len = e.code := by
  obtain ⟨-, -, -, hlt⟩ := entryLen_of_mem h he
  simp [entryBits, beginsWith_cons, beginsWith_nil, Nat.mod_eq_of_lt hlt]

/-- The lookup finds exactly the entry whose bits the window begins with (41_prefix_lookup R135). -/
theorem lookupEntry_iff (h : t.entryLenOk = true) (hn : t.noCollision = true) (F : Word) (e : Entry α) :
    t.lookupEntry F = some e ↔ e ∈ t.entries ∧ F.toNat % 2 ^ e.len = e.code :=
  ⟨lookupEntry_some h, fun ⟨he, hF⟩ => lookupEntry_of_match h hn he hF⟩

theorem escDisjoint_tail {a : Escape} {escs : List Escape} (h : t.escDisjoint (a :: escs) = true) :
    t.escDisjoint escs = true := by
  simp only [Table.escDisjoint, allPairs, List.all_cons, Bool.and_eq_true] at h ⊢
  exact ⟨h.1.2, h.2.2⟩

theorem escDisjoint_pair {a b : Escape} {escs : List Escape} (h : t.escDisjoint (a :: escs) = true) (hb : b ∈ escs) :
    t.escDisjoint [a, b] = true := by
  simp only [Table.escDisjoint, allPairs, Bool.and_eq_true, List.all_eq_true] at h ⊢
  obtain ⟨⟨hab, -⟩, hent⟩ := h
  refine ⟨by simpa using hab b hb, fun x hx => ?_⟩
  obtain rfl | rfl : x = a ∨ x = b := by simpa using hx
  · exact hent x (List.mem_cons_self ..)
  · exact hent x (List.mem_cons_of_mem _ hb)

/-- The order of 30_encoding R107: the escapes, each with the element it stands for, and then the table. -/
def firstMatch (F : Word) (t : Table α) (mk : Entry α → Instr) : List (Escape × Instr) → Option Instr
  | [] => (t.lookupEntry F).map mk
  | a :: rest => if escMatch a.1 F then some a.2 else firstMatch F t mk rest

/-- With disjoint escapes and no collision the order does not count: whatever matches is found. -/
theorem firstMatch_iff (hl : t.entryLenOk = true) (hn : t.noCollision = true) (F : Word) (mk : Entry α → Instr)
    (i : Instr) : ∀ escs : List (Escape × Instr), t.escDisjoint (escs.map Prod.fst) = true →
      (firstMatch F t mk escs = some i ↔ (∃ a ∈ escs, escMatch a.1 F = true ∧ a.2 = i) ∨
        ∃ e ∈ t.entries, F.toNat % 2 ^ e.len = e.code ∧ mk e = i)
  | [], _ => by simp [firstMatch, lookupEntry_iff hl hn, and_assoc]
  | a :: rest, hd => by
    have ih := firstMatch_iff hl hn F mk i rest (escDisjoint_tail hd)
    cases ha : escMatch a.1 F with
    | false => simp [firstMatch, ha, ih]
    | true =>
      have hrest : ∀ b ∈ rest, escMatch b.1 F = false := fun b hb =>
        esc_esc_disjoint (escDisjoint_pair hd (List.mem_map_of_mem hb)) ha
      have hent : ∀ e ∈ t.entries, F.toNat % 2 ^ e.len ≠ e.code := fun e he hF => by
        simp [esc_entry_disjoint hd (List.mem_cons_self ..) he hF] at ha
      constructor
      · intro h
        exact .inl ⟨a, List.mem_cons_self .., ha, by simpa [firstMatch, ha] using h⟩
      · rintro (⟨b, hb, hm, rfl⟩ | ⟨e, he, hF, -⟩)
        · rcases List.mem_cons.mp hb with rfl | hb
          · simp [firstMatch, ha]
          · rw [hrest b hb] at hm; cases hm
        · exact absurd hF (hent e he)

end

/-! ### The decoders by class -/

/-- The escape1 element of a role whose fields stand at bit o of the window (44_ac_tables R186, R189, R192). -/
def acEsc1At (k : Role) (F : Word) (o : Nat) : Instr :=
  match k with
  | .one => .ac1Esc1 (field F o 7)
  | .two => .ac2Esc1 (field F o 3) (field F (o + 3) 5)
  | .three => .ac3Esc1 (field F o 4) (field F (o + 4) 4)

/-- The escapes of an AC table, each with the element it stands for in the window (44_ac_tables R185). -/
def acEscapes (r : Registry) (k : Role) (F : Word) : List (Escape × Instr) :=
  [((r.ac k).esc1, acEsc1At k F (r.ac k).esc1.len), ((r.ac k).esc2, acEsc2Of k (field F (r.ac k).esc2.len 16))]

theorem decodeElement_dc (r : Registry) (F : Word) : decodeElement r .dc F =
    firstMatch F r.dc .dcVlc [(r.escDc, .dcEsc (field F r.escDc.len 10))] := rfl

theorem decodeElement_ins (r : Registry) (F : Word) : decodeElement r .ins F = firstMatch F r.ins .insVlc [] := rfl

theorem decodeElement_ac (r : Registry) (k : Role) (F : Word) : decodeElement r (.ac k) F =
    firstMatch F (r.ac k).table (acVlcOf k) (acEscapes r k F) := by cases k <;> rfl

section
variable {r : Registry} (h : r.wf = true) (F : Word) (i : Instr)
include h

theorem decodeElement_dc_iff : decodeElement r .dc F = some i ↔
    (escMatch r.escDc F = true ∧ .dcEsc (field F r.escDc.len 10) = i) ∨
      ∃ e ∈ r.dc.entries, F.toNat % 2 ^ e.len = e.code ∧ .dcVlc e = i := by
  have c := Registry.checks h
  rw [decodeElement_dc, firstMatch_iff c.dc_len c.dc_col F .dcVlc i [(_, _)] c.dc_dis]
  simp

theorem decodeElement_ins_iff : decodeElement r .ins F = some i ↔
    ∃ e ∈ r.ins.entries, F.toNat % 2 ^ e.len = e.code ∧ .insVlc e = i := by
  have c := Registry.checks h
  rw [decodeElement_ins, firstMatch_iff c.ins_len c.ins_col F .insVlc i [] rfl]
  simp

theorem decodeElement_ac_iff (k : Role) : decodeElement r (.ac k) F = some i ↔
    (escMatch (r.ac k).esc1 F = true ∧ acEsc1At k F (r.ac k).esc1.len = i) ∨
      (escMatch (r.ac k).esc2 F = true ∧ acEsc2Of k (field F (r.ac k).esc2.len 16) = i) ∨
        ∃ e ∈ (r.ac k).table.entries, F.toNat % 2 ^ e.len = e.code ∧ acVlcOf k e = i := by
  have c := Registry.checks h
  rw [decodeElement_ac, firstMatch_iff (c.ac_len k) (c.ac_col k) F (acVlcOf k) i (acEscapes r k F) (c.ac_dis k)]
  simp [acEscapes, or_assoc]

end

/-! ### Decoding is beginning with the bits -/

section
variable {r : Registry} (h : r.wf = true) (F : Word) (k : Role)
include h

theorem decodeElement_dcEsc_iff (v : BitVec 10) : decodeElement r .dc F = some (.dcEsc v) ↔
    BeginsWith F.toNat [escapeBits r.escDc, (10, v.toNat)] := by
  obtain ⟨-, hv, -⟩ := (Registry.checks h).dc_esc
  simp [decodeElement_dc_iff h, beginsWith_escape_field hv]

theorem decodeElement_dcVlc_iff {e : Entry Int} (he : e ∈ r.dc.entries) :
    decodeElement r .dc F = some (.dcVlc e) ↔ BeginsWith F.toNat (entryBits e) := by
  simp [decodeElement_dc_iff h, beginsWith_entry (Registry.checks h).dc_len he, he]

theorem decodeElement_insVlc_iff {e : Entry Counts} (he : e ∈ r.ins.entries) :
    decodeElement r .ins F = some (.insVlc e) ↔ BeginsWith F.toNat (entryBits e) := by
  simp [decodeElement_ins_iff h, beginsWith_entry (Registry.checks h).ins_len he, he]

theorem decodeElement_ac1Esc1_iff (v : BitVec 7) : decodeElement r (.ac .one) F = some (.ac1Esc1 v) ↔
    BeginsWith F.toNat [escapeBits r.ac1.esc1, (7, v.toNat)] := by
  obtain ⟨-, hv, -⟩ := (Registry.checks h).ac_esc1 .one
  simp only [Registry.ac] at hv
  simp [decodeElement_ac_iff h, beginsWith_escape_field hv, acEsc1At, acEsc2Of, acVlcOf, Registry.ac]

theorem decodeElement_ac2Esc1_iff (v : BitVec 3) (w : BitVec 5) :
    decodeElement r (.ac .two) F = some (.ac2Esc1 v w) ↔
      BeginsWith F.toNat [escapeBits r.ac2.esc1, (3, v.toNat), (5, w.toNat)] := by
  obtain ⟨-, hv, -⟩ := (Registry.checks h).ac_esc1 .two
  simp only [Registry.ac] at hv
  simp [decodeElement_ac_iff h, beginsWith_escape_fields hv, acEsc1At, acEsc2Of, acVlcOf, Registry.ac]

theorem decodeElement_ac3Esc1_iff (v w : BitVec 4) :
    decodeElement r (.ac .three) F = some (.ac3Esc1 v w) ↔
      BeginsWith F.toNat [escapeBits r.ac3.esc1, (4, v.toNat), (4, w.toNat)] := by
  obtain ⟨-, hv, -⟩ := (Registry.checks h).ac_esc1 .three
  simp only [Registry.ac] at hv
  simp [decodeElement_ac_iff h, beginsWith_escape_fields hv, acEsc1At, acEsc2Of, acVlcOf, Registry.ac]

theorem decodeElement_acEsc2_iff (v : BitVec 16) : decodeElement r (.ac k) F = some (acEsc2Of k v) ↔
    BeginsWith F.toNat [escapeBits (r.ac k).esc2, (16, v.toNat)] := by
  obtain ⟨-, hv, -⟩ := (Registry.checks h).ac_esc2 k
  rw [decodeElement_ac_iff h, beginsWith_escape_field hv]
  cases k <;> simp [acEsc1At, acEsc2Of, acVlcOf]

theorem decodeElement_acVlc_iff {e : Entry Nat} (he : e ∈ (r.ac k).table.entries) :
    decodeElement r (.ac k) F = some (acVlcOf k e) ↔ BeginsWith F.toNat (entryBits e) := by
  rw [decodeElement_ac_iff h, beginsWith_entry ((Registry.checks h).ac_len k) he]
  cases k <;> simp [acEsc1At, acEsc2Of, acVlcOf, he]

/-- An element of the registry is what a window decodes to exactly when the window begins with its bits. -/
theorem decodeElement_iff_beginsWith {cls : ElementClass} {i : Instr} (hi : i.wfIn r = true)
    (hc : i.elementClass = some cls) : decodeElement r cls F = some i ↔ BeginsWith F.toNat (encodeElement r i) := by
  cases i <;> cases hc <;> simp only [Instr.wfIn, Bool.and_eq_true, decide_eq_true_eq] at hi
  case dcEsc v => exact decodeElement_dcEsc_iff h F v
  case dcVlc e => exact decodeElement_dcVlc_iff h F hi.2
  case insVlc e => exact decodeElement_insVlc_iff h F hi.2
  case ac1Esc1 v => exact decodeElement_ac1Esc1_iff h F v
  case ac2Esc1 v w => exact decodeElement_ac2Esc1_iff h F v w
  case ac3Esc1 v w => exact decodeElement_ac3Esc1_iff h F v w
  case ac1Esc2 v => exact decodeElement_acEsc2_iff h F .one v
  case ac2Esc2 v => exact decodeElement_acEsc2_iff h F .two v
  case ac3Esc2 v => exact decodeElement_acEsc2_iff h F .three v
  case ac1Vlc e => exact decodeElement_acVlc_iff h F .one hi.2
  case ac2Vlc e => exact decodeElement_acVlc_iff h F .two hi.2
  case ac3Vlc e => exact decodeElement_acVlc_iff h F .three hi.2

theorem acVlcOf_wfIn {e : Entry Nat} (he : e ∈ (r.ac k).table.entries) : (acVlcOf k e).wfIn r = true := by
  have hs := shapeOk_of_mem ((Registry.checks h).ac_len k) he
  have hp := (Registry.checks h).ac_pay k e he
  cases k <;> simp_all [acVlcOf, Registry.ac, Instr.wfIn, Instr.wf]

/-- What a window decodes to is an element of the registry (30_encoding R94). -/
theorem decodeElement_wfIn {cls : ElementClass} {i : Instr} (hd : decodeElement r cls F = some i) :
    i.wfIn r = true := by
  have c := Registry.checks h
  cases cls with
  | dc =>
    obtain ⟨-, rfl⟩ | ⟨e, he, -, rfl⟩ := (decodeElement_dc_iff h F i).mp hd
    · rfl
    · simp [Instr.wfIn, Instr.wf, shapeOk_of_mem c.dc_len he, c.dc_pay e he, he]
  | ins =>
    obtain ⟨e, he, -, rfl⟩ := (decodeElement_ins_iff h F i).mp hd
    simp [Instr.wfIn, Instr.wf, shapeOk_of_mem c.ins_len he, c.ins_pay e he, he]
  | ac k =>
    obtain ⟨-, rfl⟩ | ⟨-, rfl⟩ | ⟨e, he, -, rfl⟩ := (decodeElement_ac_iff h F i k).mp hd
    · cases k <;> rfl
    · cases k <;> rfl
    · exact acVlcOf_wfIn h k he

end

/-- Settles O5: the element's bits select it among the class's escapes and entries. -/
theorem elementDecodeEncode : Obligations.ElementDecodeEncode := by
  intro r i cls F h hi hc hF
  obtain ⟨hlen, -, -⟩ := Machine.element_fits h hi
  exact ⟨(decodeElement_iff_beginsWith h F hi hc).mpr hF, hlen.symm⟩

/-- Settles O6: what the decoder finds is an element of the registry, and its bits are the ones read. -/
theorem decodedElementIsWritten : Obligations.DecodedElementIsWritten := by
  intro r i cls F h hd
  have hi := decodeElement_wfIn h F hd
  have hc := Machine.decodeElement_class hd
  obtain ⟨hlen, -, -⟩ := Machine.element_fits h hi
  exact ⟨hi, hc, hlen ▸ (decodeElement_iff_beginsWith h F hi hc).mp hd⟩

end Sys2Proof
end

section
/-! Host commands and their port entries: the operand fields lie side by side from bit 0 (assumption log 2), so each
command is read back from its entry, and each entry that decodes gives a well-formed command of the entry's code
(40_host_interface R121, R125). -/

namespace Sys2Proof

/-! ### The operand fields -/

section
variable (sel : BitVec 1) (qscale : BitVec 6) (mbCount : BitVec 16) (len : BitVec 24)

theorem startOperands_sel : operandField (startOperands sel qscale mbCount len) 0 1 = sel :=
  BitVec.extractLsb'_append_eq_right

theorem startOperands_qscale : operandField (startOperands sel qscale mbCount len) 1 6 = qscale :=
  (BitVec.extractLsb'_append_eq_of_le (by decide)).trans BitVec.extractLsb'_append_eq_right

theorem startOperands_mbCount : operandField (startOperands sel qscale mbCount len) 7 16 = mbCount :=
  (BitVec.extractLsb'_append_eq_of_le (by decide)).trans
    ((BitVec.extractLsb'_append_eq_of_le (by decide)).trans BitVec.extractLsb'_append_eq_right)

theorem startOperands_len : operandField (startOperands sel qscale mbCount len) 23 24 = len :=
  (BitVec.extractLsb'_append_eq_of_le (by decide)).trans
    ((BitVec.extractLsb'_append_eq_of_le (by decide)).trans BitVec.extractLsb'_append_eq_left)

end

/-- A command with one operand has it in the lowest operand bits. -/
theorem operandField_setWidth {w : Nat} (b : BitVec w) (h : w ≤ 47) : operandField (b.setWidth 47) 0 w = b :=
  (BitVec.extractLsb'_setWidth_of_le (by omega)).trans BitVec.extractLsb'_eq_self

/-! ### What a port entry decodes to -/

/-- START_DECODE is a command when its buffer is len bytes (45_decoder R216; assumption log 4). -/
theorem decodeStartDecode_of_length {ops : BitVec 47} {buf : List Byte}
    (h : buf.length = (operandField ops 23 24).toNat) : decodeStartDecode ops buf =
      .ok (.startDecode (operandField ops 0 1) (operandField ops 1 6) (operandField ops 7 16) (operandField ops 23 24)
        buf) := if_pos h

theorem decodeStartDecode_ok {ops : BitVec 47} {buf : List Byte} {i : Instr} (h : decodeStartDecode ops buf = .ok i) :
    ∃ sel qscale mbCount len, i = .startDecode sel qscale mbCount len buf ∧ buf.length = len.toNat := by
  unfold decodeStartDecode at h
  split at h <;> cases h
  exact ⟨_, _, _, _, rfl, ‹_›⟩

/-- The codes 0x0 and 0x8 to 0xF are no command's, whatever the operands (40_host_interface R125). -/
theorem decodeCommand_reserved {c : HostCommand} (h : c.code.toNat = 0 ∨ 8 ≤ c.code.toNat) :
    decodeCommand c = .ok (.reservedCmd c.code) := by
  unfold decodeCommand
  split
  case h_8 => rfl
  all_goals omega

/-! ### The round trip -/

theorem decodeCommand_encodeCommand {i : Instr} {c : HostCommand} (hi : i.wf = true) (hc : encodeCommand i = some c) :
    decodeCommand c = .ok i := by
  cases i <;> cases hc
  case reset => rfl
  case pull => rfl
  case pushEob => rfl
  case startDecode sel q m l b =>
    have hlen : b.length = l.toNat := of_decide_eq_true hi
    refine (decodeStartDecode_of_length (by rw [startOperands_len]; exact hlen)).trans ?_
    rw [startOperands_sel, startOperands_qscale, startOperands_mbCount, startOperands_len]
  case startEncode sel q m =>
    show Except.ok (Instr.startEncode _ _ _) = _
    rw [startOperands_sel, startOperands_qscale, startOperands_mbCount]
  case pushCode code =>
    show Except.ok (Instr.pushCode _) = _
    rw [operandField_setWidth code (by decide)]
  case readReg n =>
    show Except.ok (Instr.readReg _) = _
    rw [operandField_setWidth n (by decide)]
  case reservedCmd code => exact decodeCommand_reserved (by simpa [Instr.wf] using hi)

/-- What decodes is a well-formed host command, and its own port entry has the code that was read. -/
theorem decodeCommand_ok {c : HostCommand} {i : Instr} (h : decodeCommand c = .ok i) :
    i.wf = true ∧ ∃ c', encodeCommand i = some c' ∧ c'.code = c.code := by
  have code_eq {k : BitVec 4} (hk : c.code.toNat = k.toNat) : k = c.code := BitVec.eq_of_toNat_eq hk.symm
  unfold decodeCommand at h
  split at h
  case h_2 hcode =>
    obtain ⟨sel, q, m, l, rfl, hlen⟩ := decodeStartDecode_ok h
    exact ⟨decide_eq_true hlen, _, rfl, code_eq hcode⟩
  case h_8 h1 h2 h3 h4 h5 h6 h7 =>
    cases h
    have hres : c.code.toNat = 0 ∨ 8 ≤ c.code.toNat := by grind
    exact ⟨by simpa [Instr.wf] using hres, _, rfl, rfl⟩
  all_goals
    cases h
    exact ⟨rfl, _, rfl, code_eq ‹_›⟩

/-- Settles O4: each command's entry holds its operands where the decoder reads them. -/
theorem commandDecodeEncode : Obligations.CommandDecodeEncode :=
  ⟨fun _ _ => decodeCommand_encodeCommand, fun _ _ => decodeCommand_ok⟩

/-! ### Windows that begin with an escape -/

section
variable {r : Registry} {F : Word}

theorem decodeElement_dc_of_escape (h : escMatch r.escDc F = true) :
    decodeElement r .dc F = some (.dcEsc (field F r.escDc.len 10)) := by
  rw [decodeElement_dc]; exact if_pos h

theorem decodeElement_dc_of_noEscape (h : escMatch r.escDc F = false) :
    decodeElement r .dc F = (r.dc.lookupEntry F).map .dcVlc := by
  rw [decodeElement_dc]; exact if_neg (by simp [h])

theorem decodeElement_ac_of_escape1 {k : Role} (h : escMatch (r.ac k).esc1 F = true) :
    decodeElement r (.ac k) F = some (acEsc1At k F (r.ac k).esc1.len) := by
  rw [decodeElement_ac]; exact if_pos h

theorem decodeElement_ac_of_escape2 {k : Role} (h1 : escMatch (r.ac k).esc1 F = false)
    (h2 : escMatch (r.ac k).esc2 F = true) :
    decodeElement r (.ac k) F = some (acEsc2Of k (field F (r.ac k).esc2.len 16)) := by
  rw [decodeElement_ac]; exact (if_neg (by simp [h1])).trans (if_pos h2)

end

/-- Settles O3: the commands by their codes and operand fields, the windows by the escape they begin with or by the
table's first entry. -/
theorem writtenWordsDecode : Obligations.WrittenWordsDecode := by
  refine ⟨rfl, by decide, by decide, rfl, by decide, by decide, rfl, by decide, decodeCommand_reserved (.inl rfl),
    decodeCommand_reserved (.inr (by decide)), fun r h => ?_, fun r es h hdc => ?_, fun r h => ?_, fun r h1 h2 => ?_,
    fun r h => ?_, fun r h => ?_⟩
  · rw [decodeElement_dc_of_escape (by rw [h]; decide), h]; decide
  · rw [decodeElement_dc_of_noEscape (by rw [h]; decide), hdc]; rfl
  · rw [decodeElement_ac_of_escape1 (by rw [Registry.ac, h]; decide), Registry.ac, h]; decide
  · rw [decodeElement_ac_of_escape2 (by rw [Registry.ac, h1]; decide) (by rw [Registry.ac, h2]; decide),
      Registry.ac, h2]
    decide
  · rw [decodeElement_ac_of_escape1 (by rw [Registry.ac, h]; decide), Registry.ac, h]; decide
  · rw [decodeElement_ac_of_escape1 (by rw [Registry.ac, h]; decide), Registry.ac, h]; decide

end Sys2Proof
end

section
/-! The port: a step runs the oldest command (40_host_interface R120); RESET, READ_REG and the reserved codes, and a
frame's commands in the other mode, by what they answer (R123 to R127); and every command, in a state with the
invariant, ends in a response with the later commands still pending. -/

namespace Sys2Proof.Machine

/-! ### A step -/

theorem step_of_empty {s : State} (h : s.port = []) : step s = .next s := by rw [step, h]

theorem step_of_command {s : State} {c : HostCommand} {rest : List HostCommand} {i : Instr} (h : s.port = c :: rest)
    (hc : decodeCommand c = .ok i) : step s = exec i { s with port := rest } := by simp only [step, h, hc]

theorem step_of_undecodable {s : State} {c : HostCommand} {rest : List HostCommand} {e : DecodeError}
    (h : s.port = c :: rest) (hc : decodeCommand c = .error e) : step s = .refused .undecodableCommand := by
  simp only [step, h, hc]

/-- Settles O1, one equation of the step per case of the port. -/
theorem stepRunsOfferedCommand : Obligations.StepRunsOfferedCommand := fun _ =>
  ⟨step_of_empty, fun _ _ _ => step_of_command, fun _ _ _ => step_of_undecodable⟩

/-! ### RESET, READ_REG and the reserved codes -/

theorem exec_reset (s : State) :
    exec .reset s = .next (State.resetWith s.build s.out s.port (some (plainResponse .ok))) := rfl

/-- Settles O7: RESET leaves the reset values of every register over what it keeps. -/
theorem resetCommand : Obligations.ResetCommand := exec_reset

theorem exec_readReg_of_lt {n : BitVec 8} (h : n.toNat < registerCount) (s : State) :
    exec (.readReg n) s = .next (emit (okResponse (registerView s n.toNat)) s) := if_pos h

theorem exec_readReg_of_ge {n : BitVec 8} (h : registerCount ≤ n.toNat) (s : State) :
    exec (.readReg n) s = .next (emit (plainResponse .illegalCommand) s) := if_neg (Nat.not_lt.mpr h)

/-- Settles O9: 0x53 is the number of the readable registers. -/
theorem readRegAnswers : Obligations.ReadRegAnswers := fun _ s =>
  ⟨fun h => exec_readReg_of_lt (Nat.lt_succ_of_le h) s, fun h => exec_readReg_of_ge h s⟩

theorem exec_reservedCmd (code : BitVec 4) (s : State) :
    exec (.reservedCmd code) s = .next (emit (plainResponse .illegalCommand) s) := rfl

/-- Settles O11: an entry with a reserved code decodes to the reserved command. -/
theorem reservedCommands : Obligations.ReservedCommands :=
  ⟨fun _ _ _ h hc => (step_of_command h (decodeCommand_reserved hc)).trans (exec_reservedCmd _ _), exec_reservedCmd⟩

/-! ### A command of the other mode, or before any frame -/

theorem execPull_notStarted {s : State} (h : s.mode = .encode ∨ s.phase = .idle) :
    execPull s = .next (emit (plainResponse .notStarted) s) := by
  unfold execPull
  rcases h with hm | hp
  · exact if_pos hm
  · rw [hp]; exact ite_self _

theorem execPushCode_notStarted {s : State} (h : s.mode = .decode ∨ s.phase = .idle) (code : Code) :
    execPushCode code s = .next (emit (plainResponse .notStarted) s) := by
  unfold execPushCode
  rcases h with hm | hp
  · exact if_pos hm
  · rw [hp]; exact ite_self _

theorem execPushEob_notStarted {s : State} (h : s.mode = .decode ∨ s.phase = .idle) :
    execPushEob s = .next (emit (plainResponse .notStarted) s) := by
  unfold execPushEob
  rcases h with hm | hp
  · exact if_pos hm
  · rw [hp]; exact ite_self _

/-- Settles O12: each of the three commands asks for its mode and for a started frame first. -/
theorem modeMismatch : Obligations.ModeMismatch := by
  refine ⟨fun s => execPull_notStarted, fun s h => ⟨execPushCode_notStarted h, execPushEob_notStarted h⟩, ?_⟩
  intro s t h
  cases (exec_reset s).symm.trans h
  exact ⟨rfl, rfl⟩

/-! ### Every command answers -/

/-- s holds a response. -/
def Answered (s : State) : Prop := ∃ r, s.resp = some r

theorem emit_answered (r : Response) (s : State) : Answered (emit r s) := ⟨r, rfl⟩

theorem raiseError_answered (c : ErrCause) (tb : ErrTable) (ps : BitVec 35) (s : State) :
    Answered (raiseError c tb ps s) := ⟨_, rfl⟩

theorem afterAc_answered (s : State) (k : Role) (code : Code) (n : Nat) : Answered (s.afterAc k code n) := by
  cases k <;> exact ⟨_, rfl⟩

/-- Each end of a PULL is a response: a code, EOB, the error entry, or the answer of a PULL that takes nothing. -/
theorem pulled_answered {s t : State} (h : Pulled s t) : Answered t := by
  cases h with
  | answered r => exact emit_answered r s
  | columnLost | dcLost | insLost | acLost => exact raiseError_answered _ _ _ _
  | dc | insEnd | blockEnd => exact ⟨_, rfl⟩
  | ac u k code n => exact afterAc_answered u k code n

theorem overflowed_answered {wpos : BitVec 35} {s t : State} {total n v : Nat} (h : Overflowed wpos s t total n v) :
    Answered t := by
  rw [h.only]; exact raiseError_answered _ _ _ _

/-- Each end of a push is a response: OK, the error entry, or the answer of a push that takes nothing. -/
theorem pushed_answered {s t : State} (h : Pushed s t) : Answered t := by
  cases h with
  | answered | dc | ac | eob | eobDone => exact emit_answered _ _
  | protocol | acLost | noInstruction => exact raiseError_answered _ _ _ _
  | dcPadLost t total n v _ _ _ ht => exact overflowed_answered ht
  | dcLost t total n v _ _ ht => exact overflowed_answered ht
  | eobLost t total n v _ _ ht => exact overflowed_answered ht
  | eobPadLost t total n v _ _ _ ht => exact overflowed_answered ht

theorem decodeOnly_port {s t : State} (h : DecodeOnly s t) : t.port = s.port := by rw [h.only]

theorem encodeOnly_port {s t : State} (h : EncodeOnly s t) : t.port = s.port := by rw [h]

/-- START_DECODE answers OK, or END_OF_STREAM for a buffer below the least frame (45_decoder R216). -/
theorem execStartDecode_answers (sel : BitVec 1) (q : BitVec 6) (m : BitVec 16) (l : BitVec 24) (b : List Byte)
    (s : State) : ∃ t, execStartDecode sel q m l b s = .next t ∧ Answered t ∧ t.port = s.port := by
  simp only [execStartDecode]
  split
  · exact ⟨_, rfl, raiseError_answered _ _ _ _, rfl⟩
  · exact ⟨_, rfl, emit_answered _ _, rfl⟩

/-- A host command ends in a response, and takes no other command off the port: no fault and no refusal. -/
theorem exec_answers {s : State} {i : Instr} (hi : i.elementClass = none) (h : s.Inv) :
    ∃ t, exec i s = .next t ∧ Answered t ∧ t.port = s.port := by
  cases i <;> cases hi
  case reset => exact ⟨_, exec_reset s, ⟨_, rfl⟩, rfl⟩
  case startDecode sel q m l b => exact execStartDecode_answers sel q m l b s
  case pull =>
    obtain ⟨t, ht, hp⟩ := execPull_pulled h
    exact ⟨t, ht, pulled_answered hp, decodeOnly_port (decodeOnly_execPull ht)⟩
  case startEncode => exact ⟨_, rfl, emit_answered _ _, rfl⟩
  case pushCode code =>
    obtain ⟨t, ht, hp⟩ := execPushCode_pushed h code
    exact ⟨t, ht, pushed_answered hp, encodeOnly_port (encodeOnly_execPushCode ht)⟩
  case pushEob =>
    obtain ⟨t, ht, hp⟩ := execPushEob_pushed h
    exact ⟨t, ht, pushed_answered hp, encodeOnly_port (encodeOnly_execPushEob ht)⟩
  case readReg n =>
    rcases Nat.lt_or_ge n.toNat registerCount with hn | hn
    · exact ⟨_, exec_readReg_of_lt hn s, emit_answered _ _, rfl⟩
    · exact ⟨_, exec_readReg_of_ge hn s, emit_answered _ _, rfl⟩
  case reservedCmd code => exact ⟨_, exec_reservedCmd code s, emit_answered _ _, rfl⟩

/-- Settles O52: the port offers host commands only, and each of these answers. -/
theorem everyCommandAnswers : Obligations.EveryCommandAnswers := by
  intro s c rest i h hp hc
  obtain ⟨t, ht, ⟨r, hr⟩, hport⟩ := exec_answers (decodeCommand_class hc) (withPort_inv h rest)
  exact ⟨t, r, (step_of_command hp hc).trans ht, hr, hport⟩

end Sys2Proof.Machine
end

section
/-! The build of a lookup array: an entry's writes fill exactly the slots it covers and stop at one that is taken, so
the build ends with the array of the model's lookup exactly when no two entries share a slot (41_prefix_lookup R131,
R132, R135). -/

namespace Sys2Proof

/-! ### Tables without collisions -/

theorem allPairs_iff_pairwise {α : Type} (ok : α → α → Bool) :
    ∀ l : List α, allPairs ok l = true ↔ l.Pairwise (fun a b => ok a b = true)
  | [] => by simp [allPairs]
  | x :: xs => by simp [allPairs, allPairs_iff_pairwise ok xs]

/-- Two patterns that agree on their common bits meet in a slot: the longer pattern's own code. -/
theorem patternsMeet_iff {w l c l' c' : Nat} (hl : l ≤ w) (hc : c < 2 ^ l) (hl' : l' ≤ w) (hc' : c' < 2 ^ l') :
    patternsMeet l c l' c' = true ↔ ∃ x < 2 ^ w, x % 2 ^ l = c ∧ x % 2 ^ l' = c' := by
  refine ⟨fun h => ?_, fun ⟨x, _, hx, hx'⟩ => patternsMeet_of_match hx hx'⟩
  wlog hle : l ≤ l' generalizing l c l' c'
  · obtain ⟨x, hxw, hx, hx'⟩ := this hl' hc' hl hc (patternsMeet_comm l c l' c' ▸ h) (Nat.le_of_not_le hle)
    exact ⟨x, hxw, hx', hx⟩
  have hagree : c % 2 ^ l = c' % 2 ^ l := by simpa [patternsMeet, Nat.min_eq_left hle] using h
  refine ⟨c', Nat.lt_of_lt_of_le hc' (Nat.pow_le_pow_right Nat.two_pos hl'), ?_, Nat.mod_eq_of_lt hc'⟩
  rw [← hagree, Nat.mod_eq_of_lt hc]

section
variable {α : Type}

/-- No two entries cover a common slot of a lookup array of width w (41_prefix_lookup R136(b)). -/
def SlotsApart (w : Nat) (es : List (Entry α)) : Prop :=
  es.Pairwise fun e e' => ∀ x < 2 ^ w, e.covers x = true → e'.covers x = false

theorem noCollision_iff {t : Table α} (h : t.entryLenOk = true) :
    t.noCollision = true ↔ SlotsApart t.width t.entries := by
  rw [Table.noCollision, allPairs_iff_pairwise]
  refine List.Pairwise.iff_of_mem fun {e e'} he he' => ?_
  obtain ⟨-, hl, -, hc⟩ := entryLen_of_mem h he
  obtain ⟨-, hl', -, hc'⟩ := entryLen_of_mem h he'
  rw [Bool.not_eq_true', ← Bool.not_eq_true, patternsMeet_iff hl hc hl' hc']
  simp [Entry.covers]

/-! ### The writes of one entry -/

/-- The lookup array whose slot x is f x. -/
def lutOf (w : Nat) (f : Nat → Slot α) : List (Slot α) := (List.range (2 ^ w)).map f

@[simp] theorem lutOf_length (w : Nat) (f : Nat → Slot α) : (lutOf w f).length = 2 ^ w := by simp [lutOf]

theorem lutOf_getElem? {w x : Nat} (hx : x < 2 ^ w) (f : Nat → Slot α) : (lutOf w f)[x]? = some (f x) := by
  simp [lutOf, hx]

theorem lutOf_congr {w : Nat} {f g : Nat → Slot α} (h : ∀ x < 2 ^ w, f x = g x) : lutOf w f = lutOf w g :=
  List.map_congr_left fun x hx => h x (List.mem_range.mp hx)

theorem lutOf_set (w i : Nat) (f : Nat → Slot α) (v : Slot α) :
    (lutOf w f).set i v = lutOf w (Function.update f i v) := by
  apply List.ext_getElem (by simp)
  intro x hx _
  simp [lutOf, List.getElem_set, Function.update_apply, eq_comm]

/-- The slots numbered by the turns of the build's inner loop are the covered ones, each with its high bits as the turn
(41_prefix_lookup R131). -/
theorem eq_slot_iff {e : Entry α} (hc : e.code < 2 ^ e.len) (h x : Nat) :
    x = (h <<< e.len) ||| e.code ↔ e.covers x = true ∧ x / 2 ^ e.len = h := by
  rw [← Nat.shiftLeft_add_eq_or_of_lt hc, Nat.shiftLeft_eq, covers_iff]
  constructor
  · rintro rfl
    rw [Nat.mul_comm, Nat.mul_add_mod, Nat.mod_eq_of_lt hc, Nat.mul_add_div (Nat.two_pow_pos _),
      Nat.div_eq_of_lt hc]
    exact ⟨rfl, rfl⟩
  · rintro ⟨hmod, rfl⟩
    rw [← hmod, Nat.div_add_mod']

/-- The slots after the first n turns of an entry's writes. -/
def Entry.writeTurns (e : Entry α) (n : Nat) (f : Nat → Slot α) (x : Nat) : Slot α :=
  if e.covers x = true ∧ x / 2 ^ e.len < n then some (e.len, e.payload) else f x

/-- Turn n writes the slot of turn n, which the turns before it have left. -/
theorem writeTurns_succ {e : Entry α} (hc : e.code < 2 ^ e.len) (n : Nat) (f : Nat → Slot α) :
    e.writeTurns (n + 1) f =
      Function.update (e.writeTurns n f) ((n <<< e.len) ||| e.code) (some (e.len, e.payload)) := by
  funext x
  simp only [Function.update_apply, eq_slot_iff hc, Entry.writeTurns, Nat.lt_succ_iff_lt_or_eq, and_or_left]
  grind

theorem writeTurns_own_slot {e : Entry α} (hc : e.code < 2 ^ e.len) (n : Nat) (f : Nat → Slot α) :
    e.writeTurns n f ((n <<< e.len) ||| e.code) = f ((n <<< e.len) ||| e.code) := by
  obtain ⟨-, hdiv⟩ := (eq_slot_iff hc n _).mp rfl
  simp [Entry.writeTurns, hdiv]

/-- One write goes through exactly when its slot is empty (41_prefix_lookup R131, R132). -/
theorem writeSlot_eq_some_iff {w : Nat} {e : Entry α} {h : Nat} (hs : (h <<< e.len) ||| e.code < 2 ^ w)
    (f : Nat → Slot α) (lut : List (Slot α)) : writeSlot e (lutOf w f) h = some lut ↔
      f ((h <<< e.len) ||| e.code) = none ∧
        lutOf w (Function.update f ((h <<< e.len) ||| e.code) (some (e.len, e.payload))) = lut := by
  unfold writeSlot
  rw [lutOf_getElem? hs, lutOf_set]
  cases f ((h <<< e.len) ||| e.code) <;> simp

theorem slot_lt {w : Nat} {e : Entry α} (hl : e.len ≤ w) (hc : e.code < 2 ^ e.len) {h : Nat}
    (hh : h < 2 ^ (w - e.len)) : (h <<< e.len) ||| e.code < 2 ^ w :=
  Nat.or_lt_two_pow (by
      rw [Nat.shiftLeft_eq, ← Nat.sub_add_cancel hl, Nat.pow_add]
      simpa using Nat.mul_lt_mul_of_pos_right hh (Nat.two_pow_pos e.len))
    (Nat.lt_of_lt_of_le hc (Nat.pow_le_pow_right Nat.two_pos hl))

/-- The first n turns go through exactly when each finds its slot empty. -/
theorem writeSlots_eq_some_iff {w : Nat} {e : Entry α} (hl : e.len ≤ w) (hc : e.code < 2 ^ e.len) (f : Nat → Slot α) :
    ∀ n ≤ 2 ^ (w - e.len), ∀ lut, (List.range n).foldlM (writeSlot e) (lutOf w f) = some lut ↔
      (∀ h < n, f ((h <<< e.len) ||| e.code) = none) ∧ lutOf w (e.writeTurns n f) = lut
  | 0, _, lut => by
    have hnone : e.writeTurns 0 f = f := funext fun x => if_neg fun hx => Nat.not_lt_zero _ hx.2
    simp [hnone]
  | n + 1, hn, lut => by
    have ih := writeSlots_eq_some_iff hl hc f n (by omega)
    simp only [List.range_succ, List.foldlM_append, Option.bind_eq_bind, Option.bind_eq_some_iff, ih,
      List.foldlM_cons, List.foldlM_nil]
    simp [writeSlot_eq_some_iff (slot_lt hl hc hn), writeTurns_own_slot hc, ← writeTurns_succ hc,
      Nat.forall_lt_succ_right, -Order.lt_add_one_iff, and_assoc]

/-- An entry's writes go through exactly when every slot it covers is empty, and fill these slots (41_prefix_lookup R131,
R132). -/
theorem writeEntry_eq_some_iff {w : Nat} {e : Entry α} (hl : e.len ≤ w) (hc : e.code < 2 ^ e.len) (f : Nat → Slot α)
    (lut : List (Slot α)) : writeEntry w (lutOf w f) e = some lut ↔
      (∀ x < 2 ^ w, e.covers x = true → f x = none) ∧
        lutOf w (fun x => if e.covers x then some (e.len, e.payload) else f x) = lut := by
  have hturn : ∀ x < 2 ^ w, x / 2 ^ e.len < 2 ^ (w - e.len) := fun x hx => by
    rw [Nat.div_lt_iff_lt_mul (Nat.two_pow_pos _), ← Nat.pow_add, Nat.sub_add_cancel hl]
    exact hx
  have hfill : lutOf w (e.writeTurns (2 ^ (w - e.len)) f) =
      lutOf w (fun x => if e.covers x then some (e.len, e.payload) else f x) :=
    lutOf_congr fun x hx => by simp [Entry.writeTurns, hturn x hx]
  rw [writeEntry, writeSlots_eq_some_iff hl hc f _ (Nat.le_refl _), hfill]
  refine and_congr_left fun _ => ⟨fun h x hx hcov => ?_, fun h n hn => ?_⟩
  · rw [(eq_slot_iff hc _ x).mpr ⟨hcov, rfl⟩]
    exact h _ (hturn x hx)
  · exact h _ (slot_lt hl hc hn) ((eq_slot_iff hc n _).mp rfl).1

/-! ### The whole build -/

/-- What slot x holds by the lookup over the entries: the covering entry's length and payload (41_prefix_lookup R135). -/
def slotOf (es : List (Entry α)) (x : Nat) : Slot α :=
  (es.find? (fun e => e.covers x)).map (fun e => (e.len, e.payload))

theorem lookup_eq_slotOf (t : Table α) (F : Word) : t.lookup F = slotOf t.entries (F.toNat % 2 ^ t.width) := rfl

theorem slotOf_eq_none_iff (es : List (Entry α)) (x : Nat) : slotOf es x = none ↔ ∀ e ∈ es, e.covers x = false := by
  simp [slotOf]

/-- A further entry only fills the slots that the ones before it leave empty. -/
theorem slotOf_concat (es : List (Entry α)) (e : Entry α) (x : Nat) :
    slotOf (es ++ [e]) x = (slotOf es x).or (if e.covers x then some (e.len, e.payload) else none) := by
  unfold slotOf
  rw [List.find?_append]
  cases es.find? (fun e => e.covers x) <;> cases hx : e.covers x <;> simp [hx]

theorem slotsApart_concat (w : Nat) (es : List (Entry α)) (e : Entry α) : SlotsApart w (es ++ [e]) ↔
    SlotsApart w es ∧ ∀ x < 2 ^ w, e.covers x = true → slotOf es x = none := by
  simp only [SlotsApart, List.pairwise_append, List.pairwise_singleton, true_and, List.mem_singleton, forall_eq,
    slotOf_eq_none_iff]
  refine and_congr_right fun _ => ⟨fun h x hx hcov a ha => ?_, fun h a ha x hx hcov => ?_⟩
  · by_contra hca
    simp [h a ha x hx (by simpa using hca)] at hcov
  · by_contra hce
    simp [h x hx (by simpa using hce) a ha] at hcov

/-- The build ends exactly on entries that share no slot, with the array of the lookup. -/
theorem writeEntries_eq_some_iff {w : Nat} (es : List (Entry α))
    (hes : ∀ e ∈ es, e.len ≤ w ∧ e.code < 2 ^ e.len) (lut : List (Slot α)) :
    es.foldlM (writeEntry w) (List.replicate (2 ^ w) none) = some lut ↔
      SlotsApart w es ∧ lutOf w (slotOf es) = lut := by
  induction es using List.reverseRecOn generalizing lut with
  | nil =>
    have hempty : lutOf w (slotOf ([] : List (Entry α))) = List.replicate (2 ^ w) none := by
      rw [lutOf, show slotOf ([] : List (Entry α)) = fun _ => none from rfl, List.map_const', List.length_range]
    simp [SlotsApart, hempty]
  | append_singleton es e ih =>
    obtain ⟨hl, hc⟩ := hes e (by simp)
    have ih := ih fun e' he' => hes e' (by simp [he'])
    have hfill : (∀ x < 2 ^ w, e.covers x = true → slotOf es x = none) →
        lutOf w (slotOf (es ++ [e])) = lutOf w (fun x => if e.covers x then some (e.len, e.payload) else slotOf es x) :=
      fun hfree => lutOf_congr fun x hx => by
        rw [slotOf_concat]
        cases hcov : e.covers x with
        | true => simp [hfree x hx hcov]
        | false => simp
    rw [slotsApart_concat, List.foldlM_append]
    simp only [Option.bind_eq_bind, Option.bind_eq_some_iff, ih, and_assoc, exists_and_left, exists_eq_left',
      List.foldlM_cons, List.foldlM_nil, Option.pure_def, Option.some.injEq, writeEntry_eq_some_iff hl hc]
    refine and_congr_right fun _ => and_congr_right fun hfree => ?_
    rw [hfill hfree]

/-- The build of a table whose entry lengths are in range (41_prefix_lookup R131, R132). -/
theorem buildLut_eq_some_iff {t : Table α} (h : t.entryLenOk = true) (lut : List (Slot α)) :
    t.buildLut = some lut ↔ t.noCollision = true ∧ lutOf t.width (slotOf t.entries) = lut := by
  rw [Table.buildLut, noCollision_iff h]
  refine writeEntries_eq_some_iff t.entries (fun e he => ?_) lut
  obtain ⟨-, hl, -, hc⟩ := entryLen_of_mem h he
  exact ⟨hl, hc⟩

end

/-- Settles O54: the array the build ends with, if it ends, is the array of the lookup. -/
theorem lutBuild : Obligations.LutBuild := by
  intro α t hl
  refine ⟨fun hn => ?_, fun hn => ⟨lutOf t.width (slotOf t.entries), ?_, lutOf_length _ _, fun F => ?_⟩⟩
  · rw [Option.eq_none_iff_forall_ne_some]
    intro lut hlut
    obtain ⟨hn', -⟩ := (buildLut_eq_some_iff hl lut).mp hlut
    simp [hn] at hn'
  · exact (buildLut_eq_some_iff hl _).mpr ⟨hn, rfl⟩
  · rw [lutOf_getElem? (Nat.mod_lt _ (Nat.two_pow_pos _)), lookup_eq_slotOf]

end Sys2Proof
end

section
/-! One candidate per window: the checks let at most one escape or entry match it (41_prefix_lookup R136, R140), and
at most one instruction entry have a count sum (41_prefix_lookup R136(f), R139). -/

namespace Sys2Proof

/-- Where an escape of the table matches, the lookup is empty (41_prefix_lookup R140). -/
theorem lookup_eq_none_of_escMatch {α : Type} {t : Table α} {escs : List Escape} (hl : t.entryLenOk = true)
    (hd : t.escDisjoint escs = true) {a : Escape} (ha : a ∈ escs) {F : Word} (hm : escMatch a F = true) :
    t.lookup F = none := by
  rw [Table.lookup, Option.map_eq_none_iff, Option.eq_none_iff_forall_ne_some]
  intro e he
  obtain ⟨hmem, hF⟩ := lookupEntry_some hl he
  simp [esc_entry_disjoint hd ha hmem hF] at hm

/-- Settles O55: the escapes and entries of one table are disjoint patterns. -/
theorem atMostOneMatch : Obligations.AtMostOneMatch := by
  intro r F h
  have c := Registry.checks h
  refine ⟨fun hm => lookup_eq_none_of_escMatch c.dc_len c.dc_dis (by simp) hm, fun k => ⟨fun hm => ?_, fun hm => ?_⟩,
    fun x => ⟨fun e he e' he' => entry_unique c.dc_col he he', fun e he e' he' => entry_unique c.ins_col he he',
      fun k e he e' he' => entry_unique (c.ac_col k) he he'⟩⟩
  · exact ⟨esc_esc_disjoint (c.ac_dis k) hm, lookup_eq_none_of_escMatch (c.ac_len k) (c.ac_dis k) (by simp) hm⟩
  · exact lookup_eq_none_of_escMatch (c.ac_len k) (c.ac_dis k) (by simp) hm

/-! ### The reverse map of the instruction table -/

/-- Two instruction entries with one count sum are the same entry (41_prefix_lookup R136(f)). -/
theorem insEntry_unique {r : Registry} (h : r.insSumUnique = true) {e e' : Entry Counts} (he : e ∈ r.ins.entries)
    (he' : e' ∈ r.ins.entries) (hs : e.payload.sum = e'.payload.sum) : e = e' := by
  by_contra hne
  have hsum := allPairs_of_mem (fun a b : Entry Counts => by simp only [ne_comm]) h e he e' he' hne
  exact of_decide_eq_true hsum hs

theorem sumMap_eq_some_iff {r : Registry} (h : r.insSumUnique = true) (n : Nat) (e : Entry Counts) :
    r.sumMap n = some e ↔ e ∈ r.ins.entries ∧ e.payload.sum = n := by
  constructor
  · intro hs
    have hsum := List.find?_some hs
    exact ⟨List.mem_of_find?_eq_some hs, of_decide_eq_true hsum⟩
  · rintro ⟨he, rfl⟩
    cases hf : r.sumMap e.payload.sum with
    | none => simpa using List.find?_eq_none.mp hf e he
    | some e' =>
      have hsum := List.find?_some hf
      rw [insEntry_unique h (List.mem_of_find?_eq_some hf) he (of_decide_eq_true hsum)]

theorem sumMap_eq_none_iff (r : Registry) (n : Nat) :
    r.sumMap n = none ↔ ∀ e ∈ r.ins.entries, e.payload.sum ≠ n := by
  simp [Registry.sumMap]

/-- Settles O57: the first entry with the sum is the only one. -/
theorem sumMapWellDefined : Obligations.SumMapWellDefined := fun r n h =>
  ⟨sumMap_eq_some_iff (Registry.checks h).ins_sum n, sumMap_eq_none_iff r n⟩

end Sys2Proof
end

section
/-! Complete tables: where every window is matched by an escape or has a filled slot, every class decodes, and a PULL
finds its elements (41_prefix_lookup R137). -/

namespace Sys2Proof

/-! ### Decoding over a complete table -/

/-- The order of a class ends in a miss exactly where no escape matches and the slot is empty (30_encoding R107). -/
theorem firstMatch_eq_none_iff {α : Type} (F : Word) (t : Table α) (mk : Entry α → Instr) :
    ∀ escs : List (Escape × Instr),
      firstMatch F t mk escs = none ↔ (∀ a ∈ escs.map Prod.fst, escMatch a F = false) ∧ t.lookup F = none
  | [] => by simp [firstMatch, Table.lookup]
  | a :: rest => by
    have ih := firstMatch_eq_none_iff F t mk rest
    cases ha : escMatch a.1 F with
    | true => simp [firstMatch, ha]
    | false => simpa [firstMatch, ha] using ih

/-- A class with a complete table misses no window, whatever elements its escapes stand for. -/
theorem firstMatch_ne_none {α : Type} {t : Table α} {escs : List (Escape × Instr)}
    (h : t.Complete (escs.map Prod.fst)) (F : Word) (mk : Entry α → Instr) : firstMatch F t mk escs ≠ none := by
  rw [Ne, firstMatch_eq_none_iff]
  rintro ⟨hescs, hslot⟩
  rcases h F with ⟨a, ha, hm⟩ | hs
  · simp [hescs a ha] at hm
  · simp [hslot] at hs

section
variable {r : Registry} (F : Word)

theorem decodeElement_dc_ne_none (h : r.dc.Complete [r.escDc]) : decodeElement r .dc F ≠ none := by
  rw [decodeElement_dc]
  exact firstMatch_ne_none h F _

theorem decodeElement_ins_ne_none (h : r.ins.Complete []) : decodeElement r .ins F ≠ none := by
  rw [decodeElement_ins]
  exact firstMatch_ne_none h F _

theorem decodeElement_ac_ne_none (k : Role) (h : (r.ac k).table.Complete [(r.ac k).esc1, (r.ac k).esc2]) :
    decodeElement r (.ac k) F ≠ none := by
  rw [decodeElement_ac]
  exact firstMatch_ne_none h F _

/-- A DC element has a DC value, so DC decode misses only where no element is found (42_dc_table R153). -/
theorem dcDecode_ne_none (prev : Word) (h : decodeElement r .dc F ≠ none) : dcDecode r F prev ≠ none := by
  obtain ⟨i, hi⟩ := Option.ne_none_iff_exists'.mp h
  have hc := Machine.decodeElement_class hi
  rw [dcDecode, hi]
  cases i <;> cases hc <;> simp [dcElementValue]

/-- An AC element has a code, so AC decode misses only where no element is found (44_ac_tables R195). -/
theorem acDecode_ne_none (k : Role) (h : decodeElement r (.ac k) F ≠ none) : acDecode r k F ≠ none := by
  obtain ⟨i, hi⟩ := Option.ne_none_iff_exists'.mp h
  have hc := Machine.decodeElement_class hi
  rw [acDecode, hi]
  cases i <;> cases hc <;> simp [acElementCode]

theorem lookupIns_ne_none (h : decodeElement r .ins F ≠ none) : r.ins.lookupEntry F ≠ none := by
  rw [decodeElement_ins] at h
  simpa [firstMatch] using h

end

end Sys2Proof
end

section
/-! PULL over complete tables: READ_CORRUPTION is the raise of a window without an element, so none of a PULL's parts
records it (41_prefix_lookup R137, 45_decoder R217 to R228). -/

namespace Sys2Proof.Machine

/-- Every window decodes in every class (41_prefix_lookup R137). -/
def DecodesAll (r : Registry) : Prop := ∀ cls F, decodeElement r cls F ≠ none

theorem decodesAll_of_complete {r : Registry} (hdc : r.dc.Complete [r.escDc]) (hins : r.ins.Complete [])
    (hac : ∀ k, (r.ac k).table.Complete [(r.ac k).esc1, (r.ac k).esc2]) : DecodesAll r
  | .dc, F => decodeElement_dc_ne_none F hdc
  | .ins, F => decodeElement_ins_ne_none F hins
  | .ac k, F => decodeElement_ac_ne_none F k (hac k)

/-- t has READ_CORRUPTION recorded only if s has. -/
def NotCorrupted (s t : State) : Prop := t.errCause = .readCorruption → s.errCause = .readCorruption

theorem NotCorrupted_of_eq {s t : State} (h : t.errCause = s.errCause) : NotCorrupted s t := fun ht => h ▸ ht

theorem NotCorrupted_trans {s t u : State} (h : NotCorrupted s t) (h' : NotCorrupted t u) : NotCorrupted s u :=
  fun hu => h (h' hu)

theorem notCorrupted_runAc {k : Role} {code : Code} {n : Nat} {s t : State} (h : runAc k code n s = .next t) :
    NotCorrupted s t := by
  unfold runAc at h
  split at h <;> cases h
  exact NotCorrupted_of_eq (by simp [acStep])

/-- An element that runs records no error (42_dc_table R153, 43_instruction_table R171, 44_ac_tables R195 raise only
where none is found). -/
theorem notCorrupted_element {s t : State} {i : Instr} {cls : ElementClass} (hi : i.elementClass = some cls)
    (h : exec i s = .next t) : NotCorrupted s t := by
  cases i <;> cases hi
  case dcEsc v =>
    simp only [exec, execDcEsc] at h
    split at h <;> cases h
    exact NotCorrupted_of_eq (by simp [dcStep])
  case dcVlc e =>
    simp only [exec, execDcVlc] at h
    split at h <;> cases h
    exact NotCorrupted_of_eq (by simp [dcStep])
  case insVlc e =>
    simp only [exec, execInsVlc] at h
    split at h <;> cases h
    exact NotCorrupted_of_eq (by simp [insStep])
  all_goals exact notCorrupted_runAc h

theorem notCorrupted_runElement {s t : State} (hr : DecodesAll s.registry) {cls : ElementClass}
    (h : runElement cls s = .next t) : NotCorrupted s t := by
  unfold runElement at h
  split at h
  · exact absurd ‹_› (hr cls s.front)
  · have hi := decodeElement_class ‹_›
    rw [execElement_eq_exec hi] at h
    exact notCorrupted_element hi h

theorem notCorrupted_blockEndStep (s : State) : NotCorrupted s (blockEndStep s) := id

theorem decodeOnly_registry {s t : State} (h : DecodeOnly s t) : t.registry = s.registry := by rw [h.only]; rfl

/-- The column boundary ends in END_OF_STREAM, or goes on to decode with the registry and the recorded error it had
(45_decoder R218, R220). -/
theorem columnResetIfDue_cases (s : State) :
    (∃ t, columnResetIfDue s = .raised t ∧ t.errCause = .endOfStream) ∨
      ∃ t, columnResetIfDue s = .done t ∧ t.registry = s.registry ∧ t.errCause = s.errCause := by
  unfold columnResetIfDue
  split
  · rcases columnReset_cases s with ⟨-, e⟩ | ⟨-, e⟩
    · exact .inl ⟨_, e, rfl⟩
    · exact .inr ⟨_, e, rfl, rfl⟩
  · exact .inr ⟨_, rfl, rfl, rfl⟩

theorem notCorrupted_pullDc {s t : State} (hr : DecodesAll s.registry) (h : pullDc s = .next t) :
    NotCorrupted s t := by
  unfold pullDc at h
  rcases columnResetIfDue_cases s with ⟨u, e, hu⟩ | ⟨u, e, hreg, hu⟩ <;> rw [e] at h
  · cases h
    intro ht
    cases hu.symm.trans ht
  · exact NotCorrupted_trans (NotCorrupted_of_eq hu) (notCorrupted_runElement (hreg ▸ hr) h)

theorem notCorrupted_afterIns {s t : State} (hr : DecodesAll s.registry) (h : afterIns s = .next t) :
    NotCorrupted s t := by
  unfold afterIns at h
  split at h
  case h_1 => cases h; exact notCorrupted_blockEndStep s
  case h_2 | h_3 | h_4 => exact notCorrupted_runElement hr h
  all_goals cases h; exact id

theorem notCorrupted_pullIns {s t : State} (hr : DecodesAll s.registry) (h : pullIns s = .next t) :
    NotCorrupted s t := by
  unfold pullIns at h
  split at h
  · have hreg := decodeOnly_registry (decodeOnly_runElement ‹_›)
    exact NotCorrupted_trans (notCorrupted_runElement hr ‹_›) (notCorrupted_afterIns (hreg ▸ hr) h)
  · cases h
  · cases h

/-- Where every window decodes, a PULL raises END_OF_STREAM at most (45_decoder R217 to R228). -/
theorem notCorrupted_execPull {s t : State} (hr : DecodesAll s.registry) (h : execPull s = .next t) :
    NotCorrupted s t := by
  unfold execPull at h
  split at h
  · cases h; exact id
  · cases hp : s.phase <;> simp only [hp] at h
    case atDc => exact notCorrupted_pullDc hr h
    case atIns => exact notCorrupted_pullIns hr h
    case ac1 | ac2 | ac3 => exact notCorrupted_runElement hr h
    case blockEnd => cases h; exact notCorrupted_blockEndStep s
    case collect => cases h
    all_goals cases h; exact id

/-- Settles O56: a complete table's class finds an element in every window, so no PULL raises READ_CORRUPTION. -/
theorem completeNeverMisses : Obligations.CompleteNeverMisses :=
  ⟨fun _ h F prev => dcDecode_ne_none F prev (decodeElement_dc_ne_none F h),
    fun _ h F => lookupIns_ne_none F (decodeElement_ins_ne_none F h),
    fun _ k h F => acDecode_ne_none F k (decodeElement_ac_ne_none F k h),
    fun _ _ _ hdc hins hac h => notCorrupted_execPull (decodesAll_of_complete hdc hins hac) h⟩

end Sys2Proof.Machine
end

section
/-! DC elements: what dcDecode makes of a window that begins with one (42_dc_table R150 to R152), the round trip of what
dcEncode chooses (R155, R157), and the elements run as instructions in AT_DC (45_decoder R218; assumption log 7). -/

namespace Sys2Proof

/-! ### DC decode and its values -/

/-- DC decode of a window whose element is known (42_dc_table R150). -/
theorem dcDecode_of_element {r : Registry} {F : Word} {i : Instr} (h : decodeElement r .dc F = some i) (prev : Word) :
    dcDecode r F prev = (dcElementValue prev i).map fun dc => (dc, elementLength r i) := by
  rw [dcDecode, h]

/-- The escape's field is sign-extended (42_dc_table R151, 30_encoding R105(a)). -/
theorem dcOfField_toInt (v : BitVec 10) : (dcOfField v).toInt = v.toInt :=
  BitVec.toInt_signExtend_of_le (by decide)

/-- wrap32(prev + delta), whatever integer the delta is (42_dc_table R152). -/
theorem dcVlcValue_toInt (e : Entry Int) (prev : Word) :
    (dcVlcValue e prev).toInt = (prev.toInt + e.payload).bmod (2 ^ 32) := by
  rw [dcVlcValue, deltaOfPayload, BitVec.toInt_add, BitVec.toInt_ofInt, Int.add_bmod_bmod]

/-! ### The round trip -/

/-- The range −512..511 is that of a signed 10-bit field, so the escape keeps such a DC whole. -/
theorem dcOfField_setWidth {dc : Word} (hlo : -512 ≤ dc.toInt) (hhi : dc.toInt ≤ 511) :
    dcOfField (dc.setWidth 10) = dc := by
  apply BitVec.eq_of_toInt_eq
  rw [dcOfField_toInt, BitVec.toInt_setWidth, ← Int.bmod_bmod_of_dvd (m := 2 ^ 32) (by decide),
    ← BitVec.toInt_eq_toNat_bmod]
  exact Int.bmod_eq_of_le (by omega) (by omega)

/-- An entry whose delta is the difference to the predictor leads back to the DC. -/
theorem dcVlcValue_of_payload {e : Entry Int} {dc prev : Word} (h : e.payload = dc.toInt - prev.toInt) :
    dcVlcValue e prev = dc := by
  apply BitVec.eq_of_toInt_eq
  rw [dcVlcValue_toInt, h, add_sub_cancel, BitVec.toInt_bmod_cancel]

/-- The two ways of dcEncode: an entry with the delta to the predictor, or the escape (42_dc_table R155). -/
theorem chooseDc_cases (r : Registry) (dc prev : Word) :
    (∃ e, chooseDc r dc prev = .dcVlc e ∧ e.payload = dc.toInt - prev.toInt) ∨
      chooseDc r dc prev = .dcEsc (dc.setWidth 10) := by
  unfold chooseDc
  split
  next e he =>
    have hp := List.find?_some he
    exact .inl ⟨e, rfl, of_decide_eq_true hp⟩
  next => exact .inr rfl

theorem chooseDc_elementClass (r : Registry) (dc prev : Word) : (chooseDc r dc prev).elementClass = some .dc := by
  rcases chooseDc_cases r dc prev with ⟨e, hc, -⟩ | hc <;> rw [hc] <;> rfl

/-- What dcEncode chooses has the DC it was chosen for. -/
theorem dcElementValue_chooseDc (r : Registry) {dc : Word} (prev : Word) (hlo : -512 ≤ dc.toInt)
    (hhi : dc.toInt ≤ 511) : dcElementValue prev (chooseDc r dc prev) = some dc := by
  rcases chooseDc_cases r dc prev with ⟨e, hc, hp⟩ | hc <;> rw [hc]
  · exact congrArg some (dcVlcValue_of_payload hp)
  · exact congrArg some (dcOfField_setWidth hlo hhi)

/-- Settles O60: the window decodes to the element dcEncode chose, whose DC from the same predictor is the one written. -/
theorem dcRoundTrip : Obligations.DcRoundTrip := by
  intro r dc prev F h hlo hhi hF
  obtain ⟨hd, hlen⟩ :=
    elementDecodeEncode r _ .dc F h (chooseDc_wfIn h dc prev) (chooseDc_elementClass r dc prev) hF
  rw [dcDecode_of_element hd, dcElementValue_chooseDc r prev hlo hhi, hlen]
  rfl

end Sys2Proof

namespace Sys2Proof.Machine

/-! ### The elements as instructions -/

section
variable {s : State} (hm : s.mode = .decode) (hp : s.phase = .atDc) (hq : s.quota ≠ 0)
include hm hp hq

theorem exec_dcEsc (v : BitVec 10) :
    exec (.dcEsc v) s = .next (s.afterDc (dcOfField v) (s.registry.escDc.len + 10)) := by
  rw [← dcStep_eq]
  exact if_pos (accepts_dc hm hp hq)

theorem exec_dcVlc (e : Entry Int) :
    exec (.dcVlc e) s = .next (s.afterDc (dcVlcValue e (s.pred (chainRead s.blk))) e.len) := by
  rw [← dcStep_eq]
  exact if_pos (accepts_dc hm hp hq)

end

/-- Settles O19: the escape comes before the table, and its field is the DC whatever the predictor. -/
theorem dcEscResult : Obligations.DcEscResult := by
  refine ⟨fun r F prev hm => ?_, dcOfField_toInt, fun v s hm hp hq => exec_dcEsc hm hp hq v⟩
  have hd := decodeElement_dc_of_escape hm
  exact ⟨hd, dcDecode_of_element hd prev⟩

/-- Settles O20: without an escape the slot's entry decides, and its delta is added to the predictor. -/
theorem dcVlcResult : Obligations.DcVlcResult := by
  refine ⟨fun r F prev e hm he => ?_, dcVlcValue_toInt, fun e s hm hp hq => exec_dcVlc hm hp hq e⟩
  have hd : decodeElement r .dc F = some (.dcVlc e) := by rw [decodeElement_dc_of_noEscape hm, he]; rfl
  exact ⟨by rw [Table.lookup, he]; rfl, hd, dcDecode_of_element hd prev⟩

end Sys2Proof.Machine
end

section
/-! The instruction element: what a window decodes to where the instruction table's lookup finds an entry
(43_instruction_table R170), and the element run as an instruction in AT_INS (45_decoder R222, R224; assumption
log 7). -/

namespace Sys2Proof.Machine

/-- The payload of the slot is that of the entry the lookup finds (41_prefix_lookup R135). -/
theorem lookup_of_lookupEntry {α : Type} {t : Table α} {F : Word} {e : Entry α} (he : t.lookupEntry F = some e) :
    t.lookup F = some (e.len, e.payload) := by
  rw [Table.lookup, he]; rfl

/-- The class INS has no escapes, so the table alone decides (30_encoding R107). -/
theorem decodeElement_ins_of_lookupEntry {r : Registry} {F : Word} {e : Entry Counts}
    (he : r.ins.lookupEntry F = some e) : decodeElement r .ins F = some (.insVlc e) := by
  rw [decodeElement_ins, firstMatch, he]; rfl

theorem exec_insVlc {s : State} (hm : s.mode = .decode) (hp : s.phase = .atIns) {e : Entry Counts}
    (hr : e.payload.inRange = true) : exec (.insVlc e) s = .next (s.afterIns e.payload e.len) := by
  rw [← insStep_after e.payload hr]
  exact if_pos (accepts_ins hm hp)

/-- Settles O21: the entry the lookup finds is the element, and counts in range fit the 8-bit counters they load. -/
theorem insVlcResult : Obligations.InsVlcResult :=
  ⟨fun _ _ _ he => ⟨lookup_of_lookupEntry he, decodeElement_ins_of_lookupEntry he⟩,
    fun _ _ hm hp hr => ⟨_, exec_insVlc hm hp hr, rfl, count_toNat hr⟩⟩

end Sys2Proof.Machine
end

section
/-! AC codes: the least two's-complement width and the escape1 check (44_ac_tables R197), and the escape precision
guard: what acEncode chooses for a code in a role decodes to that code (R196, R198). -/

namespace Sys2Proof

/-! ### The least two's-complement width -/

/-- The binary numeral of n has at most w bits exactly below 2^w. -/
theorem bitLength_le_iff (n w : Nat) : bitLength n ≤ w ↔ n < 2 ^ w := by
  unfold bitLength
  split
  next h => simp [h]
  next h => rw [Nat.add_one_le_iff, Nat.log2_lt h]

/-- The widths from minTC on are those whose two's-complement range holds the number. -/
theorem minTC_le_succ_iff (x : Int) (w : Nat) : minTC x ≤ w + 1 ↔ -(2 : Int) ^ w ≤ x ∧ x ≤ (2 : Int) ^ w - 1 := by
  have hcast : ((2 ^ w : Nat) : Int) = (2 : Int) ^ w := Nat.cast_pow 2 w
  unfold minTC
  split <;> rw [Nat.add_le_add_iff_right, bitLength_le_iff] <;> omega

theorem one_le_minTC (x : Int) : 1 ≤ minTC x := by
  unfold minTC
  split <;> exact Nat.le_add_left ..

theorem minTC_le_iff (x : Int) {w : Nat} (hw : 1 ≤ w) :
    minTC x ≤ w ↔ -(2 : Int) ^ (w - 1) ≤ x ∧ x ≤ (2 : Int) ^ (w - 1) - 1 := by
  rw [← minTC_le_succ_iff, Nat.sub_add_cancel hw]

/-! ### The escape1 check -/

theorem Role.one_le_levelWidth (k : Role) : 1 ≤ k.levelWidth := by cases k <;> decide

/-- fits1 asks for a run and a level that the role's escape1 fields can hold (44_ac_tables R197). -/
theorem fits1_iff (k : Role) (run : Nat) (level : Int) : fits1 k run level = true ↔
    run < 2 ^ k.runWidth ∧ -(2 : Int) ^ (k.levelWidth - 1) ≤ level ∧ level ≤ (2 : Int) ^ (k.levelWidth - 1) - 1 := by
  rw [fits1, Bool.and_eq_true, decide_eq_true_eq, decide_eq_true_eq, minTC_le_iff level k.one_le_levelWidth]

/-- Settles O58: minTC(x) ≤ w exactly where w bits hold x, and fits1 is this bound at the roles' field widths. -/
theorem precisionCheck : Obligations.PrecisionCheck := by
  refine ⟨fun x => ?_, fun run level => ?_⟩
  · obtain ⟨hlo, hhi⟩ := (minTC_le_iff x (one_le_minTC x)).mp le_rfl
    exact ⟨one_le_minTC x, hlo, hhi, fun w hw h1 h2 => (minTC_le_iff x hw).mpr ⟨h1, h2⟩⟩
  · simp only [fits1_iff, Role.runWidth, Role.levelWidth]
    omega

/-! ### Codes and their fields -/

/-- A code is its run above its level (30_encoding R90, R91). -/
theorem acCode_codeRun_codeLevel (c : Code) : acCode (codeRun c) (codeLevel c) = c := by
  rw [acCode, codeRun, codeLevel, BitVec.setWidth_eq_extractLsb' (by decide)]
  exact BitVec.extractLsb'_append_extractLsb'

/-- A run below 2^w is kept whole by its low w bits, zero-extended (30_encoding R105). -/
theorem extractLsb'_setWidth_of_run_lt {c : Code} {w : Nat} (h : (codeRun c).toNat < 2 ^ w) (hw : w ≤ 6) :
    (c.extractLsb' 10 w).setWidth 6 = codeRun c := by
  have hdvd : 2 ^ w ∣ 2 ^ 6 := Nat.pow_dvd_pow 2 hw
  have hrun := Nat.mod_eq_of_lt h
  rw [codeRun, BitVec.extractLsb'_toNat, Nat.mod_mod_of_dvd _ hdvd] at hrun
  apply BitVec.eq_of_toNat_eq
  rw [codeRun, BitVec.toNat_setWidth, BitVec.extractLsb'_toNat, BitVec.extractLsb'_toNat, hrun, Nat.mod_mod]

/-- A level in the range of w bits is kept whole by its low w bits, sign-extended (30_encoding R105). -/
theorem signExtend_setWidth_of_level_range {c : Code} {w : Nat} (hw : 1 ≤ w) (hw' : w ≤ 10)
    (hlo : -(2 : Int) ^ (w - 1) ≤ (codeLevel c).toInt) (hhi : (codeLevel c).toInt ≤ (2 : Int) ^ (w - 1) - 1) :
    (c.setWidth w).signExtend 10 = codeLevel c := by
  have hpow : 2 ^ w = 2 * 2 ^ (w - 1) := by rw [← Nat.pow_succ', Nat.succ_eq_add_one, Nat.sub_add_cancel hw]
  have hcast : ((2 ^ (w - 1) : Nat) : Int) = (2 : Int) ^ (w - 1) := Nat.cast_pow 2 (w - 1)
  have hlow : c.setWidth w = (codeLevel c).setWidth w := (BitVec.setWidth_setWidth_of_le c hw').symm
  apply BitVec.eq_of_toInt_eq
  rw [hlow, BitVec.toInt_signExtend_of_le hw', BitVec.toInt_setWidth,
    ← Int.bmod_bmod_of_dvd (Nat.pow_dvd_pow 2 hw'), ← BitVec.toInt_eq_toNat_bmod]
  exact Int.bmod_eq_of_le (by omega) (by omega)

/-! ### The round trip -/

/-- AC decode of a window whose element is known (44_ac_tables R185). -/
theorem acDecode_of_element {r : Registry} {k : Role} {F : Word} {i : Instr}
    (h : decodeElement r (.ac k) F = some i) :
    acDecode r k F = (acElementCode i).map fun c => (c, elementLength r i) := by
  rw [acDecode, h]

theorem acElementCode_acVlcOf (k : Role) (e : Entry Nat) :
    acElementCode (acVlcOf k e) = some (codeOfPayload e.payload) := by cases k <;> rfl

theorem acElementCode_acEsc2Of (k : Role) (c : Code) : acElementCode (acEsc2Of k c) = some c := by cases k <;> rfl

/-- A code that passes the check is read back from the fields of the role's escape1 (44_ac_tables R197). -/
theorem acElementCode_acEsc1Of {k : Role} {c : Code} (h : fits1 k (codeRun c).toNat (codeLevel c).toInt = true) :
    acElementCode (acEsc1Of k c) = some c := by
  obtain ⟨hrun, hlo, hhi⟩ := (fits1_iff ..).mp h
  have hcode := acCode_codeRun_codeLevel c
  rw [← extractLsb'_setWidth_of_run_lt hrun (by cases k <;> decide),
    ← signExtend_setWidth_of_level_range k.one_le_levelWidth (by cases k <;> decide) hlo hhi] at hcode
  refine Eq.trans ?_ (congrArg some hcode)
  cases k with
  | one =>
    have hrun0 : c.extractLsb' 10 (Role.runWidth .one) = 0 := Subsingleton.elim (α := BitVec 0) _ _
    rw [hrun0]
    rfl
  | two => rfl
  | three => rfl

/-- The three ways of acEncode: an entry with the code, escape1 where it fits, or escape2 (44_ac_tables R196). -/
theorem chooseAc_cases (r : Registry) (k : Role) (c : Code) :
    (∃ e, chooseAc r k c = acVlcOf k e ∧ e.payload = c.toNat) ∨
      (chooseAc r k c = acEsc1Of k c ∧ fits1 k (codeRun c).toNat (codeLevel c).toInt = true) ∨
        chooseAc r k c = acEsc2Of k c := by
  unfold chooseAc
  split
  next e he =>
    have hp := List.find?_some he
    exact .inl ⟨e, rfl, of_decide_eq_true hp⟩
  next =>
    split
    next hf => exact .inr (.inl ⟨rfl, hf⟩)
    next => exact .inr (.inr rfl)

theorem chooseAc_elementClass (r : Registry) (k : Role) (c : Code) :
    (chooseAc r k c).elementClass = some (.ac k) := by
  rcases chooseAc_cases r k c with ⟨e, hc, -⟩ | ⟨hc, -⟩ | hc <;> rw [hc] <;> cases k <;> rfl

/-- What acEncode chooses has the code it was chosen for. -/
theorem acElementCode_chooseAc (r : Registry) (k : Role) (c : Code) : acElementCode (chooseAc r k c) = some c := by
  rcases chooseAc_cases r k c with ⟨e, hc, hp⟩ | ⟨hc, hf⟩ | hc <;> rw [hc]
  · rw [acElementCode_acVlcOf, hp, codeOfPayload, BitVec.ofNat_toNat, BitVec.setWidth_eq]
  · exact acElementCode_acEsc1Of hf
  · exact acElementCode_acEsc2Of k c

/-- Settles O59: the window decodes to the element acEncode chose, whose code is the one written. -/
theorem escapePrecision : Obligations.EscapePrecision := by
  intro r k c F h hF
  obtain ⟨hd, hlen⟩ :=
    elementDecodeEncode r _ (.ac k) F h (chooseAc_wfIn h k c) (chooseAc_elementClass r k c) hF
  rw [acDecode_of_element hd, acElementCode_chooseAc, hlen]
  rfl

end Sys2Proof
end

section
/-! The AC elements of the three roles: what acDecode makes of a window that begins with an escape or where the lookup
finds an entry (44_ac_tables R185 to R194), and the elements run as instructions in the phase of their role (45_decoder
R223, R224; assumption log 7). -/

namespace Sys2Proof

/-! ### The values of the escape1 codes -/

theorem acCode_toNat (run : BitVec 6) (level : BitVec 10) :
    (acCode run level).toNat = 2 ^ 10 * run.toNat + level.toNat := by
  rw [acCode, BitVec.toNat_append, Nat.shiftLeft_eq, Nat.mul_comm]
  exact (Nat.two_pow_add_eq_or_of_lt level.isLt _).symm

/-- A sign-extended level in a code's level field: level mod 2^10 (30_encoding R91, R105). -/
theorem acCode_signExtend_toNat (run : BitVec 6) {w : Nat} (level : BitVec w) :
    ((acCode run (level.signExtend 10)).toNat : Int) = 2 ^ 10 * run.toNat + level.toInt % 2 ^ 10 := by
  have hl : (level.signExtend 10).toNat = (level.toInt % 2 ^ 10).toNat := BitVec.toNat_ofInt ..
  rw [acCode_toNat, hl]
  omega

/-- A role 1 code has run 0 (44_ac_tables R186). -/
theorem ac1Esc1Code_toNat (level7 : BitVec 7) : ((ac1Esc1Code level7).toNat : Int) = level7.toInt % 2 ^ 10 :=
  (acCode_signExtend_toNat 0 level7).trans (Int.zero_add _)

theorem ac2Esc1Code_toNat (run3 : BitVec 3) (level5 : BitVec 5) :
    ((ac2Esc1Code run3 level5).toNat : Int) = 2 ^ 10 * run3.toNat + level5.toInt % 2 ^ 10 := by
  rw [ac2Esc1Code, acCode_signExtend_toNat, BitVec.toNat_setWidth_of_le (by decide)]

theorem ac3Esc1Code_toNat (run4 level4 : BitVec 4) :
    ((ac3Esc1Code run4 level4).toNat : Int) = 2 ^ 10 * run4.toNat + level4.toInt % 2 ^ 10 := by
  rw [ac3Esc1Code, acCode_signExtend_toNat, BitVec.toNat_setWidth_of_le (by decide)]

/-! ### Windows without an escape -/

/-- With no escape of the role the table's entry is the element (30_encoding R107, 44_ac_tables R185). -/
theorem decodeElement_ac_of_lookupEntry {r : Registry} {k : Role} {F : Word} {e : Entry Nat}
    (h1 : escMatch (r.ac k).esc1 F = false) (h2 : escMatch (r.ac k).esc2 F = false)
    (he : (r.ac k).table.lookupEntry F = some e) : decodeElement r (.ac k) F = some (acVlcOf k e) := by
  simp [decodeElement_ac, acEscapes, firstMatch, h1, h2, he]

end Sys2Proof

namespace Sys2Proof.Machine

/-! ### The elements as instructions -/

/-- An AC element run where its class comes next is step ACk with its code and its length (45_decoder R223). -/
theorem exec_acElement {i : Instr} {k : Role} {code : Code} (hi : i.elementClass = some (.ac k))
    (hcode : acElementCode i = some code) {s : State} (hm : s.mode = .decode) (hp : s.phase = phaseOfRole k)
    (hc : s.cnt k ≠ 0) : exec i s = .next (s.afterAc k code (elementLength s.registry i)) := by
  rw [← runAc_eq hm hp hc]
  cases i <;> cases hi <;> cases hcode <;> rfl

/-! ### The results, role by role -/

/-- Settles O22: the escape comes first, and its one field is the level of a code with run 0. -/
theorem ac1Esc1Result : Obligations.Ac1Esc1Result := by
  refine ⟨fun r F hm => ?_, ac1Esc1Code_toNat, fun v _ hm hp hc => exec_acElement (i := .ac1Esc1 v) rfl rfl hm hp hc⟩
  have hd := decodeElement_ac_of_escape1 (k := .one) hm
  exact ⟨hd, acDecode_of_element hd⟩

/-- Settles O23: without escape1 it is escape2 that decides, and its field is the whole code. -/
theorem ac1Esc2Result : Obligations.Ac1Esc2Result := by
  refine ⟨fun r F h1 h2 => ?_, fun v _ hm hp hc => exec_acElement (i := .ac1Esc2 v) rfl rfl hm hp hc⟩
  have hd := decodeElement_ac_of_escape2 (k := .one) h1 h2
  exact ⟨hd, acDecode_of_element hd⟩

/-- Settles O24: without an escape the entry the lookup finds decides, and its payload is the code. -/
theorem ac1VlcResult : Obligations.Ac1VlcResult := by
  refine ⟨fun r F e h1 h2 he => ?_, fun e _ hm hp hc => exec_acElement (i := .ac1Vlc e) rfl rfl hm hp hc⟩
  have hd := decodeElement_ac_of_lookupEntry (k := .one) h1 h2 he
  exact ⟨lookup_of_lookupEntry he, hd, acDecode_of_element hd⟩

/-- Settles O25: the escape comes first, and its run lies below its level. -/
theorem ac2Esc1Result : Obligations.Ac2Esc1Result := by
  refine ⟨fun r F hm => ?_, ac2Esc1Code_toNat,
    fun v w _ hm hp hc => exec_acElement (i := .ac2Esc1 v w) rfl rfl hm hp hc⟩
  have hd := decodeElement_ac_of_escape1 (k := .two) hm
  exact ⟨hd, acDecode_of_element hd⟩

/-- Settles O26: without escape1 it is escape2 that decides, and its field is the whole code. -/
theorem ac2Esc2Result : Obligations.Ac2Esc2Result := by
  refine ⟨fun r F h1 h2 => ?_, fun v _ hm hp hc => exec_acElement (i := .ac2Esc2 v) rfl rfl hm hp hc⟩
  have hd := decodeElement_ac_of_escape2 (k := .two) h1 h2
  exact ⟨hd, acDecode_of_element hd⟩

/-- Settles O27: without an escape the entry the lookup finds decides, and its payload is the code. -/
theorem ac2VlcResult : Obligations.Ac2VlcResult := by
  refine ⟨fun r F e h1 h2 he => ?_, fun e _ hm hp hc => exec_acElement (i := .ac2Vlc e) rfl rfl hm hp hc⟩
  have hd := decodeElement_ac_of_lookupEntry (k := .two) h1 h2 he
  exact ⟨lookup_of_lookupEntry he, hd, acDecode_of_element hd⟩

/-- Settles O28: the escape comes first, and its run lies below its level. -/
theorem ac3Esc1Result : Obligations.Ac3Esc1Result := by
  refine ⟨fun r F hm => ?_, ac3Esc1Code_toNat,
    fun v w _ hm hp hc => exec_acElement (i := .ac3Esc1 v w) rfl rfl hm hp hc⟩
  have hd := decodeElement_ac_of_escape1 (k := .three) hm
  exact ⟨hd, acDecode_of_element hd⟩

/-- Settles O29: without escape1 it is escape2 that decides, and its field is the whole code. -/
theorem ac3Esc2Result : Obligations.Ac3Esc2Result := by
  refine ⟨fun r F h1 h2 => ?_, fun v _ hm hp hc => exec_acElement (i := .ac3Esc2 v) rfl rfl hm hp hc⟩
  have hd := decodeElement_ac_of_escape2 (k := .three) h1 h2
  exact ⟨hd, acDecode_of_element hd⟩

/-- Settles O30: without an escape the entry the lookup finds decides, and its payload is the code. -/
theorem ac3VlcResult : Obligations.Ac3VlcResult := by
  refine ⟨fun r F e h1 h2 he => ?_, fun e _ hm hp hc => exec_acElement (i := .ac3Vlc e) rfl rfl hm hp hc⟩
  have hd := decodeElement_ac_of_lookupEntry (k := .three) h1 h2 he
  exact ⟨lookup_of_lookupEntry he, hd, acDecode_of_element hd⟩

end Sys2Proof.Machine
end

section
/-! What a step can do, as one relation over the commands, and an invariant of it packaged once: what no offer on the
port touches and every command keeps, every step keeps (40_host_interface R120, R121). -/

namespace Sys2Proof.Machine

/-- What a host command can do to s. -/
inductive Commanded (s : State) : State → Prop
  /-- RESET. -/
  | reset (r : Response) : Commanded s (State.resetWith s.build s.out s.port (some r))
  /-- START_DECODE of a buffer below the least frame. -/
  | startLost (sel : BitVec 1) (q : BitVec 6) (m : BitVec 16) (l : BitVec 24) (b : List Byte) :
      Commanded s (raiseError .endOfStream .none 0 (bindBuffer l b (startFrame .decode sel q m s)))
  /-- START_DECODE. -/
  | startDecode (sel : BitVec 1) (q : BitVec 6) (m : BitVec 16) (l : BitVec 24) (b : List Byte) :
      Commanded s (emit (plainResponse .ok) (openFrame (bindBuffer l b (startFrame .decode sel q m s))))
  /-- START_ENCODE. -/
  | startEncode (sel : BitVec 1) (q : BitVec 6) (m : BitVec 16) :
      Commanded s (emit (plainResponse .ok) (openFrame (emptyOutput (startFrame .encode sel q m s))))
  /-- READ_REG and the reserved codes. -/
  | answered (r : Response) : Commanded s (emit r s)
  /-- PULL. -/
  | pull {t : State} (h : Pulled s t) : Commanded s t
  /-- PUSH_CODE and PUSH_EOB. -/
  | push {t : State} (h : Pushed s t) : Commanded s t

/-- Every host command of a state that meets the invariant is one of these. -/
theorem exec_commanded {s t : State} {i : Instr} (hi : i.elementClass = none) (hI : s.Inv) (h : exec i s = .next t) :
    Commanded s t := by
  cases i <;> cases hi
  case reset => cases h; exact .reset _
  case startDecode sel q m l b =>
    simp only [exec, execStartDecode] at h
    split at h <;> cases h
    · exact .startLost sel q m l b
    · exact .startDecode sel q m l b
  case startEncode sel q m => cases h; exact .startEncode sel q m
  case pull =>
    obtain ⟨u, hu, hp⟩ := execPull_pulled hI
    cases hu.symm.trans h
    exact .pull hp
  case pushCode code =>
    obtain ⟨u, hu, hp⟩ := execPushCode_pushed hI code
    cases hu.symm.trans h
    exact .push hp
  case pushEob =>
    obtain ⟨u, hu, hp⟩ := execPushEob_pushed hI
    cases hu.symm.trans h
    exact .push hp
  case readReg n =>
    simp only [exec, execReadReg] at h
    split at h <;> cases h <;> exact .answered _
  case reservedCmd => cases h; exact .answered _

/-- A step leaves the state as it is, or runs one host command of the state with that command off the port. -/
theorem step_cases {s t : State} (hI : s.Inv) (h : step s = .next t) :
    t = s ∨ ∃ rest, Commanded { s with port := rest } t := by
  unfold step at h
  split at h
  · cases h; exact .inl rfl
  next c rest _ =>
    split at h
    next i hi => exact .inr ⟨rest, exec_commanded (decodeCommand_class hi) (withPort_inv hI rest) h⟩
    next => cases h

/-- What the port does not enter and every command keeps, every step keeps. -/
theorem step_keeps {P : State → Prop} (hport : ∀ s rest, P s → P { s with port := rest })
    (hcmd : ∀ s t, s.Inv → P s → Commanded s t → P t) {s t : State} (hI : s.Inv) (hP : P s) (h : step s = .next t) :
    P t := by
  obtain rfl | ⟨rest, ht⟩ := step_cases hI h
  · exact hP
  · exact hcmd _ t (withPort_inv hI rest) (hport s rest hP) ht

end Sys2Proof.Machine
end

section
/-! QUOTA, the count of the blocks left in the column: one less at every DC, full again at a column boundary, and in step
with the block cursor (45_decoder R218, R220, R225, R226, R230; 46_encoder R251, R253). -/

namespace Sys2Proof.Machine

/-! ### The count before and after a DC -/

/-- A column ends exactly before the blocks j ≥ 78 with j mod 78 = 0 (45_decoder R226). -/
theorem quotaBefore_eq_zero_iff (j : Nat) : quotaBefore j = 0 ↔ 78 ≤ j ∧ j % 78 = 0 := by
  unfold quotaBefore
  split
  · omega
  · split <;> omega

/-- The quota left after a block is the quota before the next one's DC. -/
theorem quotaBefore_succ (j : Nat) : quotaBefore (j + 1) = 77 - j % 78 := by
  unfold quotaBefore
  rw [if_neg (Nat.succ_ne_zero j)]
  split <;> omega

/-- QUOTA as a DC counts its block off: full at a column boundary (45_decoder R218, 46_encoder R251). -/
def State.columnQuota (s : State) : BitVec 7 := if s.quota = 0 then fullQuota else s.quota

theorem columnQuota_sub_one {s : State} (h : s.quota.toNat = quotaBefore s.blockNumber) :
    (s.columnQuota - 1).toNat = 77 - s.blockNumber % 78 := by
  unfold State.columnQuota
  by_cases hq : s.quota = 0
  · have hj := (quotaBefore_eq_zero_iff s.blockNumber).mp (by rw [← h, hq]; rfl)
    rw [if_pos hq, hj.2]; rfl
  · have hne : s.quota.toNat ≠ 0 := fun h0 => hq (BitVec.eq_of_toNat_eq h0)
    have hsub : (s.quota - 1).toNat = s.quota.toNat - 1 := by bv_omega
    rw [if_neg hq, hsub, h]
    rw [h] at hne
    unfold quotaBefore at hne ⊢
    split_ifs at hne ⊢ <;> omega

theorem dcStart_quota {s u : State} (h : DcStart s u) : u.quota = s.columnQuota := by
  obtain ⟨-, -, ⟨hq, rfl⟩ | ⟨hq, rfl⟩⟩ := h
  · exact (if_neg hq).symm
  · exact (if_pos hq).symm

theorem dcStart_blockNumber {s u : State} (h : DcStart s u) : u.blockNumber = s.blockNumber := by
  obtain ⟨-, -, ⟨-, rfl⟩ | ⟨-, rfl⟩⟩ := h <;> rfl

theorem columnStart_quota (s : State) : (columnStart s).quota = s.columnQuota := by
  unfold columnStart State.columnQuota
  split <;> rfl

theorem columnStart_blockNumber (s : State) : (columnStart s).blockNumber = s.blockNumber := by
  unfold columnStart
  split <;> rfl

/-! ### The block number -/

/-- After a block's end the next block's DC comes, or the frame is complete (45_decoder R225). -/
theorem afterBlock_betweenBlocks (s : State) : s.afterBlock.phase = .atDc ∨ s.afterBlock.phase = .done := by
  unfold State.afterBlock
  split
  · exact .inr rfl
  · exact .inl rfl

/-- A frame opens before its first block, or complete when it has none (45_decoder R216, 46_encoder R250). -/
theorem openFrame_betweenBlocks (s : State) : (openFrame s).phase = .atDc ∨ (openFrame s).phase = .done := by
  unfold openFrame
  split
  · exact .inr rfl
  · exact .inl rfl

/-- The block cursor moves on by one block; below MB_COUNT its macroblock index does not wrap (45_decoder R225). -/
theorem advanceBlock_blockNumber {s : State} (h : s.mbIdx.toNat < s.mbCount.toNat) :
    (advanceBlock s).blockNumber = s.blockNumber + 1 := by
  have hmb : (s.mbIdx + 1).toNat = s.mbIdx.toNat + 1 := by bv_omega
  unfold State.blockNumber advanceBlock
  cases s.blk
  case y4 =>
    show 6 * (s.mbIdx + 1).toNat + 0 = 6 * s.mbIdx.toNat + 5 + 1
    omega
  all_goals rfl

theorem afterBlock_blockNumber {s : State} (h : s.mbIdx.toNat < s.mbCount.toNat) :
    s.afterBlock.blockNumber = s.blockNumber + 1 := by
  rw [← blockEndStep_eq]
  exact advanceBlock_blockNumber (s := clearCodeIdx s) h

theorem blockDone_blockNumber {s : State} (h : s.mbIdx.toNat < s.mbCount.toNat) :
    (blockDone s).blockNumber = s.blockNumber + 1 := advanceBlock_blockNumber (s := clearCodeIdx (clearNbuf s)) h

/-! ### The count, phase by phase -/

/-- A block's DC is done and its end is not (10_state R22). -/
def Phase.inBlock : Phase → Bool
  | .idle => false
  | .atDc => false
  | .atIns => true
  | .ac1 => true
  | .ac2 => true
  | .ac3 => true
  | .blockEnd => true
  | .done => false
  | .error => false
  | .collect => true

theorem quotaTracks_error {t : State} (hp : t.phase = .error) : t.QuotaTracks := by
  unfold State.QuotaTracks
  rw [hp]; trivial

theorem quotaTracks_betweenBlocks {t : State} (hp : t.phase = .atDc ∨ t.phase = .done) :
    t.QuotaTracks ↔ t.quota.toNat = quotaBefore t.blockNumber := by
  unfold State.QuotaTracks
  rcases hp with hp | hp <;> rw [hp]

theorem quotaTracks_inBlock {t : State} (hp : t.phase.inBlock = true) :
    t.QuotaTracks ↔ t.quota.toNat = 77 - t.blockNumber % 78 := by
  unfold State.QuotaTracks
  cases h : t.phase <;> simp_all [Phase.inBlock]

/-- Within a block the count stands still. -/
theorem quotaTracks_inBlock_congr {s t : State} (hs : s.phase.inBlock = true) (ht : t.phase.inBlock = true)
    (hq : t.quota = s.quota) (hj : t.blockNumber = s.blockNumber) (h : s.QuotaTracks) : t.QuotaTracks := by
  rw [quotaTracks_inBlock ht, hq, hj]
  exact (quotaTracks_inBlock hs).mp h

theorem phaseOfRole_inBlock (k : Role) : (phaseOfRole k).inBlock = true := by cases k <;> rfl

/-- A phase that the counters give is inside the block. -/
theorem inBlock_of_role_or_end {ph : Phase} {P : Role → Prop} (h : (∃ k, ph = phaseOfRole k ∧ P k) ∨ ph = .blockEnd) :
    ph.inBlock = true := by
  obtain ⟨k, rfl, -⟩ | rfl := h
  · exact phaseOfRole_inBlock k
  · rfl

/-! ### What the commands do to the count -/

theorem afterDc_quotaTracks {s u : State} (hu : DcStart s u) (h : s.QuotaTracks) (v : Word) (n : Nat) :
    (u.afterDc v n).QuotaTracks := by
  have hs := (quotaTracks_betweenBlocks (.inl hu.2.1)).mp h
  show (u.quota - 1).toNat = 77 - u.blockNumber % 78
  rw [dcStart_quota hu, dcStart_blockNumber hu]
  exact columnQuota_sub_one hs

theorem afterIns_quotaTracks {s : State} (hp : s.phase = .atIns) {c : Counts} (hc : c.inRange = true) (n : Nat)
    (h : s.QuotaTracks) : (s.afterIns c n).QuotaTracks :=
  quotaTracks_inBlock_congr (s := s) (by rw [hp]; rfl) (inBlock_of_role_or_end (afterIns_phase hc n s)) rfl rfl h

theorem acStart_quotaTracks {s u : State} {k : Role} (hu : AcStart s u k) (h : s.QuotaTracks) : u.QuotaTracks := by
  obtain ⟨-, -, -, rfl | ⟨e, hp, hc, -, rfl⟩⟩ := hu
  · exact h
  · exact afterIns_quotaTracks hp hc e.len h

theorem afterAc_quotaTracks {s : State} {k : Role} (hp : s.phase = phaseOfRole k) (code : Code) (n : Nat)
    (h : s.QuotaTracks) : (s.afterAc k code n).QuotaTracks := by
  refine quotaTracks_inBlock_congr (by rw [hp]; exact phaseOfRole_inBlock k)
    (inBlock_of_role_or_end (afterAc_phase hp code n)) ?_ ?_ h <;> cases k <;> rfl

theorem afterBlock_quotaTracks {s : State} (hp : s.phase.inBlock = true) (hlt : s.mbIdx.toNat < s.mbCount.toNat)
    (h : s.QuotaTracks) : s.afterBlock.QuotaTracks := by
  rw [quotaTracks_betweenBlocks (afterBlock_betweenBlocks s), afterBlock_blockNumber hlt, quotaBefore_succ]
  exact (quotaTracks_inBlock hp).mp h

/-- A PULL keeps the column count (45_decoder R226). -/
theorem pulled_quotaTracks {s t : State} (hI : s.Inv) (h : s.QuotaTracks) (ht : Pulled s t) : t.QuotaTracks := by
  cases ht with
  | answered => exact h
  | columnLost | dcLost | insLost | acLost => exact quotaTracks_error rfl
  | dc u v n hu => exact afterDc_quotaTracks hu h v n
  | insEnd e hm hp hc hl hend =>
    exact afterBlock_quotaTracks (by rw [hend]; rfl) (hI.mb_lt (by rw [hp]; rfl)) (afterIns_quotaTracks hp hc e.len h)
  | ac u k code n hu => exact afterAc_quotaTracks hu.2.1 code n (acStart_quotaTracks hu h)
  | blockEnd hm hp => exact afterBlock_quotaTracks (by rw [hp]; rfl) (hI.mb_lt (by rw [hp]; rfl)) h

theorem overflowed_phase {wpos : BitVec 35} {s t : State} {total n v : Nat} (h : Overflowed wpos s t total n v) :
    t.phase = .error := by rw [h.only]; rfl

/-- The writes of a command leave the column count's registers. -/
theorem wrote_quota {s t : State} {n v : Nat} (h : Wrote s t n v) :
    t.quota = s.quota ∧ t.blockNumber = s.blockNumber := by
  rw [h.only]; exact ⟨rfl, rfl⟩

theorem dcPushed_quotaTracks {s u : State} {n v : Nat} (hp : s.phase = .atDc) (hu : Wrote (columnStart s) u n v)
    (h : s.QuotaTracks) (d : Word) : (dcPushed d u).QuotaTracks := by
  obtain ⟨hq, hj⟩ := wrote_quota hu
  have hs := (quotaTracks_betweenBlocks (.inl hp)).mp h
  have hd : (dcPushed d u).blockNumber = u.blockNumber := by simp [State.blockNumber]
  rw [quotaTracks_inBlock (by simp [Phase.inBlock]), hd, hj, dcPushed_quota, hq, columnStart_quota,
    columnStart_blockNumber]
  exact columnQuota_sub_one hs

theorem eob_quotaTracks {s u : State} {n v : Nat} (hp : s.phase = .collect) (hlt : s.mbIdx.toNat < s.mbCount.toNat)
    (hu : Wrote (blockDone s) u n v) (h : s.QuotaTracks) {ph : Phase} (hph : ph = .atDc ∨ ph = .done) :
    (setPhase ph u).QuotaTracks := by
  obtain ⟨hq, hj⟩ := wrote_quota hu
  rw [quotaTracks_betweenBlocks hph]
  show u.quota.toNat = quotaBefore u.blockNumber
  rw [hq, hj, blockDone_blockNumber hlt, quotaBefore_succ]
  exact (quotaTracks_inBlock (by rw [hp]; rfl)).mp h

/-- A push keeps the column count (45_decoder R226, 46_encoder R251, R253). -/
theorem pushed_quotaTracks {s t : State} (hI : s.Inv) (h : s.QuotaTracks) (ht : Pushed s t) : t.QuotaTracks := by
  have hlt (hp : s.phase = .collect) := hI.mb_lt (by rw [hp]; rfl)
  cases ht with
  | answered => exact h
  | protocol | acLost | noInstruction => exact quotaTracks_error rfl
  | dcPadLost t total n v _ _ _ ht => exact quotaTracks_error (overflowed_phase ht)
  | dcLost t total n v _ _ ht => exact quotaTracks_error (overflowed_phase ht)
  | eobLost t total n v _ _ ht => exact quotaTracks_error (overflowed_phase ht)
  | eobPadLost t total n v _ _ _ ht => exact quotaTracks_error (overflowed_phase ht)
  | dc u n v d _ hp hu => exact dcPushed_quotaTracks hp hu h d
  | ac => exact h
  | eob u n v _ hp _ hu => exact eob_quotaTracks hp (hlt hp) hu h (.inl rfl)
  | eobDone u n v _ hp _ hu => exact eob_quotaTracks hp (hlt hp) hu h (.inr rfl)

/-- A frame opens with a full column before block 0 (45_decoder R216, R230). -/
theorem openFrame_quotaTracks {s : State} (hq : s.quota = fullQuota) (hj : s.blockNumber = 0) :
    (openFrame s).QuotaTracks := by
  rw [quotaTracks_betweenBlocks (openFrame_betweenBlocks s)]
  show s.quota.toNat = quotaBefore s.blockNumber
  rw [hq, hj]; rfl

theorem commanded_quotaTracks {s t : State} (hI : s.Inv) (h : s.QuotaTracks) (ht : Commanded s t) :
    t.QuotaTracks := by
  cases ht with
  | reset => trivial
  | startLost => exact quotaTracks_error rfl
  | startDecode sel q m l b => exact openFrame_quotaTracks (s := bindBuffer l b _) rfl rfl
  | startEncode sel q m => exact openFrame_quotaTracks (s := emptyOutput _) rfl rfl
  | answered => exact h
  | pull ht => exact pulled_quotaTracks hI h ht
  | push ht => exact pushed_quotaTracks hI h ht

/-- Settles O50: QUOTA and the block cursor move together in every command. -/
theorem stepKeepsQuota : Obligations.StepKeepsQuota := fun _ _ hI h ht =>
  step_keeps (fun _ _ => id) (fun _ _ => commanded_quotaTracks) hI h ht

end Sys2Proof.Machine
end

section
/-! The DC predictor chain and the DC code (45_decoder R219, 42_dc_table R154), and START_DECODE (45_decoder R216). -/

namespace Sys2Proof.Machine

/-- A DC code is built as an AC code is, with QSCALE as its run (42_dc_table R154). -/
theorem dcCode_toNat (q : BitVec 6) (dc : Word) : (dcCode q dc).toNat = 2 ^ 10 * q.toNat + dc.toNat % 2 ^ 10 := by
  rw [← BitVec.toNat_setWidth]
  exact acCode_toNat q (dc.setWidth 10)

/-- Settles O32: the chain's table, the registers it names, and the place of the two fields in the DC code. -/
theorem predictorChain : Obligations.PredictorChain :=
  ⟨rfl, fun _ => ⟨rfl, rfl, rfl, rfl⟩, writeChain_eq, dcCode_toNat⟩

theorem exec_startDecode_short {len : BitVec 24} (h : len.toNat < Config.minFrameBytes) (sel : BitVec 1)
    (q : BitVec 6) (m : BitVec 16) (buf : List Byte) (s : State) : exec (.startDecode sel q m len buf) s =
      .next (raiseError .endOfStream .none 0 (bindBuffer len buf (startFrame .decode sel q m s))) := if_pos h

theorem exec_startDecode_long {len : BitVec 24} (h : ¬ len.toNat < Config.minFrameBytes) (sel : BitVec 1)
    (q : BitVec 6) (m : BitVec 16) (buf : List Byte) (s : State) : exec (.startDecode sel q m len buf) s =
      .next (emit (plainResponse .ok) (openFrame (bindBuffer len buf (startFrame .decode sel q m s)))) := if_neg h

/-- BUF after START_DECODE reads as the host's bytes, and 0 past them (45_decoder R216). -/
theorem bindBuffer_read (len : BitVec 24) (buf : List Byte) (s : State) (a : Nat) :
    (bindBuffer len buf s).buf.read a = buf.getD a 0 := by
  show (memoryOfBytes 0 buf).read a = _
  rw [read_memoryOfBytes, if_pos (Nat.zero_le a), Nat.sub_zero]

/-- Settles O17: both ends of START_DECODE set the same registers but for the error entry or the open frame. -/
theorem startDecodeResult : Obligations.StartDecodeResult := by
  intro sel q m len buf s
  by_cases h : len.toNat < 12
  · refine ⟨_, exec_startDecode_short h sel q m buf s, bindBuffer_read len buf (startFrame .decode sel q m s), ?_⟩
    simp only [if_pos h]
    rfl
  · refine ⟨_, exec_startDecode_long h sel q m buf s, bindBuffer_read len buf (startFrame .decode sel q m s), ?_⟩
    simp only [if_neg h]
    rfl

end Sys2Proof.Machine
end

section
/-! PULL, phase by phase: what it runs in each phase, and what that leaves where the window decodes and where it misses
(45_decoder R217 to R228). -/

namespace Sys2Proof.Machine

/-! ### The element that comes next, found or missed -/

section
variable {s : State}

theorem runElement_dc_miss (h : accepts .dc s = true)
    (hd : dcDecode s.registry s.front (s.pred (chainRead s.blk)) = none) :
    runElement .dc s = .next (raiseError .readCorruption .dc s.posBits s) := by
  rw [runElement_dc h, hd]

theorem runElement_dc_hit (h : accepts .dc s = true) {dc : Word} {n : Nat}
    (hd : dcDecode s.registry s.front (s.pred (chainRead s.blk)) = some (dc, n)) :
    runElement .dc s = .next (s.afterDc dc n) := by
  rw [runElement_dc h, hd, ← dcStep_eq]

theorem runElement_ins_miss (h : accepts .ins s = true) (hd : s.registry.ins.lookupEntry s.front = none) :
    runElement .ins s = .next (raiseError .readCorruption .ins s.posBits s) := by
  rw [runElement_ins h, hd]

theorem runElement_ins_hit (h : accepts .ins s = true) {e : Entry Counts}
    (hd : s.registry.ins.lookupEntry s.front = some e) (hr : e.payload.inRange = true) :
    runElement .ins s = .next (s.afterIns e.payload e.len) := by
  rw [runElement_ins h, hd, ← insStep_after _ hr]

variable {k : Role} (hm : s.mode = .decode) (hp : s.phase = phaseOfRole k) (hc : s.cnt k ≠ 0)
include hm hp hc

theorem runElement_ac_miss (hd : acDecode s.registry k s.front = none) :
    runElement (.ac k) s = .next (raiseError .readCorruption (tableOfClass (.ac k)) s.posBits s) := by
  rw [runElement_ac (accepts_ac hm hp hc), hd]

theorem runElement_ac_hit {code : Code} {n : Nat} (hd : acDecode s.registry k s.front = some (code, n)) :
    runElement (.ac k) s = .next (s.afterAc k code n) := by
  rw [runElement_ac (accepts_ac hm hp hc), hd, ← acStep_after hp]

end

/-- The element a window begins with is what runs, as an instruction (assumption log 7). -/
theorem runElement_of_decode {s : State} {cls : ElementClass} {i : Instr}
    (hd : decodeElement s.registry cls s.front = some i) : runElement cls s = exec i s := by
  unfold runElement
  rw [hd]
  exact execElement_eq_exec (decodeElement_class hd) s

/-! ### What a PULL runs -/

section
variable {s : State} (hm : s.mode = .decode)
include hm

theorem execPull_atDc (hp : s.phase = .atDc) : execPull s = pullDc s := by simp [execPull, hm, hp]

theorem execPull_atIns (hp : s.phase = .atIns) : execPull s = pullIns s := by simp [execPull, hm, hp]

theorem execPull_ac {k : Role} (hp : s.phase = phaseOfRole k) : execPull s = runElement (.ac k) s := by
  cases k <;> simp [execPull, hm, hp, phaseOfRole]

theorem execPull_blockEnd (hp : s.phase = .blockEnd) : execPull s = .next s.afterBlock := by
  simp [execPull, hm, hp, blockEndStep_eq]

theorem execPull_done (hp : s.phase = .done) : execPull s = .next (emit (plainResponse .frameDone) s) := by
  simp [execPull, hm, hp]

theorem execPull_error (hp : s.phase = .error) : execPull s = .next (emit (recordedError s) s) := by
  simp [execPull, hm, hp]

/-- After the instruction code a PULL goes on as the next PULL would (45_decoder R222). -/
theorem afterIns_eq_execPull (hp : (∃ k, s.phase = phaseOfRole k ∧ s.cnt k ≠ 0) ∨ s.phase = .blockEnd) :
    afterIns s = execPull s := by
  obtain ⟨k, hp, -⟩ | hp := hp
  · rw [execPull_ac hm hp]
    cases k <;> simp [afterIns, hp, phaseOfRole]
  · rw [execPull_blockEnd hm hp]
    simp [afterIns, hp, blockEndStep_eq]

end

/-! ### DONE, ERROR, BLOCK_END and ACk -/

/-- Settles O14: the response is all that changes. -/
theorem pullAfterDone : Obligations.PullAfterDone := fun _ hm hp => execPull_done hm hp

/-- Settles O15: in ERROR every instruction but the STARTs and RESET only answers. -/
theorem errorIsSticky : Obligations.ErrorIsSticky := by
  refine ⟨fun s hm hp => execPull_error hm hp, fun i s t hp h hne => ?_⟩
  by_contra hi
  simp only [not_or, not_exists] at hi
  obtain ⟨hr, hd, he⟩ := hi
  obtain ⟨r, rfl⟩ := exec_of_error hp h hr hd he
  exact hne hp

/-- Settles O36, by the block's end as a list of registers. -/
theorem pullAtBlockEnd : Obligations.PullAtBlockEnd := fun _ hm hp => execPull_blockEnd hm hp

/-- Settles O35: the AC element of the phase's table, found or missed. -/
theorem pullAtAc : Obligations.PullAtAc := by
  intro s k hm hp hc hr
  refine ⟨fun hd => ?_, fun code n hd => ?_⟩
  · rw [← posBits_eq hr]
    exact (execPull_ac hm hp).trans (runElement_ac_miss hm hp hc hd)
  · exact (execPull_ac hm hp).trans (runElement_ac_hit hm hp hc hd)

/-! ### AT_INS -/

theorem pullIns_miss {s : State} (hm : s.mode = .decode) (hp : s.phase = .atIns)
    (hd : s.registry.ins.lookupEntry s.front = none) :
    pullIns s = .next (raiseError .readCorruption .ins s.posBits s) := by
  unfold pullIns
  rw [runElement_ins_miss (accepts_ins hm hp) hd]
  rfl

/-- A found instruction code leaves its registers, and the PULL goes on from there (45_decoder R222). -/
theorem pullIns_hit {s : State} (hm : s.mode = .decode) (hp : s.phase = .atIns) {e : Entry Counts}
    (hd : s.registry.ins.lookupEntry s.front = some e) (hr : e.payload.inRange = true) :
    pullIns s = execPull (s.afterIns e.payload e.len) := by
  unfold pullIns
  rw [runElement_ins_hit (accepts_ins hm hp) hd hr]
  exact afterIns_eq_execPull hm (afterIns_phase hr e.len s)

/-- An instruction without codes goes to the block's end (45_decoder R224). -/
theorem afterIns_phase_of_sum_zero {c : Counts} (h : c.sum = 0) (n : Nat) (s : State) :
    (s.afterIns c n).phase = .blockEnd := by
  unfold Counts.sum at h
  simp [State.afterIns, show c.c1 = 0 by omega, show c.c2 = 0 by omega, show c.c3 = 0 by omega]

/-- In the phase of a role after an instruction code there are codes of that role (10_state R22, 45_decoder R224). -/
theorem afterIns_cnt_ne_zero {s : State} {c : Counts} (hc : c.inRange = true) {n : Nat} {k : Role}
    (hp : (s.afterIns c n).phase = phaseOfRole k) : (s.afterIns c n).cnt k ≠ 0 := by
  obtain ⟨j, hj, hne⟩ | hend := afterIns_phase hc n s
  · exact phaseOfRole_inj (hj.symm.trans hp) ▸ hne
  · rw [hend] at hp
    cases k <;> cases hp

theorem afterIns_rem_le {s : State} (hr : s.rem.toNat ≤ 32) (c : Counts) {n : Nat} (hn : n ≤ 32) :
    (s.afterIns c n).rem.toNat ≤ 32 := consume_rem_le hr hn

/-- Settles O34: the instruction code, then the PULL of the state it leaves. -/
theorem pullAtIns : Obligations.PullAtIns := by
  intro s hm hp hb hr
  refine ⟨fun hd => ?_, fun e hd => ?_⟩
  · rw [← posBits_eq hr]
    exact (execPull_atIns hm hp).trans (pullIns_miss hm hp hd)
  · obtain ⟨hlen, hin⟩ := lookupIns_le (Build.registry_wf hb s.sel) hd
    have hpull : exec .pull s = execPull (s.afterIns e.payload e.len) :=
      (execPull_atIns hm hp).trans (pullIns_hit hm hp hd hin)
    rw [hpull]
    refine ⟨fun hsum => execPull_blockEnd hm (afterIns_phase_of_sum_zero hsum _ s), fun k hk => ?_⟩
    exact pullAtAc _ k hm hk (afterIns_cnt_ne_zero hin hk) (afterIns_rem_le hr e.payload hlen)

/-! ### AT_DC -/

/-- In a column with blocks left, and at a column's start, the DC is decoded at once (45_decoder R218). -/
theorem pullDc_of_quota_ne {s : State} (hq : s.quota ≠ 0) : pullDc s = runElement .dc s := by
  rw [pullDc, columnResetIfDue, if_neg hq]

section
variable {s : State} (hq : s.quota = 0) (hr : s.rem.toNat ≤ 32) (hp : s.p % 4 = 0)
include hq hr hp

/-- A column boundary without a whole word left (47_bit_cursor R290). -/
theorem pullDc_of_column_lost (h : s.len.toNat < s.columnOffset + 4) :
    pullDc s = .next (raiseError .endOfStream .none s.posBits s.noPreds) := by
  unfold pullDc columnResetIfDue
  rw [if_pos hq]
  obtain ⟨-, e⟩ | ⟨hfit, -⟩ := columnReset_cases s
  · rw [e]; rfl
  · rw [realignTarget_eq_columnOffset hr hp] at hfit
    omega

/-- A column boundary with the next column's first word in the buffer (45_decoder R220). -/
theorem pullDc_of_column_fits (h : s.columnOffset + 4 ≤ s.len.toNat) : pullDc s = runElement .dc s.atColumn := by
  have ht := realignTarget_eq_columnOffset hr hp
  unfold pullDc columnResetIfDue
  rw [if_pos hq]
  obtain ⟨hlost, -⟩ | ⟨-, e⟩ := columnReset_cases s
  · omega
  · rw [e, ht]; rfl

end

/-- The DC element of the state the column's check leaves, found or missed (45_decoder R218). -/
theorem runElement_dcStart {s u : State} (hu : DcStart s u) (hr : u.rem.toNat ≤ 32) :
    (dcDecode u.registry u.front (u.pred (chainRead u.blk)) = none →
      runElement .dc u = .next (raiseError .readCorruption .dc (BitVec.ofNat 35 u.posNat) u)) ∧
    ∀ dc n, dcDecode u.registry u.front (u.pred (chainRead u.blk)) = some (dc, n) →
      runElement .dc u = .next (u.afterDc dc n) := by
  have ha : accepts .dc u = true := by
    obtain ⟨hm, hp, ⟨hq, rfl⟩ | ⟨-, rfl⟩⟩ := hu
    · exact accepts_dc hm hp hq
    · exact accepts_dc hm hp (by show (78 : BitVec 7) ≠ 0; decide)
  rw [← posBits_eq hr]
  exact ⟨runElement_dc_miss ha, fun _ _ => runElement_dc_hit ha⟩

/-- Settles O33: the column's check, then the DC element of the state it leaves. -/
theorem pullAtDc : Obligations.PullAtDc := by
  intro s hm hp hr ha
  rw [show exec .pull s = pullDc s from execPull_atDc hm hp]
  refine ⟨fun hq hlost => ?_, fun u hu => ?_⟩
  · rw [← posBits_eq hr]
    exact pullDc_of_column_lost hq hr ha hlost
  · obtain ⟨hq, rfl⟩ | ⟨hq, hfit, rfl⟩ := hu
    · rw [pullDc_of_quota_ne hq]
      exact runElement_dcStart ⟨hm, hp, .inl ⟨hq, rfl⟩⟩ hr
    · rw [pullDc_of_column_fits hq hr ha hfit]
      exact runElement_dcStart ⟨hm, hp, .inr ⟨hq, rfl⟩⟩ (Nat.le_refl 32)

/-! ### The decoded element as an instruction -/

/-- The instruction element leaves the phase of a table with codes, or the block's end (45_decoder R224). -/
theorem insStep_phase (c : Counts) (n : Nat) (s : State) :
    (∃ k, (insStep c n s).phase = phaseOfRole k ∧ (insStep c n s).cnt k ≠ 0) ∨ (insStep c n s).phase = .blockEnd := by
  rw [insStep_eq]
  exact normalizedFrom_cases (loadCounts c (consume n s)) .one

theorem pullIns_of_decode {s : State} (hm : s.mode = .decode) (hp : s.phase = .atIns) {i : Instr}
    (hd : decodeElement s.registry .ins s.front = some i) :
    ∃ t, exec i s = .next t ∧ pullIns s = execPull t := by
  have hc := decodeElement_class hd
  cases i <;> cases hc
  case insVlc e =>
    have he : exec (.insVlc e) s = .next (insStep e.payload e.len s) := if_pos (accepts_ins hm hp)
    have ht : (insStep e.payload e.len s).mode = .decode := by simp [insStep, hm]
    refine ⟨_, he, ?_⟩
    unfold pullIns
    rw [runElement_of_decode hd, he]
    exact afterIns_eq_execPull ht (insStep_phase e.payload e.len s)

/-- Settles O2: in each phase PULL runs the element of the phase's class, and after an instruction goes on as a PULL. -/
theorem pullRunsDecodedElement : Obligations.PullRunsDecodedElement := by
  intro s i hm
  refine ⟨fun hp hq hd => ?_, fun k hp hd => ?_, fun hp hd => ?_⟩
  · exact (execPull_atDc hm hp).trans ((pullDc_of_quota_ne hq).trans (runElement_of_decode hd))
  · exact (execPull_ac hm hp).trans (runElement_of_decode hd)
  · obtain ⟨t, he, ht⟩ := pullIns_of_decode hm hp hd
    exact ⟨t, he, (execPull_atIns hm hp).trans ht⟩

/-! ### The column reset -/

/-- The next column starts where the rounded-up position is, a word boundary (45_decoder R232). -/
theorem atColumn_posNat (s : State) : s.atColumn.posNat = paddedPos s.posNat := by
  show 8 * s.columnOffset + 32 - 32 = paddedPos s.posNat
  unfold State.columnOffset paddedPos
  omega

/-- The column's start is a load of the window (47_bit_cursor R287, R289). -/
theorem atColumn_window (s : State) : s.atColumn.Window :=
  window_congr (s := load s.columnOffset s) rfl rfl rfl rfl rfl rfl rfl (load_window _ s)

/-- A block whose number is a multiple of 6 is a macroblock's first. -/
theorem blk_eq_cr_of_blockNumber {s : State} (h : s.blockNumber % 6 = 0) : s.blk = .cr := by
  unfold State.blockNumber at h
  cases hb : s.blk <;> rw [hb] at h <;> simp [Block.code] at h ⊢

/-- Settles O37: QUOTA is 0 where the count says so, and the PULL there is the PULL of the loaded column. -/
theorem columnResetExactly : Obligations.ColumnResetExactly := by
  intro s hI hQ hm hp
  have hquota := (quotaTracks_betweenBlocks (.inl hp)).mp hQ
  have hiff : s.quota = 0 ↔ 78 ≤ s.blockNumber ∧ s.blockNumber % 78 = 0 := by
    rw [← quotaBefore_eq_zero_iff, ← hquota]
    exact BitVec.toNat_inj.symm
  refine ⟨hiff, fun hq hfit => ?_⟩
  have hcol : execPull s.atColumn = runElement .dc s.atColumn :=
    (execPull_atDc (s := s.atColumn) hm hp).trans (pullDc_of_quota_ne (by show (78 : BitVec 7) ≠ 0; decide))
  have hpull : execPull s = runElement .dc s.atColumn :=
    (execPull_atDc hm hp).trans (pullDc_of_column_fits hq hI.rem_le hI.p_aligned hfit)
  have hpos := atColumn_posNat s
  refine ⟨hpull.trans hcol.symm, blk_eq_cr_of_blockNumber ?_, fun q => ?_, hpos, ?_, atColumn_window s⟩
  · have := (hiff.mp hq).2
    omega
  · cases q <;> rfl
  · rw [hpos]
    exact Nat.mul_mod_right 32 _

end Sys2Proof.Machine
end

section
/-! CODE_IDX, the count of the block's codes: the codes that the counters still hold are part of the bound from the
instruction code on, so no code passes 766 = 1 + 3 · 255 (45_decoder R222, R223, R224, R233; 46_encoder R251, R252). -/

namespace Sys2Proof.Machine

/-! ### The count, phase by phase -/

/-- The codes still to come from table k on (45_decoder R223, R224). -/
def State.codesFrom (s : State) : Role → Nat
  | .one => s.cnt1.toNat + s.cnt2.toNat + s.cnt3.toNat
  | .two => s.cnt2.toNat + s.cnt3.toNat
  | .three => s.cnt3.toNat

@[simp] theorem emit_codesFrom (r : Response) (s : State) (k : Role) : (emit r s).codesFrom k = s.codesFrom k := by
  cases k <;> rfl

@[simp] theorem setPhase_codesFrom (ph : Phase) (s : State) (k : Role) :
    (setPhase ph s).codesFrom k = s.codesFrom k := by cases k <;> rfl

@[simp] theorem countCode_codesFrom (s : State) (k : Role) : (countCode s).codesFrom k = s.codesFrom k := by
  cases k <;> rfl

@[simp] theorem consume_codesFrom (n : Nat) (s : State) (k : Role) : (consume n s).codesFrom k = s.codesFrom k := by
  cases k <;> simp [State.codesFrom]

/-- A code counted off its table is a code fewer to come (45_decoder R223). -/
theorem decCnt_codesFrom {s : State} {k : Role} (h : s.cnt k ≠ 0) : (decCnt k s).codesFrom k + 1 = s.codesFrom k := by
  have hsub (x : BitVec 8) (hx : x ≠ 0) : (x - 1).toNat + 1 = x.toNat := by bv_omega
  have := hsub _ h
  cases k <;> simp only [State.codesFrom, decCnt, State.cnt] at this ⊢ <;> omega

theorem codeCount_role {t : State} {k : Role} (hp : t.phase = phaseOfRole k) :
    t.CodeCount ↔ t.codeIdx.toNat + t.codesFrom k ≤ 766 := by
  unfold State.CodeCount
  cases k <;> simp only [hp, phaseOfRole, State.codesFrom] <;> omega

theorem codeCount_error {t : State} (hp : t.phase = .error) : t.CodeCount ↔ t.codeIdx.toNat ≤ 766 := by
  unfold State.CodeCount
  rw [hp]

theorem codeCount_collect {t : State} (hp : t.phase = .collect) :
    t.CodeCount ↔ t.codeIdx.toNat = t.nbuf.toNat + 1 := by
  unfold State.CodeCount
  rw [hp]

theorem codeCount_betweenBlocks {t : State} (hp : t.phase = .atDc ∨ t.phase = .done) :
    t.CodeCount ↔ t.codeIdx.toNat = 0 := by
  unfold State.CodeCount
  rcases hp with hp | hp <;> rw [hp]

/-- Whatever the phase, no block has more than 766 codes (45_decoder R233). -/
theorem codeIdx_le {s : State} (hn : s.nbuf.toNat ≤ 64) (h : s.CodeCount) : s.codeIdx.toNat ≤ 766 := by
  unfold State.CodeCount at h
  split at h <;> omega

/-- The move past spent tables drops no code that is still to come (45_decoder R224). -/
theorem codeCount_normalizedFrom {t : State} {k : Role} (hp : t.phase = normalizedFrom t k)
    (h : t.codeIdx.toNat + t.codesFrom k ≤ 766) : t.CodeCount := by
  unfold State.CodeCount
  cases k <;> simp only [normalizedFrom, State.codesFrom] at hp h <;> split_ifs at hp
  all_goals
    rw [hp]
    show _ ≤ 766
    omega

/-! ### What the commands do to the count -/

theorem raiseError_codeCount {s : State} (h : s.codeIdx.toNat ≤ 766) (c : ErrCause) (tb : ErrTable)
    (ps : BitVec 35) : (raiseError c tb ps s).CodeCount := (codeCount_error rfl).mpr h

theorem dcStart_codeIdx {s u : State} (h : DcStart s u) : u.codeIdx = s.codeIdx := by
  obtain ⟨-, -, ⟨-, rfl⟩ | ⟨-, rfl⟩⟩ := h <;> rfl

/-- Three counts of at most 255 after the DC's code (45_decoder R233). -/
theorem afterIns_codeCount {s : State} (hp : s.phase = .atIns) {c : Counts} (hc : c.inRange = true) (n : Nat)
    (h : s.CodeCount) : (s.afterIns c n).CodeCount := by
  have hidx : s.codeIdx.toNat = 1 := by
    unfold State.CodeCount at h
    rwa [hp] at h
  rw [← insStep_after c hc, insStep_eq]
  refine codeCount_normalizedFrom (k := .one) rfl ?_
  have h1 := (countOfPayload c.c1).isLt
  have h2 := (countOfPayload c.c2).isLt
  have h3 := (countOfPayload c.c3).isLt
  simp only [State.codesFrom, setPhase_codeIdx, setPhase_cnt1, setPhase_cnt2, setPhase_cnt3, loadCounts_codeIdx,
    loadCounts_cnt1, loadCounts_cnt2, loadCounts_cnt3, consume_codeIdx]
  omega

theorem acStart_codeCount {s u : State} {k : Role} (hu : AcStart s u k) (h : s.CodeCount) : u.CodeCount := by
  obtain ⟨-, -, -, rfl | ⟨e, hp, hc, -, rfl⟩⟩ := hu
  · exact h
  · exact afterIns_codeCount hp hc e.len h

theorem afterAc_codeCount {s : State} {k : Role} (hp : s.phase = phaseOfRole k) (hc : s.cnt k ≠ 0) (code : Code)
    (n : Nat) (h : s.CodeCount) : (s.afterAc k code n).CodeCount := by
  have hle := (codeCount_role hp).mp h
  rw [← acStep_after hp, acStep_eq hp]
  refine codeCount_normalizedFrom (k := k) (by cases k <;> rfl) ?_
  have hfrom := decCnt_codesFrom (s := consume n s) (k := k) (by rw [consume_cnt]; exact hc)
  rw [consume_codesFrom] at hfrom
  simp only [emit_codesFrom, setPhase_codesFrom, countCode_codesFrom, emit_codeIdx, setPhase_codeIdx,
    countCode_codeIdx, decCnt_codeIdx, consume_codeIdx]
  bv_omega

theorem afterBlock_codeCount (s : State) : s.afterBlock.CodeCount :=
  (codeCount_betweenBlocks (afterBlock_betweenBlocks s)).mpr rfl

/-- A PULL keeps the code count (45_decoder R233). -/
theorem pulled_codeCount {s t : State} (hI : s.Inv) (h : s.CodeCount) (ht : Pulled s t) : t.CodeCount := by
  have hle := codeIdx_le hI.nbuf_le h
  cases ht with
  | answered => exact h
  | columnLost => exact raiseError_codeCount (s := s.noPreds) hle _ _ _
  | dcLost u hu => exact raiseError_codeCount (by rw [dcStart_codeIdx hu]; exact hle) _ _ _
  | dc => rfl
  | insLost => exact raiseError_codeCount hle _ _ _
  | insEnd e => exact afterBlock_codeCount _
  | acLost u k hu =>
    exact raiseError_codeCount (codeIdx_le (acStart_inv hI hu).1.nbuf_le (acStart_codeCount hu h)) _ _ _
  | ac u k code n hu => exact afterAc_codeCount hu.2.1 hu.2.2.1 code n (acStart_codeCount hu h)
  | blockEnd => exact afterBlock_codeCount s

theorem overflowed_codeCount {wpos : BitVec 35} {s t : State} {total n v : Nat} (h : Overflowed wpos s t total n v)
    (hs : s.codeIdx.toNat ≤ 766) : t.CodeCount := by
  refine (codeCount_error (overflowed_phase h)).mpr ?_
  rw [h.only]
  exact hs

theorem columnStart_codeIdx (s : State) : (columnStart s).codeIdx = s.codeIdx := by
  unfold columnStart
  split <;> rfl

theorem eob_codeCount {s u : State} {n v : Nat} (hu : Wrote (blockDone s) u n v) {ph : Phase}
    (hph : ph = .atDc ∨ ph = .done) : (setPhase ph u).CodeCount := by
  rw [codeCount_betweenBlocks hph, hu.only]
  rfl

/-- A push keeps the code count (45_decoder R233, 46_encoder R251, R252). -/
theorem pushed_codeCount {s t : State} (hI : s.Inv) (h : s.CodeCount) (ht : Pushed s t) : t.CodeCount := by
  have hle := codeIdx_le hI.nbuf_le h
  cases ht with
  | answered => exact h
  | protocol | acLost | noInstruction => exact raiseError_codeCount hle _ _ _
  | dcPadLost t total n v _ _ _ ht => exact overflowed_codeCount ht hle
  | dcLost t total n v _ _ ht => exact overflowed_codeCount ht (by rw [columnStart_codeIdx]; exact hle)
  | eobLost t total n v _ _ ht => exact overflowed_codeCount ht hle
  | eobPadLost t total n v _ _ _ ht => exact overflowed_codeCount ht (Nat.zero_le 766)
  | dc u n v d => exact (codeCount_collect (by simp)).mpr (by simp)
  | ac code _ hp hlt =>
    have hs := (codeCount_collect hp).mp h
    refine (codeCount_collect ?_).mpr ?_
    · exact hp
    · show (s.codeIdx + 1).toNat = (s.nbuf + 1).toNat + 1
      bv_omega
  | eob u n v _ _ _ hu => exact eob_codeCount hu (.inl rfl)
  | eobDone u n v _ _ _ hu => exact eob_codeCount hu (.inr rfl)

/-- A frame opens with no code counted (45_decoder R216, 46_encoder R250). -/
theorem openFrame_codeCount {s : State} (h : s.codeIdx = 0) : (openFrame s).CodeCount := by
  refine (codeCount_betweenBlocks (openFrame_betweenBlocks s)).mpr ?_
  show s.codeIdx.toNat = 0
  rw [h]; rfl

theorem commanded_codeCount {s t : State} (hI : s.Inv) (h : s.CodeCount) (ht : Commanded s t) : t.CodeCount := by
  cases ht with
  | reset => rfl
  | startLost => exact (codeCount_error rfl).mpr (Nat.zero_le 766)
  | startDecode sel q m l b => exact openFrame_codeCount (s := bindBuffer l b _) rfl
  | startEncode sel q m => exact openFrame_codeCount (s := emptyOutput _) rfl
  | answered => exact h
  | pull ht => exact pulled_codeCount hI h ht
  | push ht => exact pushed_codeCount hI h ht

/-- Settles O51: every command counts the codes it takes, within the bound. -/
theorem stepKeepsCodeCount : Obligations.StepKeepsCodeCount := fun _ _ hI h ht =>
  step_keeps (fun _ _ => id) (fun _ _ => commanded_codeCount) hI h ht

end Sys2Proof.Machine
end

section
/-! The encoder's commands: START_ENCODE, the pushes outside their phases, and what a push in its phase leaves. A push's
writes either fit, when OUT holds the whole words of the stream it has written, or stop at the first word that does not;
the position where the stream ends says which, so each outcome of a push belongs to one case of its statement
(46_encoder R250 to R256, 48_bit_accumulator R301 to R304). -/

namespace Sys2Proof.Machine

/-! ### START_ENCODE -/

/-- Settles O18: each of the four parts of START_ENCODE sets its own registers. -/
theorem startEncodeResult : Obligations.StartEncodeResult := fun _ _ _ _ => rfl

/-! ### The pushes outside their phases -/

section
variable {s : State} (hm : s.mode = .encode)
include hm

theorem execPushCode_done (hp : s.phase = .done) (code : Code) :
    execPushCode code s = .next (emit (plainResponse .frameDone) s) := by
  simp [execPushCode, hm, hp]

theorem execPushCode_error (hp : s.phase = .error) (code : Code) :
    execPushCode code s = .next (emit (recordedError s) s) := by
  simp [execPushCode, hm, hp]

theorem execPushEob_done (hp : s.phase = .done) : execPushEob s = .next (emit (plainResponse .frameDone) s) := by
  simp [execPushEob, hm, hp]

theorem execPushEob_error (hp : s.phase = .error) : execPushEob s = .next (emit (recordedError s) s) := by
  simp [execPushEob, hm, hp]

theorem execPushEob_atDc (hp : s.phase = .atDc) :
    execPushEob s = .next (raiseError .encProtocol .none s.wposBits s) := by
  simp [execPushEob, hm, hp]

end

/-- Settles O13: the rows of R256 for either push; only PUSH_EOB has a row in AT_DC. -/
theorem pushOutOfPhase : Obligations.PushOutOfPhase := by
  rintro s i (rfl | ⟨code, rfl⟩)
  · exact ⟨execPushEob_notStarted, execPushEob_done, execPushEob_error, fun hm hp _ => execPushEob_atDc hm hp⟩
  · exact ⟨fun h => execPushCode_notStarted h code, fun hm hp => execPushCode_done hm hp code,
      fun hm hp => execPushCode_error hm hp code, fun _ _ h => by cases h⟩

/-! ### PUSH_CODE of an AC code -/

/-- Settles O39: the push asks only whether EBUF has a free entry. -/
theorem pushAcResult : Obligations.PushAcResult := by
  intro code s hm hp
  have hexec : exec (.pushCode code) s = .next (pushAc code s) := execPushCode_collect hm hp code
  rw [hexec]
  refine ⟨fun hfree => ?_, fun hfull => ?_⟩
  · rw [pushAc, dif_pos hfree]
    rfl
  · have hlt : ¬ s.nbuf.toNat < 64 := by rw [hfull]; decide
    rw [pushAc, dif_neg hlt]

/-! ### The stream after a command's writes -/

/-- t has s's output and accumulator. -/
structure SameOut (s t : State) : Prop where
  out : t.out = s.out
  outLen : t.outLen = s.outLen
  acc : t.acc = s.acc
  accCnt : t.accCnt = s.accCnt

theorem sameOut_columnStart (s : State) : SameOut (columnStart s) s := by
  unfold columnStart
  split <;> exact ⟨rfl, rfl, rfl, rfl⟩

theorem sameOut_dcPushed (dc : Word) (u : State) : SameOut u (emit (plainResponse .ok) (dcPushed dc u)) :=
  ⟨by simp, by simp, by simp, by simp⟩

/-- Only the output and the accumulator count for the written stream. -/
theorem Appended_congr {s s' t t' : State} {n v : Nat} (h : Appended s t n v) (hs : SameOut s s')
    (ht : SameOut t t') : Appended s' t' n v := by
  have hbit {a b : State} (hab : SameOut a b) (k : Nat) : b.writtenBit k = a.writtenBit k :=
    writtenBit_congr hab.outLen hab.out hab.acc k
  have hpos : s'.wpos = s.wpos := wpos_congr hs.outLen hs.accCnt
  refine ⟨?_, fun k hk => ?_, fun i hi => ?_⟩
  · rw [hpos, wpos_congr ht.outLen ht.accCnt, h.wpos_eq]
  · rw [hbit ht, hbit hs, h.before k (hpos ▸ hk)]
  · rw [hpos, hbit ht, h.added i hi]

/-- Writes that went on have put the whole words of the stream into OUT (48_bit_accumulator R302). -/
theorem wrote_outLen {s t : State} {n v : Nat} (h : Wrote s t n v) (hmax : s.build.outMaxBytes < 2 ^ 32) :
    t.outLen.toNat = 4 * ((s.wpos + n) / 32) := by
  rw [outLen_eq h.acc_ok h.out_ok, (h.appended hmax).wpos_eq]

/-- Writes that went on fit the output (48_bit_accumulator R304). -/
theorem wrote_fits {s t : State} {n v : Nat} (h : Wrote s t n v) (hmax : s.build.outMaxBytes < 2 ^ 32) :
    4 * ((s.wpos + n) / 32) ≤ s.build.outMaxBytes := by
  rw [← wrote_outLen h hmax, ← Wrote_build h]
  exact h.out_ok.outLen_le

/-! ### PUSH_CODE of a DC -/

/-- A column's pad of zero bits, then the low n bits of v, after s's stream (46_encoder R251). -/
theorem dc_stream {s t : State} {n v : Nat}
    (h : Appended s t (columnPos s - s.wpos + n) (2 ^ (columnPos s - s.wpos) * v)) :
    t.wpos = columnPos s + n ∧ (∀ k, k < s.wpos → t.writtenBit k = s.writtenBit k) ∧
      (∀ k, s.wpos ≤ k → k < columnPos s → t.writtenBit k = false) ∧
      ∀ i, i < n → t.writtenBit (columnPos s + i) = v.testBit i := by
  have hge := columnPos_ge s
  refine ⟨by rw [h.wpos_eq]; omega, h.before, fun k hk hlt => ?_, fun i hi => ?_⟩
  · have hbit := h.added (k - s.wpos) (by omega)
    rwa [show s.wpos + (k - s.wpos) = k by omega, Nat.testBit_two_pow_mul,
      decide_eq_false (show ¬ columnPos s - s.wpos ≤ k - s.wpos by omega), Bool.false_and] at hbit
  · have hbit := h.added (columnPos s - s.wpos + i) (by omega)
    rwa [show s.wpos + (columnPos s - s.wpos + i) = columnPos s + i by omega, Nat.testBit_two_pow_mul,
      decide_eq_true (Nat.le_add_right _ _), Bool.true_and, Nat.add_sub_cancel_left] at hbit

/-- The registers after a pushed DC: the column boundary's, the chain's predictor, and those of the writes
(46_encoder R251). -/
theorem dcPushed_eq {s u : State} (hu : OnlyOut (columnStart s) u) (dc : Word) :
    dcPushed dc u = { s with
      predCr := if s.blk = .cr then dc else (columnStart s).predCr
      predCb := if s.blk = .cb then dc else (columnStart s).predCb
      predY1 := if s.blk = .y1 then dc else (columnStart s).predY1
      predY3 := if s.blk = .y3 then dc else (columnStart s).predY3
      quota := (columnStart s).quota - 1
      codeIdx := 1
      nbuf := 0
      phase := .collect
      acc := u.acc
      accCnt := u.accCnt
      out := u.out
      outLen := u.outLen } := by
  obtain ⟨a, c, o, l, rfl⟩ : ∃ a c o l, u = { columnStart s with acc := a, accCnt := c, out := o, outLen := l } :=
    ⟨_, _, _, _, hu⟩
  unfold dcPushed
  rw [writeChain_eq]
  unfold columnStart
  split <;> rfl

theorem pushedDc_toInt (code : Code) : (pushedDc code).toInt = (codeLevel code).toInt :=
  BitVec.toInt_signExtend_of_le (by decide)

section
variable {code : Code} {s : State} (hI : s.Inv) (hm : s.mode = .encode) (hp : s.phase = .atDc)
  (hmax : s.build.outMaxBytes < 2 ^ 32)
include hI hm hp hmax

/-- Where the DC's words fit, so does the column's pad (46_encoder R251). -/
theorem pushDc_of_fits (hfit : 4 * ((columnPos s + bitsLength (dcFields s code)) / 32) ≤ s.build.outMaxBytes) :
    ∃ u, pushDc code s = .done (emit (plainResponse .ok) (dcPushed (pushedDc code) u)) ∧
      Wrote (columnStart s) u (columnPos s - s.wpos + bitsLength (dcFields s code))
        (2 ^ (columnPos s - s.wpos) * bitsValue (dcFields s code)) := by
  obtain ⟨hA, hO⟩ := accOk_of_inv hI hm (by rw [hp]; decide)
  obtain hdone | ⟨-, -, hpad⟩ | ⟨t, -, -, hlost⟩ := pushDc_cases code hI.build_wf hA hO
  · exact hdone
  · have : s.build.outMaxBytes < 4 * (columnPos s / 32) := hpad.too_long hmax
    omega
  · have := hlost.too_long (by rwa [columnStart_build])
    rw [columnStart_build] at this
    omega

/-- Where the column's pad does not fit, nothing is written (46_encoder R251, 48_bit_accumulator R304). -/
theorem pushDc_of_pad_lost (hlost : s.build.outMaxBytes < 4 * (columnPos s / 32)) :
    pushDc code s = .raised (raiseError .encOutputOverflow .none s.wposBits (zeroPreds s)) := by
  obtain ⟨hA, hO⟩ := accOk_of_inv hI hm (by rw [hp]; decide)
  obtain ⟨u, -, hu⟩ | ⟨e, -, -⟩ | ⟨t, -, hfit, -⟩ := pushDc_cases code hI.build_wf hA hO
  · have := wrote_fits hu (by rwa [columnStart_build])
    rw [columnStart_wpos, columnStart_build] at this
    have := columnPos_ge s
    omega
  · exact e
  · have := hfit hmax
    omega

/-- Where the pad fits and the DC's words do not, the element's lines up to the one that did not fit are written
(46_encoder R251, 48_bit_accumulator R304). -/
theorem pushDc_of_element_lost (hfit : 4 * (columnPos s / 32) ≤ s.build.outMaxBytes)
    (hlost : s.build.outMaxBytes < 4 * ((columnPos s + bitsLength (dcFields s code)) / 32)) :
    ∃ t, pushDc code s = .raised t ∧
      Overflowed s.wposBits (columnStart s) t (columnPos s + bitsLength (dcFields s code))
        (columnPos s - s.wpos + appendedBits s.build.outMaxBytes (columnPos s) (dcFields s code))
        (2 ^ (columnPos s - s.wpos) * bitsValue (dcFields s code)) := by
  obtain ⟨hA, hO⟩ := accOk_of_inv hI hm (by rw [hp]; decide)
  obtain ⟨u, -, hu⟩ | ⟨-, -, hpad⟩ | ⟨t, e, -, ht⟩ := pushDc_cases code hI.build_wf hA hO
  · have := wrote_fits hu (by rwa [columnStart_build])
    rw [columnStart_wpos, columnStart_build] at this
    have := columnPos_ge s
    omega
  · have : s.build.outMaxBytes < 4 * (columnPos s / 32) := hpad.too_long hmax
    omega
  · exact ⟨t, e, ht⟩

end

/-- Settles O38: the three outcomes of the push, each with the column's pad and the element's bits after s's stream. -/
theorem pushDcResult : Obligations.PushDcResult := by
  intro code s hI hm hp hmax fs total dc
  have hexec : exec (.pushCode code) s = .next (pushDc code s).state := execPushCode_atDc hm hp code
  have hcol : (columnStart s).build.outMaxBytes < 2 ^ 32 := by rwa [columnStart_build]
  have hsame := sameOut_columnStart s
  rw [hexec]
  refine ⟨fun hfit => ?_, fun hlost => ?_, fun hfit hlost => ?_⟩
  · obtain ⟨u, e, hu⟩ := pushDc_of_fits hI hm hp hmax hfit
    have hout := sameOut_dcPushed dc u
    obtain ⟨hpos, hold, hpad, hnew⟩ := dc_stream (Appended_congr (hu.appended hcol) hsame hout)
    obtain ⟨-, hkept⟩ := OutKept_congr (hu.kept hcol) hsame.out hsame.outLen hout.out hout.outLen
    have hwords : u.outLen.toNat = 4 * (total / 32) := by
      rw [wrote_outLen hu hcol, columnStart_wpos, ← Nat.add_assoc, Nat.add_sub_cancel' (columnPos_ge s)]
    refine ⟨_, by rw [e]; rfl, ?_, pushedDc_toInt code, hpos, ?_, hold, hpad, hnew, hkept⟩
    · rw [hout.acc, hout.accCnt, hout.out, hout.outLen, dcPushed_eq hu.only]
      rfl
    · rw [hout.outLen, hwords]
  · rw [pushDc_of_pad_lost hI hm hp hmax hlost]
    rfl
  · obtain ⟨t, e, ht⟩ := pushDc_of_element_lost hI hm hp hmax hfit hlost
    obtain ⟨hpos, hold, hpad, hnew⟩ := dc_stream (Appended_congr (ht.appended hcol) hsame ⟨rfl, rfl, rfl, rfl⟩)
    obtain ⟨-, hkept⟩ := OutKept_congr (ht.kept hcol) hsame.out hsame.outLen rfl rfl
    have hfull : t.outLen.toNat = s.build.outMaxBytes := by
      rw [overflowed_outLen ht (by rw [columnStart_build]; exact hI.build_wf), columnStart_build]
    exact ⟨t, by rw [e]; rfl, ht.only, hfull, hpos, ht.out_ok.acc_lt, hold, hpad, hnew, hkept⟩

end Sys2Proof.Machine
end

section
/-! PUSH_EOB with an instruction for the buffered codes: its writes are the block's BITS lines and, after the frame's last
block, a pad to a word. They fit exactly where the words up to the block's end position do, so each outcome belongs to
one case of its statement (46_encoder R253 to R255, 48_bit_accumulator R301 to R304). -/

namespace Sys2Proof.Machine

/-- The BITS lines PUSH_EOB writes for the buffered codes (46_encoder R253, R254). -/
def eobFields (s : State) (e : Entry Counts) : List BitsField := blockFields s.registry e s.pushed

/-- The stream position after the block's bits (46_encoder R254). -/
def eobPos (s : State) (e : Entry Counts) : Nat := s.wpos + bitsLength (eobFields s e)

/-- The stream position after the block's end: the frame's last block is padded to a word (46_encoder R255). -/
def eobEnd (s : State) (e : Entry Counts) : Nat :=
  if s.nextMb = s.mbCount then paddedPos (eobPos s e) else eobPos s e

theorem le_paddedPos (p : Nat) : p ≤ paddedPos p := by
  unfold paddedPos
  omega

theorem lastBlock_iff (s : State) : lastBlock s ↔ s.nextMb = s.mbCount := Iff.rfl

theorem eobEnd_of_last {s : State} (h : lastBlock s) (e : Entry Counts) : eobEnd s e = paddedPos (eobPos s e) :=
  if_pos ((lastBlock_iff s).mp h)

theorem eobEnd_of_not_last {s : State} (h : ¬ lastBlock s) (e : Entry Counts) : eobEnd s e = eobPos s e :=
  if_neg (mt (lastBlock_iff s).mpr h)

theorem eobPos_le_eobEnd (s : State) (e : Entry Counts) : eobPos s e ≤ eobEnd s e := by
  unfold eobEnd
  split
  · exact le_paddedPos _
  · exact Nat.le_refl _

/-- The block cursor's move, register by register (46_encoder R253). -/
theorem blockDone_eq (s : State) :
    blockDone s = { s with nbuf := 0, codeIdx := 0, blk := s.afterBlock.blk, mbIdx := s.nextMb } := by
  have hblk : s.blk.next = s.afterBlock.blk := by
    unfold State.afterBlock Block.next
    cases s.blk <;> rfl
  rw [← hblk]
  rfl

/-- The registers after a pushed EOB: those of a block's end and those of the writes (46_encoder R253). -/
theorem eobPushed_eq {s u : State} (hu : OnlyOut (blockDone s) u) :
    emit (plainResponse .ok) (setPhase (if s.nextMb = s.mbCount then .done else .atDc) u) = { s.afterBlock with
      nbuf := 0
      acc := u.acc
      accCnt := u.accCnt
      out := u.out
      outLen := u.outLen
      resp := some ⟨.ok, 0⟩ } := by
  obtain ⟨a, c, o, l, rfl⟩ : ∃ a c o l, u = { blockDone s with acc := a, accCnt := c, out := o, outLen := l } :=
    ⟨_, _, _, _, hu⟩
  rw [blockDone_eq]
  rfl

/-- The registers a PUSH_EOB that overflows leaves besides the output's: the block cursor has moved where the block's own
bits fit (46_encoder R255, 48_bit_accumulator R304). -/
def eobRegs (s : State) (e : Entry Counts) : State :=
  if 4 * (eobPos s e / 32) ≤ s.build.outMaxBytes then blockDone s else s

theorem eobRegs_of_fits {s : State} {e : Entry Counts} (h : 4 * (eobPos s e / 32) ≤ s.build.outMaxBytes) :
    eobRegs s e = blockDone s := if_pos h

theorem eobRegs_of_lost {s : State} {e : Entry Counts} (h : s.build.outMaxBytes < 4 * (eobPos s e / 32)) :
    eobRegs s e = s := if_neg (Nat.not_le_of_lt h)

theorem eobRegs_build (s : State) (e : Entry Counts) : (eobRegs s e).build = s.build := by
  unfold eobRegs
  split <;> rfl

theorem sameOut_eobRegs (s : State) (e : Entry Counts) : SameOut (eobRegs s e) s := by
  unfold eobRegs
  split <;> exact ⟨rfl, rfl, rfl, rfl⟩

/-- The block's bits, then zero bits up to its end position, after s's stream (46_encoder R254, R255). -/
theorem eob_stream {s t : State} {e : Entry Counts}
    (h : Appended s t (eobEnd s e - s.wpos) (bitsValue (eobFields s e))) :
    t.wpos = eobEnd s e ∧ (∀ k, k < s.wpos → t.writtenBit k = s.writtenBit k) ∧
      (∀ i, i < bitsLength (eobFields s e) → t.writtenBit (s.wpos + i) = (bitsValue (eobFields s e)).testBit i) ∧
      ∀ k, eobPos s e ≤ k → k < eobEnd s e → t.writtenBit k = false := by
  have hend := eobPos_le_eobEnd s e
  have hpos : eobPos s e = s.wpos + bitsLength (eobFields s e) := rfl
  refine ⟨by rw [h.wpos_eq]; omega, h.before, fun i hi => h.added i (by omega), fun k hk hlt => ?_⟩
  have hbit := h.added (k - s.wpos) (by omega)
  have hzero : (bitsValue (eobFields s e)).testBit (k - s.wpos) = false :=
    Nat.testBit_lt_two_pow (Nat.lt_of_lt_of_le (bitsValue_lt _) (Nat.pow_le_pow_right (by decide) (by omega)))
  rwa [show s.wpos + (k - s.wpos) = k by omega, hzero] at hbit

section
variable {s : State} {e : Entry Counts} (hI : s.Inv) (hm : s.mode = .encode) (hp : s.phase = .collect)
  (hmax : s.build.outMaxBytes < 2 ^ 32) (he : s.registry.sumMap s.nbuf.toNat = some e)
include hI hm hp hmax he

/-- What PUSH_EOB does, with the writes that went on told by one end position and the overflows by whether the block's
own bits fit (46_encoder R253, R255; 48_bit_accumulator R304). -/
theorem pushEob_outcome :
    (∃ u, pushEobCollect s =
        .done (emit (plainResponse .ok) (setPhase (if s.nextMb = s.mbCount then .done else .atDc) u)) ∧
      Wrote (blockDone s) u (eobEnd s e - s.wpos) (bitsValue (eobFields s e))) ∨
    (∃ t, pushEobCollect s = .raised t ∧
      Overflowed s.wposBits (eobRegs s e) t (eobEnd s e)
        (appendedBits s.build.outMaxBytes s.wpos (eobFields s e)) (bitsValue (eobFields s e))) := by
  obtain ⟨hA, hO⟩ := accOk_of_inv hI hm (by rw [hp]; decide)
  obtain ⟨u, hpush, hl, hu⟩ | ⟨u, n, hpush, hl, -, -, hn, hu⟩ | ⟨t, hpush, ht⟩ | ⟨t, hpush, hl, hfit, ht⟩ :=
    pushEobCollect_cases hI.build_wf hA hO he
  · refine .inl ⟨u, by rw [hpush, if_neg (mt (lastBlock_iff s).mpr hl)], ?_⟩
    rw [eobEnd_of_not_last hl, eobPos, Nat.add_sub_cancel_left]
    exact hu
  · refine .inl ⟨u, by rw [hpush, if_pos ((lastBlock_iff s).mp hl)], ?_⟩
    rw [eobEnd_of_last hl, ← show n = paddedPos (eobPos s e) - s.wpos from hn hmax]
    exact hu
  · have hlost : s.build.outMaxBytes < 4 * (eobPos s e / 32) := ht.too_long hmax
    refine .inr ⟨t, hpush, ?_⟩
    rw [eobRegs_of_lost hlost]
    exact Overflowed_congr ht fun _ => ⟨eobPos_le_eobEnd s e, rfl, fun _ _ => rfl⟩
  · have hbits : 4 * (eobPos s e / 32) ≤ s.build.outMaxBytes := hfit hmax
    refine .inr ⟨t, hpush, ?_⟩
    rw [eobRegs_of_fits hbits, eobEnd_of_last hl, appendedBits_of_fits _ _ hbits]
    exact ht

/-- Where the words up to the block's end fit, PUSH_EOB writes them and ends the block (46_encoder R253). -/
theorem pushEob_of_fits (hfit : 4 * (eobEnd s e / 32) ≤ s.build.outMaxBytes) :
    ∃ u, pushEobCollect s =
        .done (emit (plainResponse .ok) (setPhase (if s.nextMb = s.mbCount then .done else .atDc) u)) ∧
      Wrote (blockDone s) u (eobEnd s e - s.wpos) (bitsValue (eobFields s e)) := by
  obtain hdone | ⟨t, -, ht⟩ := pushEob_outcome hI hm hp hmax he
  · exact hdone
  · have hlost := ht.too_long (by rwa [eobRegs_build])
    rw [eobRegs_build] at hlost
    omega

/-- Where they do not, PUSH_EOB writes the lines up to the one that did not fit (48_bit_accumulator R304). -/
theorem pushEob_of_lost (hlost : s.build.outMaxBytes < 4 * (eobEnd s e / 32)) :
    ∃ t, pushEobCollect s = .raised t ∧
      Overflowed s.wposBits (eobRegs s e) t (eobEnd s e)
        (appendedBits s.build.outMaxBytes s.wpos (eobFields s e)) (bitsValue (eobFields s e)) := by
  obtain ⟨u, -, hu⟩ | hraised := pushEob_outcome hI hm hp hmax he
  · have hfit : 4 * ((s.wpos + (eobEnd s e - s.wpos)) / 32) ≤ s.build.outMaxBytes :=
      wrote_fits (s := blockDone s) hu hmax
    have hend := eobPos_le_eobEnd s e
    unfold eobPos at hend
    omega
  · exact hraised

end

/-- Settles O40: the block's end after its bits and the final pad, or the overflow with the block cursor moved where only
the pad was lost. -/
theorem pushEobResult : Obligations.PushEobResult := by
  intro s e hI hm hp hmax he fs bits total
  have hexec : exec .pushEob s = .next (pushEobCollect s).state := execPushEob_collect hm hp
  rw [hexec]
  refine ⟨fun hfit => ?_, fun hlost => ?_⟩
  · obtain ⟨u, hpush, hu⟩ := pushEob_of_fits hI hm hp hmax he hfit
    have happ : Appended s u (eobEnd s e - s.wpos) (bitsValue (eobFields s e)) :=
      Appended_congr (hu.appended hmax) ⟨rfl, rfl, rfl, rfl⟩ ⟨rfl, rfl, rfl, rfl⟩
    obtain ⟨hpos, hold, hnew, hpad⟩ := eob_stream happ
    have hwords : u.outLen.toNat = 4 * (u.wpos / 32) := outLen_eq hu.acc_ok hu.out_ok
    rw [hpos] at hwords
    exact ⟨_, by rw [hpush]; rfl, eobPushed_eq hu.only, hpos, hwords, hold, hnew, hpad, (hu.kept hmax).2⟩
  · obtain ⟨t, hpush, ht⟩ := pushEob_of_lost hI hm hp hmax he hlost
    have hcap : (eobRegs s e).build.outMaxBytes < 2 ^ 32 := by rwa [eobRegs_build]
    have hsame := sameOut_eobRegs s e
    have happ := Appended_congr (ht.appended hcap) hsame ⟨rfl, rfl, rfl, rfl⟩
    obtain ⟨-, hkept⟩ := OutKept_congr (ht.kept hcap) hsame.out hsame.outLen rfl rfl
    have hfull : t.outLen.toNat = s.build.outMaxBytes := by
      rw [overflowed_outLen ht (by rw [eobRegs_build]; exact hI.build_wf), eobRegs_build]
    have honly := ht.only
    rw [OnlyOutRaised, eobRegs, blockDone_eq] at honly
    exact ⟨t, by rw [hpush]; rfl, honly, hfull, happ.wpos_eq, ht.out_ok.acc_lt, happ.before, happ.added, hkept⟩

end Sys2Proof.Machine
end

section
/-! The bit cursor under every command: what the window is read from, which only loads and consumes change, so the window
invariant goes through every step (47_bit_cursor R287); each element consumes exactly its length (R283, R288); and
the window is a function of the buffer and POS (R287, consequence (a)). -/

namespace Sys2Proof.Machine

/-! ### The cursor and the buffer it reads -/

/-- The cursor's registers (47_bit_cursor R280), OVERRUN, and the bound buffer with its length. -/
def State.cursor (s : State) : Word × Word × Word × BitVec 7 × Nat × Bool × BitVec 24 × Memory :=
  (s.front, s.mid, s.back, s.rem, s.p, s.overrun, s.len, s.buf)

theorem window_of_cursor {s t : State} (h : t.cursor = s.cursor) (hW : s.Window) : t.Window := by
  simp only [State.cursor, Prod.mk.injEq] at h
  obtain ⟨hfront, hmid, hback, hrem, hp, -, hlen, hbuf⟩ := h
  exact window_congr hfront hmid hback hrem hp hlen hbuf hW

theorem posNat_of_cursor {s t : State} (h : t.cursor = s.cursor) : t.posNat = s.posNat := by
  simp only [State.cursor, Prod.mk.injEq] at h
  obtain ⟨-, -, -, hrem, hp, -⟩ := h
  unfold State.posNat
  rw [hrem, hp]

theorem overrun_of_cursor {s t : State} (h : t.cursor = s.cursor) : t.overrun = s.overrun :=
  congrArg (fun c => c.2.2.2.2.2.1) h

/-! ### The elements -/

theorem dcStep_cursor (dc : Word) (n : Nat) (s : State) : (dcStep dc n s).cursor = (consume n s).cursor := by
  rw [dcStep_eq, ← advanced_eq]
  rfl

theorem insStep_cursor (c : Counts) (n : Nat) (s : State) : (insStep c n s).cursor = (consume n s).cursor := by
  rw [insStep_eq]
  rfl

theorem acStep_cursor (k : Role) (code : Code) (n : Nat) (s : State) :
    (acStep k code n s).cursor = (consume n s).cursor := by
  simp [State.cursor, acStep]

theorem runAc_cursor {k : Role} {code : Code} {n : Nat} {s t : State} (h : runAc k code n s = .next t) :
    t.cursor = (consume n s).cursor := by
  unfold runAc at h
  split at h <;> cases h
  exact acStep_cursor k code n s

/-- An element that runs consumes its length, and does no more to the cursor (45_decoder R218, R222, R223). -/
theorem element_cursor {i : Instr} {cls : ElementClass} (hi : i.elementClass = some cls) {s t : State}
    (h : exec i s = .next t) : t.cursor = (consume (elementLength s.registry i) s).cursor := by
  cases i <;> cases hi
  case dcEsc v =>
    simp only [exec, execDcEsc] at h
    split at h <;> cases h
    exact dcStep_cursor _ _ s
  case dcVlc e =>
    simp only [exec, execDcVlc] at h
    split at h <;> cases h
    exact dcStep_cursor _ _ s
  case insVlc e =>
    simp only [exec, execInsVlc] at h
    split at h <;> cases h
    exact insStep_cursor _ _ s
  all_goals exact runAc_cursor h

theorem elementClass_of_wfIn {r : Registry} {i : Instr} (hi : i.wfIn r = true) : ∃ cls, i.elementClass = some cls := by
  cases i
  case reset | startDecode | pull | startEncode | pushCode | pushEob | readReg | reservedCmd =>
    simp [Instr.wfIn] at hi
  all_goals exact ⟨_, rfl⟩

theorem entry_len_pos {α : Type} {e : Entry α} (h : e.shapeOk = true) : 0 < e.len := by
  simp only [Entry.shapeOk, Bool.and_eq_true, decide_eq_true_eq] at h
  exact h.1.1

/-- No element is empty: an entry has a code bit (30_encoding R92), an escape has its field. -/
theorem elementLength_pos {r : Registry} {i : Instr} (hi : i.wfIn r = true) : 0 < elementLength r i := by
  cases i <;> simp only [Instr.wfIn, Instr.wf, Bool.and_eq_true, Bool.and_false, reduceCtorEq] at hi
  case dcVlc | insVlc | ac1Vlc | ac2Vlc | ac3Vlc => exact entry_len_pos hi.1.1
  all_goals exact Nat.add_pos_right _ (by decide)

/-- Settles O31: an element's effect on the cursor is one consume of its length, between 1 and 32 bits. -/
theorem elementAdvances : Obligations.ElementAdvances := by
  intro i s t hb hW hi h
  obtain ⟨cls, hc⟩ := elementClass_of_wfIn hi
  obtain ⟨-, hle, -⟩ := element_fits (Build.registry_wf hb s.sel) hi
  have hne := (elementLength_pos hi).ne'
  have ht := element_cursor hc h
  refine ⟨?_, window_of_cursor ht (consume_window hW hle), ?_⟩
  · exact (posNat_of_cursor ht).trans (consume_posNat hW.rem_le hle)
  · exact (overrun_of_cursor ht).trans (consume_overrun hW.rem_le hle hne)

/-! ### PULL -/

theorem advanced_window {s : State} (h : s.Window) {n : Nat} (hn : n ≤ 32) : (s.advanced n).Window := by
  rw [advanced_eq]
  exact consume_window h hn

/-- A DC is decoded from the same window, or from a column's loaded one (45_decoder R218, R220). -/
theorem dcStart_window {s u : State} (h : s.Window) (hu : DcStart s u) : u.Window := by
  obtain ⟨-, -, ⟨-, rfl⟩ | ⟨-, rfl⟩⟩ := hu
  · exact h
  · exact atColumn_window s

theorem afterIns_window {s : State} (h : s.Window) (c : Counts) {n : Nat} (hn : n ≤ 32) : (s.afterIns c n).Window :=
  window_of_cursor (s := s.advanced n) rfl (advanced_window h hn)

/-- An AC code is decoded from the same window, or from the one after its block's instruction (45_decoder R222,
R223). -/
theorem acStart_window {s u : State} {k : Role} (h : s.Window) (hu : AcStart s u k) : u.Window := by
  obtain ⟨-, -, -, rfl | ⟨e, -, -, hle, rfl⟩⟩ := hu
  · exact h
  · exact afterIns_window h e.payload hle

theorem afterAc_window {s : State} (h : s.Window) (k : Role) (code : Code) {n : Nat} (hn : n ≤ 32) :
    (s.afterAc k code n).Window :=
  window_of_cursor (s := s.advanced n) (by cases k <;> rfl) (advanced_window h hn)

/-- A PULL keeps the window: it loads a column, consumes elements, or leaves the cursor (45_decoder R217 to R228). -/
theorem pulled_window {s t : State} (h : s.Window) (ht : Pulled s t) : t.Window := by
  cases ht with
  | answered | columnLost | insLost | blockEnd => exact window_of_cursor (s := s) rfl h
  | dcLost u hu => exact window_of_cursor (s := u) rfl (dcStart_window h hu)
  | dc u v n hu hn => exact window_of_cursor (s := u.advanced n) rfl (advanced_window (dcStart_window h hu) hn)
  | insEnd e _ _ _ hle =>
    exact window_of_cursor (s := s.afterIns e.payload e.len) rfl (afterIns_window h e.payload hle)
  | acLost u k hu => exact window_of_cursor (s := u) rfl (acStart_window h hu)
  | ac u k code n hu hn => exact afterAc_window (acStart_window h hu) k code hn

/-! ### The pushes -/

theorem wrote_cursor {s t : State} {n v : Nat} (h : Wrote s t n v) : t.cursor = s.cursor := by
  rw [h.only]
  rfl

theorem overflowed_cursor {wpos : BitVec 35} {s t : State} {total n v : Nat} (h : Overflowed wpos s t total n v) :
    t.cursor = s.cursor := by
  rw [h.only]
  rfl

theorem columnStart_cursor (s : State) : (columnStart s).cursor = s.cursor := by
  unfold columnStart
  split <;> rfl

theorem dcPushed_cursor (dc : Word) (s : State) : (dcPushed dc s).cursor = s.cursor := by simp [State.cursor]

/-- A push leaves the cursor, whatever it does (46_encoder R251 to R256). -/
theorem pushed_cursor {s t : State} (ht : Pushed s t) : t.cursor = s.cursor := by
  cases ht with
  | answered | protocol | ac | acLost | noInstruction => rfl
  | dc u n v d _ _ hu => exact (dcPushed_cursor d u).trans ((wrote_cursor hu).trans (columnStart_cursor s))
  | dcPadLost t total n v _ _ _ ht => exact (overflowed_cursor ht : t.cursor = (zeroPreds s).cursor)
  | dcLost t total n v _ _ ht => exact (overflowed_cursor ht).trans (columnStart_cursor s)
  | eob u n v _ _ _ hu => exact (wrote_cursor hu : u.cursor = (blockDone s).cursor)
  | eobDone u n v _ _ _ hu => exact (wrote_cursor hu : u.cursor = (blockDone s).cursor)
  | eobLost t total n v _ _ ht => exact overflowed_cursor ht
  | eobPadLost t total n v _ _ _ ht => exact (overflowed_cursor ht : t.cursor = (blockDone s).cursor)

/-! ### Every step -/

/-- Without a buffer every stream bit is 0, and so are the cursor's registers (70_reset R345, 20_memory R62). -/
theorem resetWith_window (b : Build) (o : Memory) (port : List HostCommand) (r : Option Response) :
    (State.resetWith b o port r).Window := by
  have hbyte : ∀ a, inputByte (State.resetWith b o port r) a = 0 := fun a => if_neg (Nat.not_lt_zero a)
  have hbit : ∀ k, streamBit (State.resetWith b o port r) k = false := fun k => by
    rw [streamBit, hbyte]
    exact BitVec.getLsbD_zero
  constructor
  · exact Nat.zero_le 32
  · intro i _
    rw [hbit]
    exact BitVec.getLsbD_zero
  · intro i
    rw [hbit, Bool.and_false]
    exact BitVec.getLsbD_zero
  · simp only [inputWord, hbyte]
    rfl

/-- START_DECODE loads the cursor from its buffer (45_decoder R216, 47_bit_cursor R281). -/
theorem bindBuffer_window (l : BitVec 24) (b : List Byte) (s : State) : (bindBuffer l b s).Window := load_window 0 _

theorem commanded_window {s t : State} (h : s.Window) (ht : Commanded s t) : t.Window := by
  cases ht with
  | reset => exact resetWith_window _ _ _ _
  | startLost sel q m l b =>
    exact window_of_cursor (s := bindBuffer l b (startFrame .decode sel q m s)) rfl (bindBuffer_window l b _)
  | startDecode sel q m l b =>
    exact window_of_cursor (s := bindBuffer l b (startFrame .decode sel q m s)) rfl (bindBuffer_window l b _)
  | startEncode sel q m => exact window_congr (s := s) rfl rfl rfl rfl rfl rfl rfl h
  | answered => exact window_of_cursor (s := s) rfl h
  | pull ht => exact pulled_window h ht
  | push ht => exact window_of_cursor (pushed_cursor ht) h

/-- Settles O49: every command loads the cursor, consumes from it, resets it or leaves it. -/
theorem stepKeepsWindow : Obligations.StepKeepsWindow := fun _ _ hI h ht =>
  step_keeps (fun s _ hs => window_of_cursor (s := s) rfl hs) (fun _ _ _ => commanded_window) hI h ht

/-! ### The window as a function of the buffer and POS -/

/-- The stream has the bytes below LEN and zeros past it (20_memory R62, R64). -/
theorem streamBit_of_bytes_eq {s t : State} (hlen : s.len = t.len)
    (hbuf : ∀ a, a < s.len.toNat → s.buf.read a = t.buf.read a) (k : Nat) : streamBit s k = streamBit t k := by
  have hbyte : inputByte s (k / 8) = inputByte t (k / 8) := by
    unfold inputByte
    rw [← hlen]
    split
    · exact hbuf _ ‹_›
    · rfl
  unfold streamBit
  rw [hbyte]

/-- Settles O53: FRONT is the 32 stream bits at POS, bit by bit. -/
theorem windowDetermined : Obligations.WindowDetermined := by
  intro s t hs ht hpos hlen hbuf
  have hfront : s.front = t.front := by
    apply BitVec.eq_of_getLsbD_eq
    intro i hi
    rw [hs.front_bits i hi, ht.front_bits i hi, hpos, streamBit_of_bytes_eq hlen hbuf]
  exact ⟨hfront, fun r cls => by rw [hfront]⟩

end Sys2Proof.Machine
end

section
/-! Errors and reset: the error entry as a list of registers with its response's data as a number (60_exceptions R320,
40_host_interface R122); the encoder's four raises (60_exceptions R316, R319); and the reset values, which power-on and
RESET share, with what they satisfy (70_reset R345, R346). -/

namespace Sys2Proof.Machine

/-! ### The error entry -/

/-- The data of an ERROR response: cause, table and position at rising bit places (40_host_interface R122). -/
theorem errorResponse_data_toNat (cause : ErrCause) (table : ErrTable) (pos : BitVec 35) :
    (errorResponse cause table pos).data.toNat =
      cause.code.toNat + 2 ^ 4 * table.code.toNat + 2 ^ 8 * pos.toNat := by
  have hcause := holds_setWidth cause.code (by decide)
  have htable := holds_field hcause table.code (k := 4) (by decide) (by decide)
  exact (holds_field htable pos (k := 8) (by decide) (by decide)).1

/-- Settles O16: the entry's response is the one whose data is that number. -/
theorem errorEntry : Obligations.ErrorEntry := fun cause table pos _ =>
  ⟨(errorResponse cause table pos).data, errorResponse_data_toNat cause table pos, rfl⟩

/-! ### The encoder's errors -/

theorem pushEobCollect_of_no_instruction {s : State} (h : s.registry.sumMap s.nbuf.toNat = none) :
    pushEobCollect s = .raised (raiseError .encNoInstruction .ins s.wposBits s) := by
  have hnone : chooseIns s.registry s.nbuf.toNat = none := h
  rw [pushEobCollect, hnone]

/-- Settles O41: each check comes before the command's first write. -/
theorem encoderErrors : Obligations.EncoderErrors := by
  refine ⟨fun s hm hp hnone => ?noInstruction, fun s hm hp => execPushEob_atDc hm hp,
    fun code s hm hp hfull => (pushAcResult code s hm hp).2 hfull, fun wpos w s => ?overflow⟩
  case noInstruction =>
    have hexec : exec .pushEob s = .next (pushEobCollect s).state := execPushEob_collect hm hp
    rw [hexec, pushEobCollect_of_no_instruction hnone]
    rfl
  case overflow => rw [outWrite]

/-! ### The reset values -/

/-- Power-on and RESET leave the same registers; they differ in the build, OUT's bytes, the port and the response
(70_reset R345, R346). -/
theorem eq_resetWith_of_reset {t : State} (h : t = State.reset ∨ ∃ s, exec .reset s = .next t) :
    ∃ b o port r, t = State.resetWith b o port r := by
  obtain rfl | ⟨s, hs⟩ := h
  · exact ⟨_, _, _, _, rfl⟩
  · cases (exec_reset s).symm.trans hs
    exact ⟨_, _, _, _, rfl⟩

section
variable (b : Build) (o : Memory) (port : List HostCommand) (r : Option Response)

theorem ebufAt_resetWith (i : Nat) : ebufAt (State.resetWith b o port r) i = 0 := by
  show (Vector.replicate 64 (0 : Code))[i]?.getD 0 = 0
  rw [Vector.getElem?_replicate]
  split <;> rfl

/-- IDLE and MODE decode have the code 0, as ERR_CAUSE and ERR_TABLE have without an error. -/
theorem statusWord_resetWith : statusWord (State.resetWith b o port r) = 0 :=
  BitVec.eq_of_toNat_eq (statusWord_toNat _)

theorem countersWord_resetWith : countersWord (State.resetWith b o port r) = 0 :=
  BitVec.eq_of_toNat_eq (countersWord_toNat _)

/-- BLK Cr has the code 0. -/
theorem mbcurWord_resetWith : mbcurWord (State.resetWith b o port r) = 0 :=
  BitVec.eq_of_toNat_eq (mbcurWord_toNat _)

theorem cfgWord_resetWith : cfgWord (State.resetWith b o port r) = 0 :=
  BitVec.eq_of_toNat_eq (cfgWord_toNat _)

/-- The words of fields are 0, POS reads 0 in IDLE (assumption log 9), and each other view is one register. -/
theorem registerView_resetWith (n : Nat) : registerView (State.resetWith b o port r) n = 0 := by
  unfold registerView
  split
  case h_1 => exact statusWord_resetWith b o port r
  case h_13 => exact countersWord_resetWith b o port r
  case h_14 => exact mbcurWord_resetWith b o port r
  case h_15 => exact cfgWord_resetWith b o port r
  case h_20 i => rw [ebufAt_resetWith]; rfl
  all_goals rfl

/-- With OUT_LEN at 0 the host can read none of the bytes OUT still has (70_reset R346; assumption log 12). -/
theorem readOut_resetWith (a : Nat) : (State.resetWith b o port r).readOut a = none := if_neg (Nat.not_lt_zero a)

end

/-- Settles O8: the registers of either state are the reset values, whose every view is 0. -/
theorem resetValues : Obligations.ResetValues := by
  intro t ht
  obtain ⟨b, o, port, r, rfl⟩ := eq_resetWith_of_reset ht
  refine ⟨⟨rfl, rfl, rfl, rfl, rfl, rfl⟩, ⟨rfl, rfl, rfl, rfl, rfl⟩, ⟨rfl, rfl, rfl, rfl, rfl, rfl, rfl⟩,
    ⟨rfl, rfl, rfl, rfl⟩, ⟨rfl, rfl, rfl, rfl⟩, ⟨rfl, rfl, rfl, rfl, ebufAt_resetWith b o port r⟩,
    ⟨rfl, readOut_resetWith b o port r⟩, fun n hn => ?_⟩
  rw [(readRegAnswers n _).1 hn, registerView_resetWith]

/-- Settles O47: IDLE asks nothing of QUOTA and a CODE_IDX of 0; the build is the admitted board's (60_exceptions
R327). -/
theorem resetMeetsInvariants : Obligations.ResetMeetsInvariants :=
  ⟨resetWith_inv Config.board.admitted rfl _ _, resetWith_window _ _ _ _, trivial, rfl⟩

end Sys2Proof.Machine
end
